-- ==== Sys2Proof/Word.lean ====
section
/-! DEFINITION. The widths of the machine's values (spec 00_scope R8, R11): a register is a 64-bit vector, the 32-bit
ALU works on 32-bit vectors, memory holds bytes. -/

namespace Sys2Proof

/-- A byte of instruction or data memory. -/
abbrev Byte := BitVec 8

/-- A value of the 32-bit ALU (u32). -/
abbrev Half := BitVec 32

/-- A register value, an instruction word, an instruction pointer (u64). -/
abbrev Word := BitVec 64

end Sys2Proof
end

