-- ==== Sys2Proof/Syntax.lean ====
section
/-! DEFINITION. The instructions as syntax: the operations and conditions the opcode's code field selects
(spec 30_encoding R79, R80), the five fields of an instruction word (R72), and `Instr`, one constructor for each of
the 74 rows of spec/opcode_table.json (R81). A constructor carries exactly the fields its family reads (R82); the
suffix K names the immediate form, X the register form (00_scope R17). -/

namespace Sys2Proof

/-- A register number: a 4-bit index, every value of which is valid (10_state R21, 30_encoding R78). -/
abbrev Reg := Fin 16

/-- The thirteen ALU operations, shared by both ALU classes (30_encoding R79). -/
inductive AluOp where
  | add | sub | mul | div | or | and | lsh | rsh | neg | mod | xor | mov | arsh
  deriving DecidableEq, Repr

/-- The eight branch conditions (30_encoding R80). -/
inductive JmpCond where
  | ja | jeq | jgt | jge | jset | jne | jlt | jle
  deriving DecidableEq, Repr

/-- The five fields the decoder extracts from a word, as they stand in it (30_encoding R72). -/
structure Fields where
  /-- bytes 0 to 3, `W[31:0]` -/
  imm : BitVec 32
  /-- bytes 4 and 5, `W[47:32]`, read as two's complement -/
  off : BitVec 16
  /-- the low nibble of byte 6, `W[51:48]` -/
  dst : BitVec 4
  /-- the high nibble of byte 6, `W[55:52]` -/
  src : BitVec 4
  /-- byte 7, `W[63:56]` -/
  op : BitVec 8
  deriving DecidableEq, Repr

/-- The instructions, one constructor per row of the opcode table (30_encoding R81). -/
inductive Instr where
  -- 64-bit ALU, class 7 (41_alu64)
  /-- `add rD, imm` (R101) -/
  | addK (dst : Reg) (imm : BitVec 32)
  /-- `add rD, rS` (R101) -/
  | addX (dst src : Reg)
  /-- `sub rD, imm` (R102) -/
  | subK (dst : Reg) (imm : BitVec 32)
  /-- `sub rD, rS` (R102) -/
  | subX (dst src : Reg)
  /-- `mul rD, imm` (R103) -/
  | mulK (dst : Reg) (imm : BitVec 32)
  /-- `mul rD, rS` (R103) -/
  | mulX (dst src : Reg)
  /-- `div rD, imm` (R104) -/
  | divK (dst : Reg) (imm : BitVec 32)
  /-- `div rD, rS` (R104) -/
  | divX (dst src : Reg)
  /-- `or rD, imm` (R105) -/
  | orK (dst : Reg) (imm : BitVec 32)
  /-- `or rD, rS` (R105) -/
  | orX (dst src : Reg)
  /-- `and rD, imm` (R106) -/
  | andK (dst : Reg) (imm : BitVec 32)
  /-- `and rD, rS` (R106) -/
  | andX (dst src : Reg)
  /-- `lsh rD, imm` (R107) -/
  | lshK (dst : Reg) (imm : BitVec 32)
  /-- `lsh rD, rS` (R107) -/
  | lshX (dst src : Reg)
  /-- `rsh rD, imm` (R108) -/
  | rshK (dst : Reg) (imm : BitVec 32)
  /-- `rsh rD, rS` (R108) -/
  | rshX (dst src : Reg)
  /-- `neg rD` (R109, K form) -/
  | negK (dst : Reg)
  /-- `neg.x rD` (R109, X form) -/
  | negX (dst : Reg)
  /-- `mod rD, imm` (R110) -/
  | modK (dst : Reg) (imm : BitVec 32)
  /-- `mod rD, rS` (R110) -/
  | modX (dst src : Reg)
  /-- `xor rD, imm` (R111) -/
  | xorK (dst : Reg) (imm : BitVec 32)
  /-- `xor rD, rS` (R111) -/
  | xorX (dst src : Reg)
  /-- `mov rD, imm` (R112) -/
  | movK (dst : Reg) (imm : BitVec 32)
  /-- `mov rD, rS` (R112) -/
  | movX (dst src : Reg)
  /-- `arsh rD, imm` (R113) -/
  | arshK (dst : Reg) (imm : BitVec 32)
  /-- `arsh rD, rS` (R113) -/
  | arshX (dst src : Reg)
  -- 32-bit ALU, class 4 (42_alu32)
  /-- `add32 rD, imm` (R141) -/
  | add32K (dst : Reg) (imm : BitVec 32)
  /-- `add32 rD, rS` (R141) -/
  | add32X (dst src : Reg)
  /-- `sub32 rD, imm` (R142) -/
  | sub32K (dst : Reg) (imm : BitVec 32)
  /-- `sub32 rD, rS` (R142) -/
  | sub32X (dst src : Reg)
  /-- `mul32 rD, imm` (R143) -/
  | mul32K (dst : Reg) (imm : BitVec 32)
  /-- `mul32 rD, rS` (R143) -/
  | mul32X (dst src : Reg)
  /-- `div32 rD, imm` (R144) -/
  | div32K (dst : Reg) (imm : BitVec 32)
  /-- `div32 rD, rS` (R144) -/
  | div32X (dst src : Reg)
  /-- `or32 rD, imm` (R145) -/
  | or32K (dst : Reg) (imm : BitVec 32)
  /-- `or32 rD, rS` (R145) -/
  | or32X (dst src : Reg)
  /-- `and32 rD, imm` (R146) -/
  | and32K (dst : Reg) (imm : BitVec 32)
  /-- `and32 rD, rS` (R146) -/
  | and32X (dst src : Reg)
  /-- `lsh32 rD, imm` (R147) -/
  | lsh32K (dst : Reg) (imm : BitVec 32)
  /-- `lsh32 rD, rS` (R147) -/
  | lsh32X (dst src : Reg)
  /-- `rsh32 rD, imm` (R148) -/
  | rsh32K (dst : Reg) (imm : BitVec 32)
  /-- `rsh32 rD, rS` (R148) -/
  | rsh32X (dst src : Reg)
  /-- `neg32 rD` (R149, K form) -/
  | neg32K (dst : Reg)
  /-- `neg32.x rD` (R149, X form) -/
  | neg32X (dst : Reg)
  /-- `mod32 rD, imm` (R150) -/
  | mod32K (dst : Reg) (imm : BitVec 32)
  /-- `mod32 rD, rS` (R150) -/
  | mod32X (dst src : Reg)
  /-- `xor32 rD, imm` (R151) -/
  | xor32K (dst : Reg) (imm : BitVec 32)
  /-- `xor32 rD, rS` (R151) -/
  | xor32X (dst src : Reg)
  /-- `mov32 rD, imm` (R152) -/
  | mov32K (dst : Reg) (imm : BitVec 32)
  /-- `mov32 rD, rS` (R152) -/
  | mov32X (dst src : Reg)
  /-- `arsh32 rD, imm` (R153) -/
  | arsh32K (dst : Reg) (imm : BitVec 32)
  /-- `arsh32 rD, rS` (R153) -/
  | arsh32X (dst src : Reg)
  -- endian-swap unit, class 4 with code 0xd (43_endian_swap)
  /-- `le16 rD` (R181) -/
  | le16 (dst : Reg)
  /-- `le32 rD` (R181) -/
  | le32 (dst : Reg)
  /-- `le64 rD` (R181) -/
  | le64 (dst : Reg)
  /-- `be16 rD` (R182) -/
  | be16 (dst : Reg)
  /-- `be32 rD` (R182) -/
  | be32 (dst : Reg)
  /-- `be64 rD` (R182) -/
  | be64 (dst : Reg)
  -- branch unit, class 5 (44_branch)
  /-- `ja +off` (R192, K form) -/
  | jaK (off : BitVec 16)
  /-- `ja.x +off` (R192, X form) -/
  | jaX (off : BitVec 16)
  /-- `jeq rD, imm, +off` (R193) -/
  | jeqK (dst : Reg) (imm : BitVec 32) (off : BitVec 16)
  /-- `jeq rD, rS, +off` (R193) -/
  | jeqX (dst src : Reg) (off : BitVec 16)
  /-- `jgt rD, imm, +off` (R194) -/
  | jgtK (dst : Reg) (imm : BitVec 32) (off : BitVec 16)
  /-- `jgt rD, rS, +off` (R194) -/
  | jgtX (dst src : Reg) (off : BitVec 16)
  /-- `jge rD, imm, +off` (R195) -/
  | jgeK (dst : Reg) (imm : BitVec 32) (off : BitVec 16)
  /-- `jge rD, rS, +off` (R195) -/
  | jgeX (dst src : Reg) (off : BitVec 16)
  /-- `jset rD, imm, +off` (R198) -/
  | jsetK (dst : Reg) (imm : BitVec 32) (off : BitVec 16)
  /-- `jset rD, rS, +off` (R198) -/
  | jsetX (dst src : Reg) (off : BitVec 16)
  /-- `jne rD, imm, +off` (R199) -/
  | jneK (dst : Reg) (imm : BitVec 32) (off : BitVec 16)
  /-- `jne rD, rS, +off` (R199) -/
  | jneX (dst src : Reg) (off : BitVec 16)
  /-- `jlt rD, imm, +off` (R196) -/
  | jltK (dst : Reg) (imm : BitVec 32) (off : BitVec 16)
  /-- `jlt rD, rS, +off` (R196) -/
  | jltX (dst src : Reg) (off : BitVec 16)
  /-- `jle rD, imm, +off` (R197) -/
  | jleK (dst : Reg) (imm : BitVec 32) (off : BitVec 16)
  /-- `jle rD, rS, +off` (R197) -/
  | jleX (dst src : Reg) (off : BitVec 16)
  deriving DecidableEq, Repr

end Sys2Proof
end

