-- ==== Sys2Proof/Config.lean ====
section
/-! DEFINITION. What the spec leaves to a parameter (00_scope R9) and the free values. The parameters are plain data,
carried in the state's field `params` and never written by a step, so a statement about every state holds for every
value they admit (log entry 1). IP_WIDTH and CYCLE_WIDTH are 64 (R9, log entries 13 and 14); IMEM_LEN and DMEM_LEN are
the sizes of the state's two memories. -/

namespace Sys2Proof

/-- ALU64_ILLEGAL_POLICY: how an undefined 64-bit ALU operation is handled (41_alu64 R114, 92 D3). -/
inductive IllegalPolicy where
  | graceful | fatal
  deriving DecidableEq, Repr

/-- SHIFT_AMOUNT_POLICY: a shift amount at or beyond the operand width (41_alu64 R115, 42_alu32 R155, 92 D5). -/
inductive ShiftPolicy where
  | mask | draw
  deriving DecidableEq, Repr

/-- ARSH_MODE: the arithmetic shift right algorithm (41_alu64 R113, 42_alu32 R153, 92 D6). -/
inductive ArshMode where
  | signBitOnly | signExtend
  deriving DecidableEq, Repr

/-- NEG_MODE: the meaning of "bitwise-negate" (41_alu64 R109, 42_alu32 R149, 92 D7). -/
inductive NegMode where
  | complement | twosComplement
  deriving DecidableEq, Repr

/-- HOST_ORDER: the byte order the endian-swap unit converts from (43_endian_swap R184, 92 D8). -/
inductive HostOrder where
  | little | big
  deriving DecidableEq, Repr

/-- ALU_OP_MAP: the code of each ALU operation (30_encoding R79, 92 D1). -/
structure AluOpMap where
  add : BitVec 4
  sub : BitVec 4
  mul : BitVec 4
  div : BitVec 4
  or : BitVec 4
  and : BitVec 4
  lsh : BitVec 4
  rsh : BitVec 4
  neg : BitVec 4
  mod : BitVec 4
  xor : BitVec 4
  mov : BitVec 4
  arsh : BitVec 4
  deriving DecidableEq, Repr

/-- JMP_OP_MAP: the code of each branch condition (30_encoding R80, 92 D2). -/
structure JmpOpMap where
  ja : BitVec 4
  jeq : BitVec 4
  jgt : BitVec 4
  jge : BitVec 4
  jset : BitVec 4
  jne : BitVec 4
  jlt : BitVec 4
  jle : BitVec 4
  deriving DecidableEq, Repr

/-- The two code maps together: all that decoding depends on beside the word. -/
structure OpMaps where
  alu : AluOpMap
  jmp : JmpOpMap
  deriving DecidableEq, Repr

/-- The open parameters of 00_scope R9 that a step reads. -/
structure Params where
  alu64IllegalPolicy : IllegalPolicy
  shiftAmountPolicy : ShiftPolicy
  arshMode : ArshMode
  negMode : NegMode
  hostOrder : HostOrder
  opMaps : OpMaps
  deriving DecidableEq, Repr

/-- The unconstrained 64-bit value a shift by 64 or more writes under SHIFT_AMOUNT_POLICY = DRAW (41_alu64 R115), one for
each draw. FREE VALUE: it has no body, nothing can be proved of it (log entry 6). -/
opaque Config.draw64 : Nat → Word

/-- The unconstrained 32-bit value a 32-bit shift by 32 or more writes under DRAW (42_alu32 R155), one for each draw.
FREE VALUE: it has no body (log entry 6). -/
opaque Config.draw32 : Nat → Half

end Sys2Proof
end

