-- ==== Sys2Proof/Decode.lean ====
section
/-! DEFINITION. The Instruction Decoder unit (spec 30_encoding R73), the classification of a decoded word into an
instruction or a named rejection (R75, R79 to R83, 45_execution_engine R214), and, after it, the encoder (R86). The
codes of the operations come from the parameters ALU_OP_MAP and JMP_OP_MAP (00_scope R9). -/

namespace Sys2Proof

/-- The default ALU_OP_MAP: the classic eBPF codes (30_encoding R79, 92 D1; DESIGN CHOICE of the spec, log entry 2). -/
def defaultAluOpMap : AluOpMap :=
  { add := 0x0, sub := 0x1, mul := 0x2, div := 0x3, or := 0x4, and := 0x5, lsh := 0x6, rsh := 0x7, neg := 0x8,
    mod := 0x9, xor := 0xa, mov := 0xb, arsh := 0xc }

/-- The default JMP_OP_MAP: the classic eBPF codes (30_encoding R80, 92 D2; DESIGN CHOICE of the spec, log entry 3). -/
def defaultJmpOpMap : JmpOpMap :=
  { ja := 0x0, jeq := 0x1, jgt := 0x2, jge := 0x3, jset := 0x4, jne := 0x5, jlt := 0xa, jle := 0xb }

/-- Both default code maps. -/
def defaultOpMaps : OpMaps := { alu := defaultAluOpMap, jmp := defaultJmpOpMap }

/-- The code an ALU operation map gives an operation. -/
def AluOpMap.code (m : AluOpMap) : AluOp → BitVec 4
  | .add => m.add
  | .sub => m.sub
  | .mul => m.mul
  | .div => m.div
  | .or => m.or
  | .and => m.and
  | .lsh => m.lsh
  | .rsh => m.rsh
  | .neg => m.neg
  | .mod => m.mod
  | .xor => m.xor
  | .mov => m.mov
  | .arsh => m.arsh

/-- The code a branch condition map gives a condition. -/
def JmpOpMap.code (m : JmpOpMap) : JmpCond → BitVec 4
  | .ja => m.ja
  | .jeq => m.jeq
  | .jgt => m.jgt
  | .jge => m.jge
  | .jset => m.jset
  | .jne => m.jne
  | .jlt => m.jlt
  | .jle => m.jle

/-- The ALU operations in the source's listing order (30_encoding R79). -/
def allAluOps : List AluOp :=
  [.add, .sub, .mul, .div, .or, .and, .lsh, .rsh, .neg, .mod, .xor, .mov, .arsh]

/-- The branch conditions in code order (30_encoding R80). -/
def allJmpConds : List JmpCond :=
  [.ja, .jeq, .jgt, .jge, .jset, .jne, .jlt, .jle]

/-- The operation an ALU code selects, if any (30_encoding R79). -/
def AluOpMap.find (m : AluOpMap) (c : BitVec 4) : Option AluOp :=
  allAluOps.find? (fun o => m.code o == c)

/-- The condition a branch code selects, if any (30_encoding R80). -/
def JmpOpMap.find (m : JmpOpMap) (c : BitVec 4) : Option JmpCond :=
  allJmpConds.find? (fun o => m.code o == c)

/-- `I.cls`, the instruction class (30_encoding R74). -/
def Fields.cls (f : Fields) : BitVec 3 := f.op.extractLsb' 0 3

/-- `I.mode`, the operand mode: false is the immediate (K) form, true the register (X) form (30_encoding R74). -/
def Fields.mode (f : Fields) : Bool := f.op.getLsbD 3

/-- `I.code`, the operation or condition code (30_encoding R74). -/
def Fields.code (f : Fields) : BitVec 4 := f.op.extractLsb' 4 4

/-- The destination register's number (30_encoding R78). -/
def Fields.dstReg (f : Fields) : Reg := f.dst.toFin

/-- The source register's number (30_encoding R78). -/
def Fields.srcReg (f : Fields) : Reg := f.src.toFin

/-- The little-endian word of the first eight bytes of a slice (30_encoding R71, 20_memory R54). -/
def leWord (slice : List Byte) : Word :=
  slice.getD 7 0 ++ slice.getD 6 0 ++ slice.getD 5 0 ++ slice.getD 4 0 ++
    slice.getD 3 0 ++ slice.getD 2 0 ++ slice.getD 1 0 ++ slice.getD 0 0

/-- The eight bytes of a word, least significant first (30_encoding R86). -/
def leBytes (w : Word) : List Byte :=
  [w.extractLsb' 0 8, w.extractLsb' 8 8, w.extractLsb' 16 8, w.extractLsb' 24 8,
    w.extractLsb' 32 8, w.extractLsb' 40 8, w.extractLsb' 48 8, w.extractLsb' 56 8]

/-- The five fields of a word (30_encoding R72; the canonical nibble order, R85). -/
def fieldsOfWord (w : Word) : Fields :=
  { imm := w.extractLsb' 0 32, off := w.extractLsb' 32 16, dst := w.extractLsb' 48 4, src := w.extractLsb' 52 4,
    op := w.extractLsb' 56 8 }

/-- The decoder unit: the fields of the first eight bytes of a slice, or `none` (MalformedBuffer) where the slice's
length is not a positive multiple of 8 (30_encoding R73, 90 C10). -/
def decodeSlice (slice : List Byte) : Option Fields :=
  if slice.length = 0 ∨ slice.length % 8 ≠ 0 then none else some (fieldsOfWord (leWord slice))

/-- Why bytes are no instruction: the decoder's own verdict, and the five illegal encodings (a) to (e) of
30_encoding R83, each under its own name because the machine treats them differently (60_exceptions R241). -/
inductive Reject where
  /-- the slice's length is no positive multiple of 8 (30_encoding R73) -/
  | malformedBuffer
  /-- (a) a class other than 4, 5 and 7 (45_execution_engine R215) -/
  | illegalClass
  /-- (b) an undefined ALU64 operation (41_alu64 R114) -/
  | undefinedAlu64
  /-- (c) an undefined ALU32 operation (42_alu32 R154) -/
  | undefinedAlu32
  /-- (d) an endian-swap width other than 16, 32 and 64 (43_endian_swap R183) -/
  | illegalWidth
  /-- (e) an undefined branch condition (44_branch R201) -/
  | undefinedCondition
  deriving DecidableEq, Repr

/-- The ALU64 instruction of an operation, a mode and operand fields (30_encoding R81, R82). -/
def alu64Instr (op : AluOp) (mode : Bool) (dst src : Reg) (imm : BitVec 32) : Instr :=
  match op, mode with
  | .add, false => .addK dst imm
  | .add, true => .addX dst src
  | .sub, false => .subK dst imm
  | .sub, true => .subX dst src
  | .mul, false => .mulK dst imm
  | .mul, true => .mulX dst src
  | .div, false => .divK dst imm
  | .div, true => .divX dst src
  | .or, false => .orK dst imm
  | .or, true => .orX dst src
  | .and, false => .andK dst imm
  | .and, true => .andX dst src
  | .lsh, false => .lshK dst imm
  | .lsh, true => .lshX dst src
  | .rsh, false => .rshK dst imm
  | .rsh, true => .rshX dst src
  | .neg, false => .negK dst
  | .neg, true => .negX dst
  | .mod, false => .modK dst imm
  | .mod, true => .modX dst src
  | .xor, false => .xorK dst imm
  | .xor, true => .xorX dst src
  | .mov, false => .movK dst imm
  | .mov, true => .movX dst src
  | .arsh, false => .arshK dst imm
  | .arsh, true => .arshX dst src

/-- The ALU32 instruction of an operation, a mode and operand fields (30_encoding R81, R82). -/
def alu32Instr (op : AluOp) (mode : Bool) (dst src : Reg) (imm : BitVec 32) : Instr :=
  match op, mode with
  | .add, false => .add32K dst imm
  | .add, true => .add32X dst src
  | .sub, false => .sub32K dst imm
  | .sub, true => .sub32X dst src
  | .mul, false => .mul32K dst imm
  | .mul, true => .mul32X dst src
  | .div, false => .div32K dst imm
  | .div, true => .div32X dst src
  | .or, false => .or32K dst imm
  | .or, true => .or32X dst src
  | .and, false => .and32K dst imm
  | .and, true => .and32X dst src
  | .lsh, false => .lsh32K dst imm
  | .lsh, true => .lsh32X dst src
  | .rsh, false => .rsh32K dst imm
  | .rsh, true => .rsh32X dst src
  | .neg, false => .neg32K dst
  | .neg, true => .neg32X dst
  | .mod, false => .mod32K dst imm
  | .mod, true => .mod32X dst src
  | .xor, false => .xor32K dst imm
  | .xor, true => .xor32X dst src
  | .mov, false => .mov32K dst imm
  | .mov, true => .mov32X dst src
  | .arsh, false => .arsh32K dst imm
  | .arsh, true => .arsh32X dst src

/-- The endian-swap instruction of a mode and a width, the width being the whole 32-bit immediate
(43_endian_swap R180, R183). -/
def endianInstr (mode : Bool) (width : BitVec 32) (dst : Reg) : Option Instr :=
  if width = 16 then some (if mode then .be16 dst else .le16 dst)
  else if width = 32 then some (if mode then .be32 dst else .le32 dst)
  else if width = 64 then some (if mode then .be64 dst else .le64 dst)
  else none

/-- The branch instruction of a condition, a mode and operand fields (30_encoding R81, R82). -/
def branchInstr (c : JmpCond) (mode : Bool) (dst src : Reg) (imm : BitVec 32) (off : BitVec 16) : Instr :=
  match c, mode with
  | .ja, false => .jaK off
  | .ja, true => .jaX off
  | .jeq, false => .jeqK dst imm off
  | .jeq, true => .jeqX dst src off
  | .jgt, false => .jgtK dst imm off
  | .jgt, true => .jgtX dst src off
  | .jge, false => .jgeK dst imm off
  | .jge, true => .jgeX dst src off
  | .jset, false => .jsetK dst imm off
  | .jset, true => .jsetX dst src off
  | .jne, false => .jneK dst imm off
  | .jne, true => .jneX dst src off
  | .jlt, false => .jltK dst imm off
  | .jlt, true => .jltX dst src off
  | .jle, false => .jleK dst imm off
  | .jle, true => .jleX dst src off

/-- Classify decoded fields: the instruction they are, or the illegal encoding they are (45_execution_engine R214,
30_encoding R83). Fields a family does not read are dropped (R82, R84). -/
def classify (m : OpMaps) (f : Fields) : Except Reject Instr :=
  if f.cls = 7 then
    match m.alu.find f.code with
    | some op => .ok (alu64Instr op f.mode f.dstReg f.srcReg f.imm)
    | none => .error .undefinedAlu64
  else if f.cls = 4 then
    if f.code = 0xd then
      match endianInstr f.mode f.imm f.dstReg with
      | some i => .ok i
      | none => .error .illegalWidth
    else
      match m.alu.find f.code with
      | some op => .ok (alu32Instr op f.mode f.dstReg f.srcReg f.imm)
      | none => .error .undefinedAlu32
  else if f.cls = 5 then
    match m.jmp.find f.code with
    | some c => .ok (branchInstr c f.mode f.dstReg f.srcReg f.imm f.off)
    | none => .error .undefinedCondition
  else .error .illegalClass

/-- Decode a slice of instruction memory: total on any bytes, a rejection says by name what is wrong. -/
def decode (m : OpMaps) (slice : List Byte) : Except Reject Instr :=
  match decodeSlice slice with
  | none => .error .malformedBuffer
  | some f => classify m f

/-- The bytes of an opcode-table word: `nbits` bits of `w`, every bit above them 0, eight bytes as instruction memory
stores them (20_memory R54). -/
def tableBytes (nbits w : Nat) : List Byte := leBytes (BitVec.ofNat 64 (w % 2 ^ nbits))

/-- The instruction this decoder reads from a word of spec/opcode_table.json, under the default code maps. -/
def decodeTableWord (nbits w : Nat) : Option Instr :=
  match decode defaultOpMaps (tableBytes nbits w) with
  | .ok i => some i
  | .error _ => none

/-- Encode fields as a word (30_encoding R86). -/
def wordOfFields (f : Fields) : Word := f.op ++ f.src ++ f.dst ++ f.off ++ f.imm

/-- An opcode byte from its three parts (30_encoding R74). -/
def opByte (cls : BitVec 3) (mode : Bool) (code : BitVec 4) : BitVec 8 := code ++ BitVec.ofBool mode ++ cls

/-- Fields of an immediate (K) form; fields the form does not show are 0 (30_encoding R88). -/
def fieldsK (cls : BitVec 3) (code : BitVec 4) (dst : Reg) (imm : BitVec 32) (off : BitVec 16) : Fields :=
  { imm := imm, off := off, dst := BitVec.ofFin dst, src := 0, op := opByte cls false code }

/-- Fields of a register (X) form; fields the form does not show are 0 (30_encoding R88). -/
def fieldsX (cls : BitVec 3) (code : BitVec 4) (dst src : Reg) (off : BitVec 16) : Fields :=
  { imm := 0, off := off, dst := BitVec.ofFin dst, src := BitVec.ofFin src, op := opByte cls true code }

/-- Fields of an endian-swap instruction: the mode bit picks the byte order, the immediate holds the width
(43_endian_swap R180). -/
def fieldsEnd (mode : Bool) (width : BitVec 32) (dst : Reg) : Fields :=
  { imm := width, off := 0, dst := BitVec.ofFin dst, src := 0, op := opByte 4 mode 0xd }

/-- The fields of an instruction under a pair of code maps (30_encoding R81, R82). -/
def Instr.fields (m : OpMaps) : Instr → Fields
  | .addK dst imm => fieldsK 7 m.alu.add dst imm 0
  | .addX dst src => fieldsX 7 m.alu.add dst src 0
  | .subK dst imm => fieldsK 7 m.alu.sub dst imm 0
  | .subX dst src => fieldsX 7 m.alu.sub dst src 0
  | .mulK dst imm => fieldsK 7 m.alu.mul dst imm 0
  | .mulX dst src => fieldsX 7 m.alu.mul dst src 0
  | .divK dst imm => fieldsK 7 m.alu.div dst imm 0
  | .divX dst src => fieldsX 7 m.alu.div dst src 0
  | .orK dst imm => fieldsK 7 m.alu.or dst imm 0
  | .orX dst src => fieldsX 7 m.alu.or dst src 0
  | .andK dst imm => fieldsK 7 m.alu.and dst imm 0
  | .andX dst src => fieldsX 7 m.alu.and dst src 0
  | .lshK dst imm => fieldsK 7 m.alu.lsh dst imm 0
  | .lshX dst src => fieldsX 7 m.alu.lsh dst src 0
  | .rshK dst imm => fieldsK 7 m.alu.rsh dst imm 0
  | .rshX dst src => fieldsX 7 m.alu.rsh dst src 0
  | .negK dst => fieldsK 7 m.alu.neg dst 0 0
  | .negX dst => fieldsX 7 m.alu.neg dst 0 0
  | .modK dst imm => fieldsK 7 m.alu.mod dst imm 0
  | .modX dst src => fieldsX 7 m.alu.mod dst src 0
  | .xorK dst imm => fieldsK 7 m.alu.xor dst imm 0
  | .xorX dst src => fieldsX 7 m.alu.xor dst src 0
  | .movK dst imm => fieldsK 7 m.alu.mov dst imm 0
  | .movX dst src => fieldsX 7 m.alu.mov dst src 0
  | .arshK dst imm => fieldsK 7 m.alu.arsh dst imm 0
  | .arshX dst src => fieldsX 7 m.alu.arsh dst src 0
  | .add32K dst imm => fieldsK 4 m.alu.add dst imm 0
  | .add32X dst src => fieldsX 4 m.alu.add dst src 0
  | .sub32K dst imm => fieldsK 4 m.alu.sub dst imm 0
  | .sub32X dst src => fieldsX 4 m.alu.sub dst src 0
  | .mul32K dst imm => fieldsK 4 m.alu.mul dst imm 0
  | .mul32X dst src => fieldsX 4 m.alu.mul dst src 0
  | .div32K dst imm => fieldsK 4 m.alu.div dst imm 0
  | .div32X dst src => fieldsX 4 m.alu.div dst src 0
  | .or32K dst imm => fieldsK 4 m.alu.or dst imm 0
  | .or32X dst src => fieldsX 4 m.alu.or dst src 0
  | .and32K dst imm => fieldsK 4 m.alu.and dst imm 0
  | .and32X dst src => fieldsX 4 m.alu.and dst src 0
  | .lsh32K dst imm => fieldsK 4 m.alu.lsh dst imm 0
  | .lsh32X dst src => fieldsX 4 m.alu.lsh dst src 0
  | .rsh32K dst imm => fieldsK 4 m.alu.rsh dst imm 0
  | .rsh32X dst src => fieldsX 4 m.alu.rsh dst src 0
  | .neg32K dst => fieldsK 4 m.alu.neg dst 0 0
  | .neg32X dst => fieldsX 4 m.alu.neg dst 0 0
  | .mod32K dst imm => fieldsK 4 m.alu.mod dst imm 0
  | .mod32X dst src => fieldsX 4 m.alu.mod dst src 0
  | .xor32K dst imm => fieldsK 4 m.alu.xor dst imm 0
  | .xor32X dst src => fieldsX 4 m.alu.xor dst src 0
  | .mov32K dst imm => fieldsK 4 m.alu.mov dst imm 0
  | .mov32X dst src => fieldsX 4 m.alu.mov dst src 0
  | .arsh32K dst imm => fieldsK 4 m.alu.arsh dst imm 0
  | .arsh32X dst src => fieldsX 4 m.alu.arsh dst src 0
  | .le16 dst => fieldsEnd false 16 dst
  | .le32 dst => fieldsEnd false 32 dst
  | .le64 dst => fieldsEnd false 64 dst
  | .be16 dst => fieldsEnd true 16 dst
  | .be32 dst => fieldsEnd true 32 dst
  | .be64 dst => fieldsEnd true 64 dst
  | .jaK off => fieldsK 5 m.jmp.ja 0 0 off
  | .jaX off => fieldsX 5 m.jmp.ja 0 0 off
  | .jeqK dst imm off => fieldsK 5 m.jmp.jeq dst imm off
  | .jeqX dst src off => fieldsX 5 m.jmp.jeq dst src off
  | .jgtK dst imm off => fieldsK 5 m.jmp.jgt dst imm off
  | .jgtX dst src off => fieldsX 5 m.jmp.jgt dst src off
  | .jgeK dst imm off => fieldsK 5 m.jmp.jge dst imm off
  | .jgeX dst src off => fieldsX 5 m.jmp.jge dst src off
  | .jsetK dst imm off => fieldsK 5 m.jmp.jset dst imm off
  | .jsetX dst src off => fieldsX 5 m.jmp.jset dst src off
  | .jneK dst imm off => fieldsK 5 m.jmp.jne dst imm off
  | .jneX dst src off => fieldsX 5 m.jmp.jne dst src off
  | .jltK dst imm off => fieldsK 5 m.jmp.jlt dst imm off
  | .jltX dst src off => fieldsX 5 m.jmp.jlt dst src off
  | .jleK dst imm off => fieldsK 5 m.jmp.jle dst imm off
  | .jleX dst src off => fieldsX 5 m.jmp.jle dst src off

/-- The word of an instruction (30_encoding R86). -/
def encodeWord (m : OpMaps) (i : Instr) : Word := wordOfFields (i.fields m)

/-- The eight bytes of an instruction as instruction memory holds them (30_encoding R86). -/
def encode (m : OpMaps) (i : Instr) : List Byte := leBytes (encodeWord m i)

end Sys2Proof
end

