-- ==== Sys2Proof/Machine/Defaults.lean ====
section
/-! DEFINITION. The values the machine of `State.reset` is built with: the spec's default for each parameter of
00_scope R9, and the two memory sizes, which are inputs of reset (70_reset_and_hazards R270). All are choices, none a
statement of the source (log entries 1 to 5, 8 to 10 and 20). -/

namespace Sys2Proof.Machine

/-- The defaults of 00_scope R9 (92 D1, D2, D3, D5, D6, D7, D8; DESIGN CHOICE of the spec). -/
def defaultParams : Params :=
  { alu64IllegalPolicy := .graceful
    shiftAmountPolicy := .mask
    arshMode := .signBitOnly
    negMode := .complement
    hostOrder := .little
    opMaps := defaultOpMaps }

/-- IMEM_LEN of `State.reset`: no program is loaded (DESIGN CHOICE, log entry 20). -/
def defaultImemLen : Nat := 0

/-- DMEM_LEN of `State.reset` (DESIGN CHOICE, log entry 20). -/
def defaultDmemLen : Nat := 0

end Sys2Proof.Machine
end

