-- ==== Sys2Proof/Machine/State.lean ====
section
/-! DEFINITION. The machine state as plain data: the seven components of spec 10_state R20, and three fields that are
the model's own (`params`, `draws`, `result`), said as such below and in log entries 1, 7 and 16. The state after reset
follows 70_reset_and_hazards R271. -/

namespace Sys2Proof.Machine

/-- The three sticky status flags (10_state R31, R32). -/
structure Status where
  /-- `HALTED` -/
  halted : Bool
  /-- `ILLEGAL_INSTRUCTION` -/
  illegalInstruction : Bool
  /-- `DIVIDE_BY_ZERO` -/
  divideByZero : Bool
  deriving DecidableEq, Repr

/-- The two kinds of fault an instruction or the engine records (60_exceptions R241). -/
inductive FaultKind where
  | divideByZero | illegalInstruction
  deriving DecidableEq, Repr

/-- The result codes of a step (45_execution_engine R222). -/
inductive StepResult where
  | success | machineHalted | fetchFailed | illegalInstruction | divideByZero | aborted
  deriving DecidableEq, Repr

/-- A byte memory (20_memory R50): `size` bytes at offsets 0 to `size` - 1. `cells` lists the bytes that are not 0x00 at
strictly rising offsets below `size`; an offset below `size` that is not listed holds 0x00, which is what reset leaves
(70_reset_and_hazards R271). An offset at or above `size` does not exist. -/
structure Memory where
  size : Nat
  cells : List Host.Cell
  deriving DecidableEq, Repr

/-- The machine (10_state R20). -/
structure State where
  /-- `x[0..15]`, the general registers (10_state R21) -/
  x : Vector Word 16
  /-- `ip`, the instruction pointer, a byte offset into `imem` (10_state R25) -/
  ip : Word
  /-- `status` (10_state R31) -/
  status : Status
  /-- `cycle_count` (10_state R36) -/
  cycleCount : Word
  /-- `continuous_mode` (10_state R35) -/
  continuousMode : Bool
  /-- `imem`; its size is IMEM_LEN (10_state R39) -/
  imem : Memory
  /-- `dmem`; its size is DMEM_LEN (10_state R40) -/
  dmem : Memory
  /-- The MODEL's own field: the parameters of 00_scope R9; no step writes it (log entry 1). -/
  params : Params
  /-- The MODEL's own field: how many free values the machine has drawn (log entry 7). -/
  draws : Nat
  /-- The MODEL's own field: the result code of the last step, `none` before any (45_execution_engine R222, log
  entry 16). -/
  result : Option StepResult
  deriving DecidableEq, Repr

/-- Why a step has no next state. -/
inductive Fault where
  /-- Raised by the engine's start of a step, from a state a step has left with the outcome Aborted under
  ALU64_ILLEGAL_POLICY = FATAL: "The model has no later step from an Aborted state" (45_execution_engine R220). Safe: the
  spec gives no step there. -/
  | aborted
  deriving DecidableEq, Repr

/-- Why the model gives an instruction no meaning. -/
inductive Refusal where
  /-- Raised by an arm of `exec` whose instruction has no meaning yet. Safe. No arm raises it now. -/
  | notModelled (mnemonic : String)
  deriving DecidableEq, Repr

/-- The state `initialize(imemLen, dmemLen)` leaves in a machine with the given parameters (70_reset_and_hazards R270,
R271): everything zero, both memories zero-filled. `draws` and `result`, the model's own, start at 0 and `none`. -/
def State.initialized (params : Params) (imemLen dmemLen : Nat) : State :=
  { x := Vector.replicate 16 0
    ip := 0
    status := { halted := false, illegalInstruction := false, divideByZero := false }
    cycleCount := 0
    continuousMode := false
    imem := { size := imemLen, cells := [] }
    dmem := { size := dmemLen, cells := [] }
    params := params
    draws := 0
    result := none }

/-- The machine right after reset (70_reset_and_hazards R271), with the spec's default parameters and with no bytes of
instruction or data memory, since reset takes both sizes as inputs (log entry 20). -/
def State.reset : State := State.initialized defaultParams defaultImemLen defaultDmemLen

end Sys2Proof.Machine
end

