-- ==== Sys2Proof/Machine/Flags.lean ====
section
/-! DEFINITION. The status flags: the only operations on them set a flag (spec 10_state R32, R33), and the status word a
host reads (R31). No instruction computes a condition flag (10_state R34, 41_alu64 R116, 42_alu32 R156). -/

namespace Sys2Proof.Machine

/-- Set HALTED (10_state R33). -/
def Status.halt (st : Status) : Status := { st with halted := true }

/-- Set the flag of a fault kind, and HALTED (60_exceptions R241, R243). -/
def Status.raise (st : Status) : FaultKind → Status
  | .divideByZero => { st with divideByZero := true, halted := true }
  | .illegalInstruction => { st with illegalInstruction := true, halted := true }

/-- `status` read as a word: bit 0 HALTED, bit 1 ILLEGAL_INSTRUCTION, bit 2 DIVIDE_BY_ZERO, every other bit 0
(10_state R31, 92 D13; DESIGN CHOICE of the spec, log entry 15). -/
def Status.word (st : Status) : Word :=
  (BitVec.ofBool st.divideByZero ++ BitVec.ofBool st.illegalInstruction ++ BitVec.ofBool st.halted).setWidth 64

/-- The result code a fault kind gives the step (60_exceptions R241). -/
def FaultKind.result : FaultKind → StepResult
  | .divideByZero => .divideByZero
  | .illegalInstruction => .illegalInstruction

end Sys2Proof.Machine
end

