-- ==== Sys2Proof/Machine/Ops.lean ====
section
/-! DEFINITION. The named operations over memory and registers, and taking a fault, the one shared operation every
faulting instruction and the engine use (spec 60_exceptions R243). There is no return from a fault (60_exceptions R247). -/

namespace Sys2Proof.Machine

/-- The byte a list of cells holds at an offset, 0x00 where none is listed (70_reset_and_hazards R271). -/
def lookupCell (a : Nat) : List Host.Cell → Byte
  | [] => 0
  | (k, b) :: rest => if k = a then b else lookupCell a rest

/-- Write a byte into a list of cells, keeping it canonical: a zero byte is not listed. -/
def setCell (a : Nat) (v : Byte) : List Host.Cell → List Host.Cell
  | [] => if v = 0 then [] else [(a, v)]
  | (k, b) :: rest =>
    if a < k then (if v = 0 then (k, b) :: rest else (a, v) :: (k, b) :: rest)
    else if a = k then (if v = 0 then rest else (a, v) :: rest)
    else (k, b) :: setCell a v rest

/-- A list of cells is canonical from offset `lo` up to a size: strictly rising, in range, no zero byte. -/
def cellsWf (size lo : Nat) : List Host.Cell → Bool
  | [] => true
  | (k, b) :: rest => decide (lo ≤ k) && decide (k < size) && b != 0 && cellsWf size (k + 1) rest

/-- The memory's cells are in their one canonical form. -/
def Memory.wf (m : Memory) : Bool := cellsWf m.size 0 m.cells

/-- Read one byte: `none` where the offset does not exist (20_memory R50). -/
def Memory.readByte (m : Memory) (a : Nat) : Option Byte :=
  if a < m.size then some (lookupCell a m.cells) else none

/-- Write one byte; an offset that does not exist is left alone. No instruction uses it, only the host's load (20_memory
R55, R59). -/
def Memory.writeByte (m : Memory) (a : Nat) (v : Byte) : Memory :=
  if a < m.size then { m with cells := setCell a v m.cells } else m

/-- Write consecutive bytes from an offset on. -/
def Memory.writeBytes (m : Memory) (a : Nat) : List Byte → Memory
  | [] => m
  | v :: rest => (m.writeByte a v).writeBytes (a + 1) rest

/-- `IMemRead(a, n)`: the n bytes at offsets a to a + n - 1 (00_scope R13); an offset that does not exist reads 0x00,
and no rule reads one. -/
def Memory.readBytes (m : Memory) (a : Nat) : Nat → List Byte
  | 0 => []
  | n + 1 => (m.readByte a).getD 0 :: m.readBytes (a + 1) n

/-- A memory of a size, all 0x00 (70_reset_and_hazards R271). -/
def Memory.zeroed (size : Nat) : Memory := { size := size, cells := [] }

/-- `x[r]` (00_scope R13). -/
def State.getReg (s : State) (r : Reg) : Word := s.x[r.val]

/-- `x[r] <- v` (00_scope R13): no register is hardwired (10_state R22). -/
def State.setReg (s : State) (r : Reg) (v : Word) : State := { s with x := s.x.set r.val v }

/-- `result <- code` (00_scope R13). -/
def State.report (s : State) (r : StepResult) : State := { s with result := some r }

/-- TAKE A FAULT: `raise Fault(k)` sets the flag of kind k and HALTED, leaves every general register unchanged and makes
k the step's result code (60_exceptions R243). Nothing is saved and control goes nowhere (R240). -/
def State.raiseFault (s : State) (k : FaultKind) : State :=
  ({ s with status := s.status.raise k }).report k.result

/-- A unit has completed its instruction without a fault (45_execution_engine R222). -/
def succeed (s : State) : Host.Outcome State Fault Refusal := .next (s.report .success)

/-- Write a 64-bit result and complete (41_alu64 R116). -/
def writeResult (dst : Reg) (v : Word) (s : State) : Host.Outcome State Fault Refusal :=
  succeed (s.setReg dst v)

/-- `write32(r)`: write a 32-bit result zero-extended and complete (42_alu32 R140). -/
def writeResult32 (dst : Reg) (r : Half) (s : State) : Host.Outcome State Fault Refusal :=
  writeResult dst (r.setWidth 64) s

/-- Count one draw of a free value (log entry 7). -/
def State.countDraw (s : State) : State := { s with draws := s.draws + 1 }

end Sys2Proof.Machine
end

