-- ==== Sys2Proof/Machine/Operands.lean ====
section
/-! DEFINITION. The operand forms (spec 41_alu64 R100, 42_alu32 R140), the shift amounts (R115, R155), and the shared
computations of the units: shifts, division, negation, byte reversal, branches. -/

namespace Sys2Proof.Machine

/-- RHS64 in the K form: the immediate zero-extended (41_alu64 R100, 30_encoding R76). -/
def rhsImm (imm : BitVec 32) : Word := imm.setWidth 64

/-- RHS64 in the X form: the source register (41_alu64 R100). -/
def rhsReg (src : Reg) (s : State) : Word := s.getReg src

/-- The low 32 bits of an operand: A32 and B32 (42_alu32 R140). -/
def low32 (v : Word) : Half := v.setWidth 32

/-- `shamt64`: the shift amount of a 64-bit shift; `none` where the result is a draw (41_alu64 R115). -/
def shamt64 (p : ShiftPolicy) (v : Word) : Option Nat :=
  match p with
  | .mask => some (v.extractLsb' 0 6).toNat
  | .draw => if v.toNat < 64 then some v.toNat else none

/-- `shamt32`: the shift amount of a 32-bit shift; `none` where the result is a draw (42_alu32 R155). -/
def shamt32 (p : ShiftPolicy) (v : Half) : Option Nat :=
  match p with
  | .mask => some (v.extractLsb' 0 5).toNat
  | .draw => if v.toNat < 32 then some v.toNat else none

/-- A 64-bit shift by the amount the RHS gives; where the policy draws, the written value is free (41_alu64 R115). -/
def shift64 (f : Word → Nat → Word) (dst : Reg) (rhs : Word) (s : State) : Host.Outcome State Fault Refusal :=
  match shamt64 s.params.shiftAmountPolicy rhs with
  | some n => writeResult dst (f (s.getReg dst) n) s
  | none => writeResult dst (Config.draw64 s.draws) s.countDraw

/-- A 32-bit shift; where the policy draws, the written 32-bit value is free and still zero-extended (42_alu32 R155). -/
def shift32 (f : Half → Nat → Half) (dst : Reg) (rhs : Word) (s : State) : Host.Outcome State Fault Refusal :=
  match shamt32 s.params.shiftAmountPolicy (low32 rhs) with
  | some n => writeResult32 dst (f (low32 (s.getReg dst)) n) s
  | none => writeResult32 dst (Config.draw32 s.draws) s.countDraw

/-- A 64-bit division or remainder: DivideByZero on a zero divisor, the destination untouched (41_alu64 R104, R110). -/
def divide64 (f : Word → Word → Word) (dst : Reg) (d : Word) (s : State) : Host.Outcome State Fault Refusal :=
  if d = 0 then .next (s.raiseFault .divideByZero) else writeResult dst (f (s.getReg dst) d) s

/-- A 32-bit division or remainder: the divisor tested is the truncated one (42_alu32 R144, R150, 92 D10). -/
def divide32 (f : Half → Half → Half) (dst : Reg) (rhs : Word) (s : State) : Host.Outcome State Fault Refusal :=
  if low32 rhs = 0 then .next (s.raiseFault .divideByZero)
  else writeResult32 dst (f (low32 (s.getReg dst)) (low32 rhs)) s

/-- A 32-bit operation on the truncated operands (42_alu32 R140). -/
def apply32 (f : Half → Half → Half) (dst : Reg) (rhs : Word) (s : State) : Host.Outcome State Fault Refusal :=
  writeResult32 dst (f (low32 (s.getReg dst)) (low32 rhs)) s

/-- NEG of a 64-bit value (41_alu64 R109). -/
def negate64 (m : NegMode) (v : Word) : Word :=
  match m with
  | .complement => ~~~v
  | .twosComplement => 0 - v

/-- NEG of a 32-bit value (42_alu32 R149). -/
def negate32 (m : NegMode) (v : Half) : Half :=
  match m with
  | .complement => ~~~v
  | .twosComplement => 0 - v

/-- Arithmetic shift right of a 64-bit value (41_alu64 R113). -/
def arith64 (m : ArshMode) (v : Word) (n : Nat) : Word :=
  match m with
  | .signBitOnly => (v >>> n) ||| (v &&& 0x8000000000000000)
  | .signExtend => v.sshiftRight n

/-- Arithmetic shift right of a 32-bit value (42_alu32 R153). -/
def arith32 (m : ArshMode) (v : Half) (n : Nat) : Half :=
  match m with
  | .signBitOnly => (v >>> n) ||| (v &&& 0x80000000)
  | .signExtend => v.sshiftRight n

/-- Byte k of a value, byte 0 the least significant (43_endian_swap R184). -/
def byteAt (v : Word) (k : Nat) : Byte := v.extractLsb' (8 * k) 8

/-- `bswap_16` of the low 16 bits (43_endian_swap R184). -/
def bswap16 (v : Word) : BitVec 16 := byteAt v 0 ++ byteAt v 1

/-- `bswap_32` of the low 32 bits (43_endian_swap R184). -/
def bswap32 (v : Word) : BitVec 32 := byteAt v 0 ++ byteAt v 1 ++ byteAt v 2 ++ byteAt v 3

/-- `bswap_64` (43_endian_swap R184). -/
def bswap64 (v : Word) : BitVec 64 :=
  byteAt v 0 ++ byteAt v 1 ++ byteAt v 2 ++ byteAt v 3 ++ byteAt v 4 ++ byteAt v 5 ++ byteAt v 6 ++ byteAt v 7

/-- `to_le_W`: the value itself on a little-endian host, its byte reversal on a big-endian one (43_endian_swap R184). -/
def toLittle {n : Nat} (h : HostOrder) (plain swapped : BitVec n) : BitVec n :=
  match h with
  | .little => plain
  | .big => swapped

/-- `to_be_W`: the byte reversal on a little-endian host, the value itself on a big-endian one (43_endian_swap R184). -/
def toBig {n : Nat} (h : HostOrder) (plain swapped : BitVec n) : BitVec n :=
  match h with
  | .little => swapped
  | .big => plain

/-- Write the W-bit converted value zero-extended to 64 bits (43_endian_swap R185). -/
def writeConverted {n : Nat} (dst : Reg) (v : BitVec n) (s : State) : Host.Outcome State Fault Refusal :=
  writeResult dst (v.setWidth 64) s

/-- A branch: where the condition holds, add the sign-extended byte offset to `ip`; no register and no flag is written
(44_branch R190, R191). -/
def branchIf (cond : Bool) (off : BitVec 16) (s : State) : Host.Outcome State Fault Refusal :=
  succeed (if cond then { s with ip := s.ip + off.signExtend 64 } else s)

end Sys2Proof.Machine
end

