-- ==== Sys2Proof/Machine/Alu32.lean ====
section
/-! DEFINITION. The 32-bit ALU (spec 42_alu32): one definition per instruction form, each over the shared operations of
Operands.lean, and what the unit does with a code that is no operation. The engine advances `ip` and `cycle_count`
afterwards (45_execution_engine R217). -/

namespace Sys2Proof.Machine

/-- ADD32, immediate form: sum modulo 2^32 (42_alu32 R141). -/
def execAdd32K (dst : Reg) (imm : BitVec 32) (s : State) :
    Host.Outcome State Fault Refusal :=
  apply32 (fun a b => a + b) dst (rhsImm imm) s

/-- ADD32, register form: sum modulo 2^32 (42_alu32 R141). -/
def execAdd32X (dst src : Reg) (s : State) :
    Host.Outcome State Fault Refusal :=
  apply32 (fun a b => a + b) dst (rhsReg src s) s

/-- SUB32, immediate form: difference modulo 2^32 (42_alu32 R142). -/
def execSub32K (dst : Reg) (imm : BitVec 32) (s : State) :
    Host.Outcome State Fault Refusal :=
  apply32 (fun a b => a - b) dst (rhsImm imm) s

/-- SUB32, register form: difference modulo 2^32 (42_alu32 R142). -/
def execSub32X (dst src : Reg) (s : State) :
    Host.Outcome State Fault Refusal :=
  apply32 (fun a b => a - b) dst (rhsReg src s) s

/-- MUL32, immediate form: low 32 bits of the product (42_alu32 R143). -/
def execMul32K (dst : Reg) (imm : BitVec 32) (s : State) :
    Host.Outcome State Fault Refusal :=
  apply32 (fun a b => a * b) dst (rhsImm imm) s

/-- MUL32, register form: low 32 bits of the product (42_alu32 R143). -/
def execMul32X (dst src : Reg) (s : State) :
    Host.Outcome State Fault Refusal :=
  apply32 (fun a b => a * b) dst (rhsReg src s) s

/-- DIV32, immediate form: unsigned quotient; a zero divisor is a DivideByZero fault (42_alu32 R144). -/
def execDiv32K (dst : Reg) (imm : BitVec 32) (s : State) :
    Host.Outcome State Fault Refusal :=
  divide32 (fun a d => a / d) dst (rhsImm imm) s

/-- DIV32, register form: unsigned quotient; a zero divisor is a DivideByZero fault (42_alu32 R144). -/
def execDiv32X (dst src : Reg) (s : State) :
    Host.Outcome State Fault Refusal :=
  divide32 (fun a d => a / d) dst (rhsReg src s) s

/-- OR32, immediate form: bitwise or (42_alu32 R145). -/
def execOr32K (dst : Reg) (imm : BitVec 32) (s : State) :
    Host.Outcome State Fault Refusal :=
  apply32 (fun a b => a ||| b) dst (rhsImm imm) s

/-- OR32, register form: bitwise or (42_alu32 R145). -/
def execOr32X (dst src : Reg) (s : State) :
    Host.Outcome State Fault Refusal :=
  apply32 (fun a b => a ||| b) dst (rhsReg src s) s

/-- AND32, immediate form: bitwise and (42_alu32 R146). -/
def execAnd32K (dst : Reg) (imm : BitVec 32) (s : State) :
    Host.Outcome State Fault Refusal :=
  apply32 (fun a b => a &&& b) dst (rhsImm imm) s

/-- AND32, register form: bitwise and (42_alu32 R146). -/
def execAnd32X (dst src : Reg) (s : State) :
    Host.Outcome State Fault Refusal :=
  apply32 (fun a b => a &&& b) dst (rhsReg src s) s

/-- LSH32, immediate form: logical shift left, amount by R155 (42_alu32 R147). -/
def execLsh32K (dst : Reg) (imm : BitVec 32) (s : State) :
    Host.Outcome State Fault Refusal :=
  shift32 (fun v n => v <<< n) dst (rhsImm imm) s

/-- LSH32, register form: logical shift left, amount by R155 (42_alu32 R147). -/
def execLsh32X (dst src : Reg) (s : State) :
    Host.Outcome State Fault Refusal :=
  shift32 (fun v n => v <<< n) dst (rhsReg src s) s

/-- RSH32, immediate form: logical shift right, amount by R155 (42_alu32 R148). -/
def execRsh32K (dst : Reg) (imm : BitVec 32) (s : State) :
    Host.Outcome State Fault Refusal :=
  shift32 (fun v n => v >>> n) dst (rhsImm imm) s

/-- RSH32, register form: logical shift right, amount by R155 (42_alu32 R148). -/
def execRsh32X (dst src : Reg) (s : State) :
    Host.Outcome State Fault Refusal :=
  shift32 (fun v n => v >>> n) dst (rhsReg src s) s

/-- NEG32, immediate form: bitwise-negate as NEG_MODE says; no right-hand operand (42_alu32 R149). -/
def execNeg32K (dst : Reg) (s : State) :
    Host.Outcome State Fault Refusal :=
  writeResult32 dst (negate32 s.params.negMode (low32 (s.getReg dst))) s

/-- NEG32, register form: bitwise-negate as NEG_MODE says; no right-hand operand (42_alu32 R149). -/
def execNeg32X (dst : Reg) (s : State) :
    Host.Outcome State Fault Refusal :=
  writeResult32 dst (negate32 s.params.negMode (low32 (s.getReg dst))) s

/-- MOD32, immediate form: unsigned remainder; a zero divisor is a DivideByZero fault (42_alu32 R150). -/
def execMod32K (dst : Reg) (imm : BitVec 32) (s : State) :
    Host.Outcome State Fault Refusal :=
  divide32 (fun a d => a % d) dst (rhsImm imm) s

/-- MOD32, register form: unsigned remainder; a zero divisor is a DivideByZero fault (42_alu32 R150). -/
def execMod32X (dst src : Reg) (s : State) :
    Host.Outcome State Fault Refusal :=
  divide32 (fun a d => a % d) dst (rhsReg src s) s

/-- XOR32, immediate form: bitwise exclusive or (42_alu32 R151). -/
def execXor32K (dst : Reg) (imm : BitVec 32) (s : State) :
    Host.Outcome State Fault Refusal :=
  apply32 (fun a b => a ^^^ b) dst (rhsImm imm) s

/-- XOR32, register form: bitwise exclusive or (42_alu32 R151). -/
def execXor32X (dst src : Reg) (s : State) :
    Host.Outcome State Fault Refusal :=
  apply32 (fun a b => a ^^^ b) dst (rhsReg src s) s

/-- MOV32, immediate form: assign (42_alu32 R152). -/
def execMov32K (dst : Reg) (imm : BitVec 32) (s : State) :
    Host.Outcome State Fault Refusal :=
  writeResult32 dst (low32 (rhsImm imm)) s

/-- MOV32, register form: assign (42_alu32 R152). -/
def execMov32X (dst src : Reg) (s : State) :
    Host.Outcome State Fault Refusal :=
  writeResult32 dst (low32 (rhsReg src s)) s

/-- ARSH32, immediate form: arithmetic shift right as ARSH_MODE says, amount by R155 (42_alu32 R153). -/
def execArsh32K (dst : Reg) (imm : BitVec 32) (s : State) :
    Host.Outcome State Fault Refusal :=
  shift32 (arith32 s.params.arshMode) dst (rhsImm imm) s

/-- ARSH32, register form: arithmetic shift right as ARSH_MODE says, amount by R155 (42_alu32 R153). -/
def execArsh32X (dst src : Reg) (s : State) :
    Host.Outcome State Fault Refusal :=
  shift32 (arith32 s.params.arshMode) dst (rhsReg src s) s

/-- An undefined ALU32 operation: the IllegalInstruction fault (42_alu32 R154). -/
def undefinedAlu32 (s : State) : State := s.raiseFault .illegalInstruction

end Sys2Proof.Machine
end

