-- ==== Sys2Proof/Machine/Alu64.lean ====
section
/-! DEFINITION. The 64-bit ALU (spec 41_alu64): one definition per instruction form, each over the shared operations of
Operands.lean, and what the unit does with a code that is no operation. The engine advances `ip` and `cycle_count`
afterwards (45_execution_engine R217). -/

namespace Sys2Proof.Machine

/-- ADD64, immediate form: sum modulo 2^64 (41_alu64 R101). -/
def execAddK (dst : Reg) (imm : BitVec 32) (s : State) :
    Host.Outcome State Fault Refusal :=
  writeResult dst (s.getReg dst + rhsImm imm) s

/-- ADD64, register form: sum modulo 2^64 (41_alu64 R101). -/
def execAddX (dst src : Reg) (s : State) :
    Host.Outcome State Fault Refusal :=
  writeResult dst (s.getReg dst + rhsReg src s) s

/-- SUB64, immediate form: difference modulo 2^64 (41_alu64 R102). -/
def execSubK (dst : Reg) (imm : BitVec 32) (s : State) :
    Host.Outcome State Fault Refusal :=
  writeResult dst (s.getReg dst - rhsImm imm) s

/-- SUB64, register form: difference modulo 2^64 (41_alu64 R102). -/
def execSubX (dst src : Reg) (s : State) :
    Host.Outcome State Fault Refusal :=
  writeResult dst (s.getReg dst - rhsReg src s) s

/-- MUL64, immediate form: low 64 bits of the product (41_alu64 R103). -/
def execMulK (dst : Reg) (imm : BitVec 32) (s : State) :
    Host.Outcome State Fault Refusal :=
  writeResult dst (s.getReg dst * rhsImm imm) s

/-- MUL64, register form: low 64 bits of the product (41_alu64 R103). -/
def execMulX (dst src : Reg) (s : State) :
    Host.Outcome State Fault Refusal :=
  writeResult dst (s.getReg dst * rhsReg src s) s

/-- DIV64, immediate form: unsigned quotient; a zero divisor is a DivideByZero fault (41_alu64 R104). -/
def execDivK (dst : Reg) (imm : BitVec 32) (s : State) :
    Host.Outcome State Fault Refusal :=
  divide64 (fun a d => a / d) dst (rhsImm imm) s

/-- DIV64, register form: unsigned quotient; a zero divisor is a DivideByZero fault (41_alu64 R104). -/
def execDivX (dst src : Reg) (s : State) :
    Host.Outcome State Fault Refusal :=
  divide64 (fun a d => a / d) dst (rhsReg src s) s

/-- OR64, immediate form: bitwise or (41_alu64 R105). -/
def execOrK (dst : Reg) (imm : BitVec 32) (s : State) :
    Host.Outcome State Fault Refusal :=
  writeResult dst (s.getReg dst ||| rhsImm imm) s

/-- OR64, register form: bitwise or (41_alu64 R105). -/
def execOrX (dst src : Reg) (s : State) :
    Host.Outcome State Fault Refusal :=
  writeResult dst (s.getReg dst ||| rhsReg src s) s

/-- AND64, immediate form: bitwise and (41_alu64 R106). -/
def execAndK (dst : Reg) (imm : BitVec 32) (s : State) :
    Host.Outcome State Fault Refusal :=
  writeResult dst (s.getReg dst &&& rhsImm imm) s

/-- AND64, register form: bitwise and (41_alu64 R106). -/
def execAndX (dst src : Reg) (s : State) :
    Host.Outcome State Fault Refusal :=
  writeResult dst (s.getReg dst &&& rhsReg src s) s

/-- LSH64, immediate form: logical shift left, amount by R115 (41_alu64 R107). -/
def execLshK (dst : Reg) (imm : BitVec 32) (s : State) :
    Host.Outcome State Fault Refusal :=
  shift64 (fun v n => v <<< n) dst (rhsImm imm) s

/-- LSH64, register form: logical shift left, amount by R115 (41_alu64 R107). -/
def execLshX (dst src : Reg) (s : State) :
    Host.Outcome State Fault Refusal :=
  shift64 (fun v n => v <<< n) dst (rhsReg src s) s

/-- RSH64, immediate form: logical shift right, amount by R115 (41_alu64 R108). -/
def execRshK (dst : Reg) (imm : BitVec 32) (s : State) :
    Host.Outcome State Fault Refusal :=
  shift64 (fun v n => v >>> n) dst (rhsImm imm) s

/-- RSH64, register form: logical shift right, amount by R115 (41_alu64 R108). -/
def execRshX (dst src : Reg) (s : State) :
    Host.Outcome State Fault Refusal :=
  shift64 (fun v n => v >>> n) dst (rhsReg src s) s

/-- NEG64, immediate form: bitwise-negate as NEG_MODE says; no right-hand operand (41_alu64 R109). -/
def execNegK (dst : Reg) (s : State) :
    Host.Outcome State Fault Refusal :=
  writeResult dst (negate64 s.params.negMode (s.getReg dst)) s

/-- NEG64, register form: bitwise-negate as NEG_MODE says; no right-hand operand (41_alu64 R109). -/
def execNegX (dst : Reg) (s : State) :
    Host.Outcome State Fault Refusal :=
  writeResult dst (negate64 s.params.negMode (s.getReg dst)) s

/-- MOD64, immediate form: unsigned remainder; a zero divisor is a DivideByZero fault (41_alu64 R110). -/
def execModK (dst : Reg) (imm : BitVec 32) (s : State) :
    Host.Outcome State Fault Refusal :=
  divide64 (fun a d => a % d) dst (rhsImm imm) s

/-- MOD64, register form: unsigned remainder; a zero divisor is a DivideByZero fault (41_alu64 R110). -/
def execModX (dst src : Reg) (s : State) :
    Host.Outcome State Fault Refusal :=
  divide64 (fun a d => a % d) dst (rhsReg src s) s

/-- XOR64, immediate form: bitwise exclusive or (41_alu64 R111). -/
def execXorK (dst : Reg) (imm : BitVec 32) (s : State) :
    Host.Outcome State Fault Refusal :=
  writeResult dst (s.getReg dst ^^^ rhsImm imm) s

/-- XOR64, register form: bitwise exclusive or (41_alu64 R111). -/
def execXorX (dst src : Reg) (s : State) :
    Host.Outcome State Fault Refusal :=
  writeResult dst (s.getReg dst ^^^ rhsReg src s) s

/-- MOV64, immediate form: assign (41_alu64 R112). -/
def execMovK (dst : Reg) (imm : BitVec 32) (s : State) :
    Host.Outcome State Fault Refusal :=
  writeResult dst (rhsImm imm) s

/-- MOV64, register form: assign (41_alu64 R112). -/
def execMovX (dst src : Reg) (s : State) :
    Host.Outcome State Fault Refusal :=
  writeResult dst (rhsReg src s) s

/-- ARSH64, immediate form: arithmetic shift right as ARSH_MODE says, amount by R115 (41_alu64 R113). -/
def execArshK (dst : Reg) (imm : BitVec 32) (s : State) :
    Host.Outcome State Fault Refusal :=
  shift64 (arith64 s.params.arshMode) dst (rhsImm imm) s

/-- ARSH64, register form: arithmetic shift right as ARSH_MODE says, amount by R115 (41_alu64 R113). -/
def execArshX (dst src : Reg) (s : State) :
    Host.Outcome State Fault Refusal :=
  shift64 (arith64 s.params.arshMode) dst (rhsReg src s) s

/-- An undefined ALU64 operation (41_alu64 R114): under GRACEFUL the IllegalInstruction fault, under FATAL the same flags
and the terminal outcome Aborted (45_execution_engine R220). -/
def undefinedAlu64 (s : State) : State :=
  match s.params.alu64IllegalPolicy with
  | .graceful => s.raiseFault .illegalInstruction
  | .fatal => (s.raiseFault .illegalInstruction).report .aborted

end Sys2Proof.Machine
end

