-- ==== Sys2Proof/Machine/Branch.lean ====
section
/-! DEFINITION. The branch unit (spec 44_branch): one definition per condition and operand form, and what the unit does
with a code that is no condition. Every comparison is unsigned on 64 bits (R190). -/

namespace Sys2Proof.Machine

/-- JA, immediate form: always taken (44_branch R192). -/
def execJaK (off : BitVec 16) (s : State) :
    Host.Outcome State Fault Refusal :=
  branchIf true off s

/-- JA, register form: always taken (44_branch R192). -/
def execJaX (off : BitVec 16) (s : State) :
    Host.Outcome State Fault Refusal :=
  branchIf true off s

/-- JEQ, immediate form: equal (44_branch R193). -/
def execJeqK (dst : Reg) (imm : BitVec 32) (off : BitVec 16) (s : State) :
    Host.Outcome State Fault Refusal :=
  branchIf (s.getReg dst == rhsImm imm) off s

/-- JEQ, register form: equal (44_branch R193). -/
def execJeqX (dst src : Reg) (off : BitVec 16) (s : State) :
    Host.Outcome State Fault Refusal :=
  branchIf (s.getReg dst == rhsReg src s) off s

/-- JGT, immediate form: greater than, unsigned (44_branch R194). -/
def execJgtK (dst : Reg) (imm : BitVec 32) (off : BitVec 16) (s : State) :
    Host.Outcome State Fault Refusal :=
  branchIf ((rhsImm imm).ult (s.getReg dst)) off s

/-- JGT, register form: greater than, unsigned (44_branch R194). -/
def execJgtX (dst src : Reg) (off : BitVec 16) (s : State) :
    Host.Outcome State Fault Refusal :=
  branchIf ((rhsReg src s).ult (s.getReg dst)) off s

/-- JGE, immediate form: greater or equal, unsigned (44_branch R195). -/
def execJgeK (dst : Reg) (imm : BitVec 32) (off : BitVec 16) (s : State) :
    Host.Outcome State Fault Refusal :=
  branchIf ((rhsImm imm).ule (s.getReg dst)) off s

/-- JGE, register form: greater or equal, unsigned (44_branch R195). -/
def execJgeX (dst src : Reg) (off : BitVec 16) (s : State) :
    Host.Outcome State Fault Refusal :=
  branchIf ((rhsReg src s).ule (s.getReg dst)) off s

/-- JSET, immediate form: a common bit is set (44_branch R198). -/
def execJsetK (dst : Reg) (imm : BitVec 32) (off : BitVec 16) (s : State) :
    Host.Outcome State Fault Refusal :=
  branchIf ((s.getReg dst &&& rhsImm imm) != 0) off s

/-- JSET, register form: a common bit is set (44_branch R198). -/
def execJsetX (dst src : Reg) (off : BitVec 16) (s : State) :
    Host.Outcome State Fault Refusal :=
  branchIf ((s.getReg dst &&& rhsReg src s) != 0) off s

/-- JNE, immediate form: not equal (44_branch R199). -/
def execJneK (dst : Reg) (imm : BitVec 32) (off : BitVec 16) (s : State) :
    Host.Outcome State Fault Refusal :=
  branchIf (s.getReg dst != rhsImm imm) off s

/-- JNE, register form: not equal (44_branch R199). -/
def execJneX (dst src : Reg) (off : BitVec 16) (s : State) :
    Host.Outcome State Fault Refusal :=
  branchIf (s.getReg dst != rhsReg src s) off s

/-- JLT, immediate form: less than, unsigned (44_branch R196). -/
def execJltK (dst : Reg) (imm : BitVec 32) (off : BitVec 16) (s : State) :
    Host.Outcome State Fault Refusal :=
  branchIf ((s.getReg dst).ult (rhsImm imm)) off s

/-- JLT, register form: less than, unsigned (44_branch R196). -/
def execJltX (dst src : Reg) (off : BitVec 16) (s : State) :
    Host.Outcome State Fault Refusal :=
  branchIf ((s.getReg dst).ult (rhsReg src s)) off s

/-- JLE, immediate form: less or equal, unsigned (44_branch R197). -/
def execJleK (dst : Reg) (imm : BitVec 32) (off : BitVec 16) (s : State) :
    Host.Outcome State Fault Refusal :=
  branchIf ((s.getReg dst).ule (rhsImm imm)) off s

/-- JLE, register form: less or equal, unsigned (44_branch R197). -/
def execJleX (dst src : Reg) (off : BitVec 16) (s : State) :
    Host.Outcome State Fault Refusal :=
  branchIf ((s.getReg dst).ule (rhsReg src s)) off s

/-- An undefined branch condition: the IllegalInstruction fault, `ip` not changed by the unit (44_branch R201). -/
def undefinedCondition (s : State) : State := s.raiseFault .illegalInstruction

end Sys2Proof.Machine
end

