-- ==== Sys2Proof/Machine/Endian.lean ====
section
/-! DEFINITION. The endian-swap unit (spec 43_endian_swap): one definition per width and target order, and what the unit
does with any other width. No operand is taken from the right-hand side (R180). -/

namespace Sys2Proof.Machine

/-- Convert the low 16 bits to little-endian, zero-extended (43_endian_swap R181, R184, R185). -/
def execLe16 (dst : Reg) (s : State) :
    Host.Outcome State Fault Refusal :=
  writeConverted dst (toLittle s.params.hostOrder ((s.getReg dst).setWidth 16) (bswap16 (s.getReg dst))) s

/-- Convert the low 32 bits to little-endian, zero-extended (43_endian_swap R181, R184, R185). -/
def execLe32 (dst : Reg) (s : State) :
    Host.Outcome State Fault Refusal :=
  writeConverted dst (toLittle s.params.hostOrder ((s.getReg dst).setWidth 32) (bswap32 (s.getReg dst))) s

/-- Convert the low 64 bits to little-endian, zero-extended (43_endian_swap R181, R184, R185). -/
def execLe64 (dst : Reg) (s : State) :
    Host.Outcome State Fault Refusal :=
  writeConverted dst (toLittle s.params.hostOrder ((s.getReg dst).setWidth 64) (bswap64 (s.getReg dst))) s

/-- Convert the low 16 bits to big-endian, zero-extended (43_endian_swap R182, R184, R185). -/
def execBe16 (dst : Reg) (s : State) :
    Host.Outcome State Fault Refusal :=
  writeConverted dst (toBig s.params.hostOrder ((s.getReg dst).setWidth 16) (bswap16 (s.getReg dst))) s

/-- Convert the low 32 bits to big-endian, zero-extended (43_endian_swap R182, R184, R185). -/
def execBe32 (dst : Reg) (s : State) :
    Host.Outcome State Fault Refusal :=
  writeConverted dst (toBig s.params.hostOrder ((s.getReg dst).setWidth 32) (bswap32 (s.getReg dst))) s

/-- Convert the low 64 bits to big-endian, zero-extended (43_endian_swap R182, R184, R185). -/
def execBe64 (dst : Reg) (s : State) :
    Host.Outcome State Fault Refusal :=
  writeConverted dst (toBig s.params.hostOrder ((s.getReg dst).setWidth 64) (bswap64 (s.getReg dst))) s

/-- A width other than 16, 32 and 64: the IllegalInstruction fault (43_endian_swap R183). -/
def illegalEndianWidth (s : State) : State := s.raiseFault .illegalInstruction

end Sys2Proof.Machine
end

