-- ==== Sys2Proof/Machine/Dispatch.lean ====
section
/-! DEFINITION. One arm per instruction, each one direct call of its meaning (spec 45_execution_engine R214, R216). -/

namespace Sys2Proof.Machine

def exec (i : Instr) (s : State) : Host.Outcome State Fault Refusal :=
  match i with
  | .addK dst imm => Sys2Proof.Machine.execAddK dst imm s
  | .addX dst src => Sys2Proof.Machine.execAddX dst src s
  | .subK dst imm => Sys2Proof.Machine.execSubK dst imm s
  | .subX dst src => Sys2Proof.Machine.execSubX dst src s
  | .mulK dst imm => Sys2Proof.Machine.execMulK dst imm s
  | .mulX dst src => Sys2Proof.Machine.execMulX dst src s
  | .divK dst imm => Sys2Proof.Machine.execDivK dst imm s
  | .divX dst src => Sys2Proof.Machine.execDivX dst src s
  | .orK dst imm => Sys2Proof.Machine.execOrK dst imm s
  | .orX dst src => Sys2Proof.Machine.execOrX dst src s
  | .andK dst imm => Sys2Proof.Machine.execAndK dst imm s
  | .andX dst src => Sys2Proof.Machine.execAndX dst src s
  | .lshK dst imm => Sys2Proof.Machine.execLshK dst imm s
  | .lshX dst src => Sys2Proof.Machine.execLshX dst src s
  | .rshK dst imm => Sys2Proof.Machine.execRshK dst imm s
  | .rshX dst src => Sys2Proof.Machine.execRshX dst src s
  | .negK dst => Sys2Proof.Machine.execNegK dst s
  | .negX dst => Sys2Proof.Machine.execNegX dst s
  | .modK dst imm => Sys2Proof.Machine.execModK dst imm s
  | .modX dst src => Sys2Proof.Machine.execModX dst src s
  | .xorK dst imm => Sys2Proof.Machine.execXorK dst imm s
  | .xorX dst src => Sys2Proof.Machine.execXorX dst src s
  | .movK dst imm => Sys2Proof.Machine.execMovK dst imm s
  | .movX dst src => Sys2Proof.Machine.execMovX dst src s
  | .arshK dst imm => Sys2Proof.Machine.execArshK dst imm s
  | .arshX dst src => Sys2Proof.Machine.execArshX dst src s
  | .add32K dst imm => Sys2Proof.Machine.execAdd32K dst imm s
  | .add32X dst src => Sys2Proof.Machine.execAdd32X dst src s
  | .sub32K dst imm => Sys2Proof.Machine.execSub32K dst imm s
  | .sub32X dst src => Sys2Proof.Machine.execSub32X dst src s
  | .mul32K dst imm => Sys2Proof.Machine.execMul32K dst imm s
  | .mul32X dst src => Sys2Proof.Machine.execMul32X dst src s
  | .div32K dst imm => Sys2Proof.Machine.execDiv32K dst imm s
  | .div32X dst src => Sys2Proof.Machine.execDiv32X dst src s
  | .or32K dst imm => Sys2Proof.Machine.execOr32K dst imm s
  | .or32X dst src => Sys2Proof.Machine.execOr32X dst src s
  | .and32K dst imm => Sys2Proof.Machine.execAnd32K dst imm s
  | .and32X dst src => Sys2Proof.Machine.execAnd32X dst src s
  | .lsh32K dst imm => Sys2Proof.Machine.execLsh32K dst imm s
  | .lsh32X dst src => Sys2Proof.Machine.execLsh32X dst src s
  | .rsh32K dst imm => Sys2Proof.Machine.execRsh32K dst imm s
  | .rsh32X dst src => Sys2Proof.Machine.execRsh32X dst src s
  | .neg32K dst => Sys2Proof.Machine.execNeg32K dst s
  | .neg32X dst => Sys2Proof.Machine.execNeg32X dst s
  | .mod32K dst imm => Sys2Proof.Machine.execMod32K dst imm s
  | .mod32X dst src => Sys2Proof.Machine.execMod32X dst src s
  | .xor32K dst imm => Sys2Proof.Machine.execXor32K dst imm s
  | .xor32X dst src => Sys2Proof.Machine.execXor32X dst src s
  | .mov32K dst imm => Sys2Proof.Machine.execMov32K dst imm s
  | .mov32X dst src => Sys2Proof.Machine.execMov32X dst src s
  | .arsh32K dst imm => Sys2Proof.Machine.execArsh32K dst imm s
  | .arsh32X dst src => Sys2Proof.Machine.execArsh32X dst src s
  | .le16 dst => Sys2Proof.Machine.execLe16 dst s
  | .le32 dst => Sys2Proof.Machine.execLe32 dst s
  | .le64 dst => Sys2Proof.Machine.execLe64 dst s
  | .be16 dst => Sys2Proof.Machine.execBe16 dst s
  | .be32 dst => Sys2Proof.Machine.execBe32 dst s
  | .be64 dst => Sys2Proof.Machine.execBe64 dst s
  | .jaK off => Sys2Proof.Machine.execJaK off s
  | .jaX off => Sys2Proof.Machine.execJaX off s
  | .jeqK dst imm off => Sys2Proof.Machine.execJeqK dst imm off s
  | .jeqX dst src off => Sys2Proof.Machine.execJeqX dst src off s
  | .jgtK dst imm off => Sys2Proof.Machine.execJgtK dst imm off s
  | .jgtX dst src off => Sys2Proof.Machine.execJgtX dst src off s
  | .jgeK dst imm off => Sys2Proof.Machine.execJgeK dst imm off s
  | .jgeX dst src off => Sys2Proof.Machine.execJgeX dst src off s
  | .jsetK dst imm off => Sys2Proof.Machine.execJsetK dst imm off s
  | .jsetX dst src off => Sys2Proof.Machine.execJsetX dst src off s
  | .jneK dst imm off => Sys2Proof.Machine.execJneK dst imm off s
  | .jneX dst src off => Sys2Proof.Machine.execJneX dst src off s
  | .jltK dst imm off => Sys2Proof.Machine.execJltK dst imm off s
  | .jltX dst src off => Sys2Proof.Machine.execJltX dst src off s
  | .jleK dst imm off => Sys2Proof.Machine.execJleK dst imm off s
  | .jleX dst src off => Sys2Proof.Machine.execJleX dst src off s

end Sys2Proof.Machine
end

