-- ==== Sys2Proof/Machine/Engine.lean ====
section
/-! DEFINITION. The Execution Engine around a unit's work (spec 45_execution_engine): the halted check, fetch and decode,
the illegal encodings, the advance and the end-of-memory check. Step.lean only joins the two halves. -/

namespace Sys2Proof.Machine

/-- The rest of instruction memory from `ip` on, as the engine hands it to the decoder: its length is IMEM_LEN - ip where
that is positive, and 0 otherwise (20_memory R51, 45_execution_engine R213). -/
def restOfImem (s : State) : List Byte :=
  s.imem.readBytes s.ip.toNat (s.imem.size - s.ip.toNat)

/-- Fetch (20_memory R51): the eight bytes at `ip`, where IMEM_LEN - ip is a positive multiple of 8. -/
def fetchBytes (s : State) : Option (List Byte) :=
  let rem : Int := (s.imem.size : Int) - (s.ip.toNat : Int)
  if rem ≤ 0 ∨ rem % 8 ≠ 0 then none else some (s.imem.readBytes s.ip.toNat 8)

/-- Fetch, decode and classify the instruction at `ip` (45_execution_engine R213, R214). -/
def fetchDecode (s : State) : Except Reject Instr :=
  match fetchBytes s with
  | none => .error .malformedBuffer
  | some bytes => decode s.params.opMaps bytes

/-- Sub-step 4, advance (45_execution_engine R217). -/
def advance (s : State) : State := { s with ip := s.ip + 8, cycleCount := s.cycleCount + 1 }

/-- Sub-step 5, the end-of-memory check, an equality only (45_execution_engine R218). -/
def endCheck (s : State) : State :=
  if s.ip.toNat = s.imem.size then
    (if s.continuousMode then { s with ip := 0 } else { s with status := s.status.halt })
  else s

/-- Sub-steps 4 and 5 after a unit has returned, whatever it did, except after the outcome Aborted
(45_execution_engine R216, R217, R220, R221). -/
def finishUnit (s : State) : State :=
  if s.result = some .aborted then s else endCheck (advance s)

/-- What follows a unit's outcome. -/
def finishStep : Host.Outcome State Fault Refusal → Host.Outcome State Fault Refusal
  | .next t => .next (finishUnit t)
  | .fault f => .fault f
  | .refused r => .refused r

/-- An illegal class: the flags and the result, no advance (45_execution_engine R215). -/
def illegalClass (s : State) : State := s.raiseFault .illegalInstruction

/-- What a step does with bytes that are no instruction (30_encoding R83, 60_exceptions R241): a failed fetch changes
nothing but the result code (45_execution_engine R213), an illegal class does not advance (R215), and the units' own
illegal encodings go through sub-steps 4 and 5. -/
def rejectStep (s : State) : Reject → State
  | .malformedBuffer => s.report .fetchFailed
  | .illegalClass => illegalClass s
  | .undefinedAlu64 => finishUnit (undefinedAlu64 s)
  | .undefinedAlu32 => finishUnit (undefinedAlu32 s)
  | .illegalWidth => finishUnit (illegalEndianWidth s)
  | .undefinedCondition => finishUnit (undefinedCondition s)

/-- How a step begins: it has ended before any unit ran, or an instruction is to be run. -/
inductive StepStart where
  | ended (o : Host.Outcome State Fault Refusal)
  | run (i : Instr)

/-- Sub-steps 1 to 3 up to the unit (45_execution_engine R221): no step from an Aborted state (R220), the halted check
(R212), fetch, decode and classify (R213, R214). -/
def startStep (s : State) : StepStart :=
  if s.result = some .aborted then .ended (.fault .aborted)
  else if s.status.halted then .ended (.next (s.report .machineHalted))
  else
    match fetchDecode s with
    | .ok i => .run i
    | .error e => .ended (.next (rejectStep s e))

/-- Place a word's bytes where the next step fetches: the eight bytes at `ip`, with IMEM_LEN raised to the next value for
which a fetch at `ip` succeeds (unchanged where it already does), HALTED cleared, and an Aborted outcome forgotten. It
stands for the host's load (70_reset_and_hazards R272; log entry 20). -/
def placeWord (s : State) (bytes : List Byte) : State :=
  let size := s.ip.toNat + max 8 (8 * ((s.imem.size - s.ip.toNat + 7) / 8))
  { s with
    imem := ({ s.imem with size := size }).writeBytes s.ip.toNat bytes
    status := { s.status with halted := false }
    result := if s.result = some .aborted then none else s.result }

end Sys2Proof.Machine
end

