-- ==== Sys2Proof/Machine/Step.lean ====
section
/-! DEFINITION. The step (spec 45_execution_engine R221) and the placing of one word for the next step to run. -/

namespace Sys2Proof.Machine

/-- One step: start, run the decoded instruction's unit, finish (45_execution_engine R221). -/
def step (s : State) : Host.Outcome State Fault Refusal :=
  match startStep s with
  | .ended o => o
  | .run i => finishStep (exec i s)

/-- `s` with the instruction of an opcode-table word placed where the next step fetches. -/
def State.withFetchWord (s : State) (nbits w : Nat) : State := placeWord s (tableBytes nbits w)

end Sys2Proof.Machine
end

