-- ==== Sys2Proof/Machine/Lifecycle.lean ====
section
/-! DEFINITION. The host's interactions with the block (spec 70_reset_and_hazards R277): reset, load, writing
`continuous_mode`, a step, reading the state. What the host may not do has no move here (R277). `destroy`, file loading
and allocation are software around the block (00_scope R5, 70_reset_and_hazards R276). -/

namespace Sys2Proof.Machine

/-- Reset: `initialize(imemLen, dmemLen)` (70_reset_and_hazards R270, R271). The machine keeps its parameters, and the
draw counter, so that no free value is drawn twice (log entry 7). DESIGN CHOICE, log entry 29: it revives a machine left
Aborted too, a point the spec leaves open (45_execution_engine R220, 70_reset_and_hazards R270, 60_exceptions R256). -/
def hostReset (imemLen dmemLen : Nat) (s : State) : State :=
  { State.initialized s.params imemLen dmemLen with draws := s.draws }

/-- Load: reset with IMEM_LEN the program's length, then copy the program; no length is checked
(70_reset_and_hazards R272, R274). As reset does, it revives a machine left Aborted (DESIGN CHOICE, log entry 29). -/
def hostLoad (bytes : List Byte) (dmemLen : Nat) (s : State) : State :=
  let t := hostReset bytes.length dmemLen s
  { t with imem := t.imem.writeBytes 0 bytes }

/-- Write `continuous_mode`, between steps only (10_state R35, 92 D16). -/
def hostSetContinuous (b : Bool) (s : State) : State := { s with continuousMode := b }

/-- The host's moves (70_reset_and_hazards R277). -/
inductive HostMove where
  /-- `initialize` -/
  | reset (imemLen dmemLen : Nat)
  /-- `load` -/
  | load (bytes : List Byte) (dmemLen : Nat)
  /-- write `continuous_mode` -/
  | setContinuous (b : Bool)
  /-- one step -/
  | step
  /-- read any part of the state (10_state R42) -/
  | read
  deriving DecidableEq, Repr

/-- What the block does on a host's move. -/
def hostAct (m : HostMove) (s : State) : Host.Outcome State Fault Refusal :=
  match m with
  | .reset imemLen dmemLen => .next (hostReset imemLen dmemLen s)
  | .load bytes dmemLen => .next (hostLoad bytes dmemLen s)
  | .setContinuous b => .next (hostSetContinuous b s)
  | .step => Sys2Proof.Machine.step s
  | .read => .next s

end Sys2Proof.Machine
end

