-- ==== Sys2Proof/Machine/Run.lean ====
section
/-! DEFINITION. A run of a loaded program: the sequence of states that the step produces from the state a load leaves
(spec 45_execution_engine R223, 70_reset_and_hazards R271, R272). The host may write `continuous_mode` before any step of
it; its writes are an input of the run (92 D16, log entry 18). -/

namespace Sys2Proof.Machine

/-- The next state of an outcome, if it has one. -/
def nextState : Host.Outcome State Fault Refusal → Option State
  | .next t => some t
  | .fault _ => none
  | .refused _ => none

/-- What the host writes to `continuous_mode` between two steps, if anything (10_state R35). -/
def hostWrite (b : Option Bool) (s : State) : State :=
  match b with
  | none => s
  | some v => hostSetContinuous v s

/-- One step of a run, after the host's write. -/
def runStep (b : Option Bool) (s : State) : Option State := nextState (step (hostWrite b s))

/-- The state after n steps from `s`, the host writing `w k` before the step numbered k; `none` where the run has met a
state with no step (45_execution_engine R223, R220). -/
def runAt (w : Nat → Option Bool) (s : State) : Nat → Option State
  | 0 => some s
  | n + 1 => (runAt w s n).bind (runStep (w n))

/-- The state a run of a loaded program starts from: a machine with parameters `p`, just loaded (70_reset_and_hazards
R272). -/
def loadedMachine (p : Params) (bytes : List Byte) (dmemLen : Nat) : State :=
  hostLoad bytes dmemLen (State.initialized p 0 0)

/-- The run of a loaded program (45_execution_engine R223). -/
def programRun (p : Params) (bytes : List Byte) (dmemLen : Nat) (w : Nat → Option Bool) (n : Nat) : Option State :=
  runAt w (loadedMachine p bytes dmemLen) n

end Sys2Proof.Machine
end

