-- ==== Sys2Proof/WellFormed.lean ====
section
/-! DEFINITION. Well-formedness. Every term of `Instr` is a well-formed instruction by its types (a register number is a
`Fin 16`, immediates and offsets have their widths, and an endian-swap instruction exists for the three widths only), so
what can be ill-formed is the data an instruction is encoded with and decoded from: a code map (two operations under one
code, or one under the endian-swap code), and a word (the illegal encodings of spec 30_encoding R83). -/

namespace Sys2Proof

/-- A code map the parameter ALU_OP_MAP admits: no two operations share a code, and none has the endian-swap code 0xd,
which the source itself fixes (30_encoding R79; DEDUCED, log entry 2). -/
def AluOpMap.wf (m : AluOpMap) : Bool :=
  decide ((allAluOps.map m.code).Nodup) && !((allAluOps.map m.code).contains 0xd)

/-- A code map the parameter JMP_OP_MAP admits: no two conditions share a code (30_encoding R80; DEDUCED, log entry 3). -/
def JmpOpMap.wf (m : JmpOpMap) : Bool := decide ((allJmpConds.map m.code).Nodup)

/-- Both code maps are admitted ones. -/
def OpMaps.wf (m : OpMaps) : Bool := m.alu.wf && m.jmp.wf

/-- (a) of 30_encoding R83 does not hold: the class is 4, 5 or 7. -/
def Fields.classLegal (f : Fields) : Bool := f.cls == 4 || f.cls == 5 || f.cls == 7

/-- (b) of 30_encoding R83 does not hold: an ALU64 word has a code of the map. -/
def Fields.alu64Legal (m : OpMaps) (f : Fields) : Bool := f.cls != 7 || (allAluOps.map m.alu.code).contains f.code

/-- (c) of 30_encoding R83 does not hold: a class 4 word has the endian-swap code or a code of the map. -/
def Fields.alu32Legal (m : OpMaps) (f : Fields) : Bool :=
  f.cls != 4 || f.code == 0xd || (allAluOps.map m.alu.code).contains f.code

/-- (d) of 30_encoding R83 does not hold: an endian-swap word has the width 16, 32 or 64. -/
def Fields.widthLegal (f : Fields) : Bool :=
  f.cls != 4 || f.code != 0xd || f.imm == 16 || f.imm == 32 || f.imm == 64

/-- (e) of 30_encoding R83 does not hold: a branch word has a code of the map. -/
def Fields.conditionLegal (m : OpMaps) (f : Fields) : Bool :=
  f.cls != 5 || (allJmpConds.map m.jmp.code).contains f.code

/-- The word is legal: none of (a) to (e) of 30_encoding R83 holds. -/
def Fields.legal (m : OpMaps) (f : Fields) : Bool :=
  f.classLegal && f.alu64Legal m && f.alu32Legal m && f.widthLegal && f.conditionLegal m

end Sys2Proof
end

