-- ==== Sys2Proof/Safety.lean ====
section
/-! DEFINITION. The terms the claims are stated in: what an instruction reads and writes (spec 10_state R24), the frames
(what stays as it was), the ways a unit completes, the outcomes of a run (45_execution_engine R223) and the invariants.
Values are compared as natural numbers, so that a claim says the arithmetic itself and not the model's own expression. -/

namespace Sys2Proof.Machine

/-- The one register an instruction may write, if any (10_state R24). -/
def dest? : Instr → Option Reg
  | .addK dst _ => some dst
  | .addX dst _ => some dst
  | .subK dst _ => some dst
  | .subX dst _ => some dst
  | .mulK dst _ => some dst
  | .mulX dst _ => some dst
  | .divK dst _ => some dst
  | .divX dst _ => some dst
  | .orK dst _ => some dst
  | .orX dst _ => some dst
  | .andK dst _ => some dst
  | .andX dst _ => some dst
  | .lshK dst _ => some dst
  | .lshX dst _ => some dst
  | .rshK dst _ => some dst
  | .rshX dst _ => some dst
  | .negK dst => some dst
  | .negX dst => some dst
  | .modK dst _ => some dst
  | .modX dst _ => some dst
  | .xorK dst _ => some dst
  | .xorX dst _ => some dst
  | .movK dst _ => some dst
  | .movX dst _ => some dst
  | .arshK dst _ => some dst
  | .arshX dst _ => some dst
  | .add32K dst _ => some dst
  | .add32X dst _ => some dst
  | .sub32K dst _ => some dst
  | .sub32X dst _ => some dst
  | .mul32K dst _ => some dst
  | .mul32X dst _ => some dst
  | .div32K dst _ => some dst
  | .div32X dst _ => some dst
  | .or32K dst _ => some dst
  | .or32X dst _ => some dst
  | .and32K dst _ => some dst
  | .and32X dst _ => some dst
  | .lsh32K dst _ => some dst
  | .lsh32X dst _ => some dst
  | .rsh32K dst _ => some dst
  | .rsh32X dst _ => some dst
  | .neg32K dst => some dst
  | .neg32X dst => some dst
  | .mod32K dst _ => some dst
  | .mod32X dst _ => some dst
  | .xor32K dst _ => some dst
  | .xor32X dst _ => some dst
  | .mov32K dst _ => some dst
  | .mov32X dst _ => some dst
  | .arsh32K dst _ => some dst
  | .arsh32X dst _ => some dst
  | .le16 dst => some dst
  | .le32 dst => some dst
  | .le64 dst => some dst
  | .be16 dst => some dst
  | .be32 dst => some dst
  | .be64 dst => some dst
  | .jaK _ => none
  | .jaX _ => none
  | .jeqK _ _ _ => none
  | .jeqX _ _ _ => none
  | .jgtK _ _ _ => none
  | .jgtX _ _ _ => none
  | .jgeK _ _ _ => none
  | .jgeX _ _ _ => none
  | .jsetK _ _ _ => none
  | .jsetX _ _ _ => none
  | .jneK _ _ _ => none
  | .jneX _ _ _ => none
  | .jltK _ _ _ => none
  | .jltX _ _ _ => none
  | .jleK _ _ _ => none
  | .jleX _ _ _ => none

/-- The registers an instruction reads (10_state R24, 30_encoding R82). -/
def readSet : Instr → List Reg
  | .addK dst _ => [dst]
  | .addX dst src => [dst, src]
  | .subK dst _ => [dst]
  | .subX dst src => [dst, src]
  | .mulK dst _ => [dst]
  | .mulX dst src => [dst, src]
  | .divK dst _ => [dst]
  | .divX dst src => [dst, src]
  | .orK dst _ => [dst]
  | .orX dst src => [dst, src]
  | .andK dst _ => [dst]
  | .andX dst src => [dst, src]
  | .lshK dst _ => [dst]
  | .lshX dst src => [dst, src]
  | .rshK dst _ => [dst]
  | .rshX dst src => [dst, src]
  | .negK dst => [dst]
  | .negX dst => [dst]
  | .modK dst _ => [dst]
  | .modX dst src => [dst, src]
  | .xorK dst _ => [dst]
  | .xorX dst src => [dst, src]
  | .movK _ _ => []
  | .movX _ src => [src]
  | .arshK dst _ => [dst]
  | .arshX dst src => [dst, src]
  | .add32K dst _ => [dst]
  | .add32X dst src => [dst, src]
  | .sub32K dst _ => [dst]
  | .sub32X dst src => [dst, src]
  | .mul32K dst _ => [dst]
  | .mul32X dst src => [dst, src]
  | .div32K dst _ => [dst]
  | .div32X dst src => [dst, src]
  | .or32K dst _ => [dst]
  | .or32X dst src => [dst, src]
  | .and32K dst _ => [dst]
  | .and32X dst src => [dst, src]
  | .lsh32K dst _ => [dst]
  | .lsh32X dst src => [dst, src]
  | .rsh32K dst _ => [dst]
  | .rsh32X dst src => [dst, src]
  | .neg32K dst => [dst]
  | .neg32X dst => [dst]
  | .mod32K dst _ => [dst]
  | .mod32X dst src => [dst, src]
  | .xor32K dst _ => [dst]
  | .xor32X dst src => [dst, src]
  | .mov32K _ _ => []
  | .mov32X _ src => [src]
  | .arsh32K dst _ => [dst]
  | .arsh32X dst src => [dst, src]
  | .le16 dst => [dst]
  | .le32 dst => [dst]
  | .le64 dst => [dst]
  | .be16 dst => [dst]
  | .be32 dst => [dst]
  | .be64 dst => [dst]
  | .jaK _ => []
  | .jaX _ => []
  | .jeqK dst _ _ => [dst]
  | .jeqX dst src _ => [dst, src]
  | .jgtK dst _ _ => [dst]
  | .jgtX dst src _ => [dst, src]
  | .jgeK dst _ _ => [dst]
  | .jgeX dst src _ => [dst, src]
  | .jsetK dst _ _ => [dst]
  | .jsetX dst src _ => [dst, src]
  | .jneK dst _ _ => [dst]
  | .jneX dst src _ => [dst, src]
  | .jltK dst _ _ => [dst]
  | .jltX dst src _ => [dst, src]
  | .jleK dst _ _ => [dst]
  | .jleX dst src _ => [dst, src]

/-- Every byte of both memories reads as before, and their sizes are as before. -/
def SameMemory (s t : State) : Prop :=
  t.imem.size = s.imem.size ∧ t.dmem.size = s.dmem.size ∧
    ∀ a, t.imem.readByte a = s.imem.readByte a ∧ t.dmem.readByte a = s.dmem.readByte a

/-- `cycle_count`, `continuous_mode` and the parameters are as before. -/
def SameControl (s t : State) : Prop :=
  t.cycleCount = s.cycleCount ∧ t.continuousMode = s.continuousMode ∧ t.params = s.params

/-- Every general register is as before. -/
def SameRegs (s t : State) : Prop := ∀ r, t.getReg r = s.getReg r

/-- Nothing but `x[dst]` has changed, the step's result code and the draw counter aside: the frame of an instruction that
writes a register (41_alu64 R116, 42_alu32 R156). -/
def RegFrame (dst : Reg) (s t : State) : Prop :=
  (∀ r, r ≠ dst → t.getReg r = s.getReg r) ∧ t.ip = s.ip ∧ t.status = s.status ∧ SameControl s t ∧ SameMemory s t

/-- The unit completes the instruction, writes the value `v` to `x[dst]`, draws `drawn` free values, and changes nothing
else. -/
def CompletesWith (i : Instr) (s : State) (dst : Reg) (v : Nat) (drawn : Nat := 0) : Prop :=
  ∃ t, exec i s = .next t ∧ (t.getReg dst).toNat = v ∧ t.result = some .success ∧ t.draws = s.draws + drawn ∧
    RegFrame dst s t

/-- The unit records a DivideByZero fault: both flags, the third as it was, no register, no `ip`, no memory changed
(60_exceptions R243). -/
def DividesByZero (i : Instr) (s : State) : Prop :=
  ∃ t, exec i s = .next t ∧ t.status.divideByZero = true ∧ t.status.halted = true ∧
    t.status.illegalInstruction = s.status.illegalInstruction ∧ t.result = some .divideByZero ∧ t.ip = s.ip ∧
    t.draws = s.draws ∧ SameRegs s t ∧ SameControl s t ∧ SameMemory s t

/-- The branch unit completes, adds `disp` to `ip` modulo 2^64, and changes nothing else (44_branch R190, R191). -/
def MovesIpBy (i : Instr) (s : State) (disp : Int) : Prop :=
  ∃ t, exec i s = .next t ∧ (t.ip.toNat : Int) = ((s.ip.toNat : Int) + disp) % 2 ^ 64 ∧ t.result = some .success ∧
    t.status = s.status ∧ t.draws = s.draws ∧ SameRegs s t ∧ SameControl s t ∧ SameMemory s t

/-- A branch with the byte offset `off` and the condition `c`: taken it moves `ip` by the signed offset, not taken it
leaves `ip` alone. -/
def BranchesOn (i : Instr) (s : State) (off : BitVec 16) (c : Prop) : Prop :=
  (c → MovesIpBy i s off.toInt) ∧ (¬ c → MovesIpBy i s 0)

/-- Under every admitted pair of code maps, a word of the class with the operation's code is the instruction `k` in the K
form and `x` in the X form, whatever its other fields hold (30_encoding R74, R79, R82, R84). -/
def EncodesAlu (cls : BitVec 3) (op : AluOp) (k x : Fields → Instr) : Prop :=
  ∀ (m : OpMaps) (f : Fields), m.wf = true → f.cls = cls → f.code = m.alu.code op →
    classify m f = .ok (if f.mode then x f else k f)

/-- The same for a branch condition (30_encoding R80). -/
def EncodesJmp (c : JmpCond) (k x : Fields → Instr) : Prop :=
  ∀ (m : OpMaps) (f : Fields), m.wf = true → f.cls = 5 → f.code = m.jmp.code c →
    classify m f = .ok (if f.mode then x f else k f)

/-- A class 4 word with the endian-swap code, the mode and the width is the instruction `i` (43_endian_swap R180). -/
def EncodesEnd (mode : Bool) (width : BitVec 32) (i : Reg → Instr) : Prop :=
  ∀ (m : OpMaps) (f : Fields), f.cls = 4 → f.code = 0xd → f.mode = mode → f.imm = width →
    classify m f = .ok (i f.dstReg)

/-- The shift amount a 64-bit shift by the right-hand value `v` takes, where it is determined (41_alu64 R115). -/
def ShiftsBy64 (s : State) (v n : Nat) : Prop :=
  (s.params.shiftAmountPolicy = .mask ∧ n = v % 64) ∨ (s.params.shiftAmountPolicy = .draw ∧ v < 64 ∧ n = v)

/-- The shift amount a 32-bit shift by the truncated right-hand value `v` takes, where it is determined
(42_alu32 R155). -/
def ShiftsBy32 (s : State) (v n : Nat) : Prop :=
  (s.params.shiftAmountPolicy = .mask ∧ n = v % 32) ∨ (s.params.shiftAmountPolicy = .draw ∧ v < 32 ∧ n = v)

/-- A 64-bit shift instruction: the value `f n` for the amount n where it is determined, and under DRAW, for an amount of
64 or more, whatever the free value is (41_alu64 R115). -/
def Shifts64 (i : Instr) (s : State) (dst : Reg) (rhs : Nat) (f : Nat → Nat) : Prop :=
  (∀ n, ShiftsBy64 s rhs n → CompletesWith i s dst (f n)) ∧
    (s.params.shiftAmountPolicy = .draw → 64 ≤ rhs → CompletesWith i s dst (Config.draw64 s.draws).toNat 1)

/-- A 32-bit shift instruction, likewise; a drawn value is a 32-bit one, zero-extended (42_alu32 R155). -/
def Shifts32 (i : Instr) (s : State) (dst : Reg) (rhs : Nat) (f : Nat → Nat) : Prop :=
  (∀ n, ShiftsBy32 s rhs n → CompletesWith i s dst (f n)) ∧
    (s.params.shiftAmountPolicy = .draw → 32 ≤ rhs → CompletesWith i s dst (Config.draw32 s.draws).toNat 1)

/-- The arithmetic shift right of a value below 2^w by n: SIGN_BIT_ONLY sets the sign bit again, SIGN_EXTEND fills with
the sign, written here as the complement of the complement's shift (41_alu64 R113, 42_alu32 R153). -/
def arithShift (m : ArshMode) (w v n : Nat) : Nat :=
  match m with
  | .signBitOnly => v / 2 ^ n ||| (if 2 ^ (w - 1) ≤ v then 2 ^ (w - 1) else 0)
  | .signExtend => if 2 ^ (w - 1) ≤ v then 2 ^ w - 1 - (2 ^ w - 1 - v) / 2 ^ n else v / 2 ^ n

/-- NEG of a value below 2^w (41_alu64 R109, 42_alu32 R149). -/
def negated (m : NegMode) (w v : Nat) : Nat :=
  match m with
  | .complement => 2 ^ w - 1 - v
  | .twosComplement => (2 ^ w - v) % 2 ^ w

/-- Byte k of a number. -/
def natByte (v k : Nat) : Nat := v / 256 ^ k % 256

/-- The instruction completes with the low W bits of `x[dst]`, as a number of W bits (43_endian_swap R185). -/
def KeepsLow (i : Instr) (s : State) (dst : Reg) (w : Nat) : Prop :=
  CompletesWith i s dst ((s.getReg dst).toNat % 2 ^ w)

/-- The instruction completes with the W-bit number whose byte k is byte W/8 - 1 - k of `x[dst]` (43_endian_swap R184,
R185). -/
def ReversesLow (i : Instr) (s : State) (dst : Reg) (w : Nat) : Prop :=
  ∃ v, CompletesWith i s dst v ∧ v < 2 ^ w ∧
    ∀ k, k < w / 8 → natByte v k = natByte (s.getReg dst).toNat (w / 8 - 1 - k)

/-- The outcome with a function applied to its next state. -/
def mapNext (g : State → State) : Host.Outcome State Fault Refusal → Host.Outcome State Fault Refusal
  | .next t => .next (g t)
  | .fault e => .fault e
  | .refused e => .refused e

/-- The engine is running: not halted, and not stuck after the outcome Aborted (10_state R38, 45_execution_engine
R220). -/
def Running (s : State) : Prop := s.status.halted = false ∧ s.result ≠ some .aborted

/-- A fetch at `ip` succeeds (20_memory R52). -/
def FetchOk (s : State) : Prop := s.ip.toNat < s.imem.size ∧ (s.imem.size - s.ip.toNat) % 8 = 0

/-- The machine is running and the next step fetches a word with these fields. -/
def Fetches (s : State) (f : Fields) : Prop :=
  Running s ∧ FetchOk s ∧ f = fieldsOfWord (leWord (s.imem.readBytes s.ip.toNat 8))

/-- Sub-steps 4 and 5, from the state `u` a unit leaves to the state `t` after the step: `ip` moves on by 8 modulo 2^64,
and, where it then equals IMEM_LEN, is rewound in continuous mode and HALTED is set otherwise; `cycle_count` grows by one
modulo 2^64 (45_execution_engine R217, R218). -/
def Advanced (u t : State) : Prop :=
  let next := (u.ip.toNat + 8) % 2 ^ 64
  t.ip.toNat = (if next = u.imem.size ∧ u.continuousMode = true then 0 else next) ∧
    t.status.halted = (u.status.halted || (decide (next = u.imem.size) && !u.continuousMode)) ∧
    t.status.illegalInstruction = u.status.illegalInstruction ∧ t.status.divideByZero = u.status.divideByZero ∧
    t.cycleCount.toNat = (u.cycleCount.toNat + 1) % 2 ^ 64 ∧
    t.continuousMode = u.continuousMode ∧ t.params = u.params ∧ t.draws = u.draws ∧ t.result = u.result ∧
    SameRegs u t ∧ SameMemory u t

/-- The step ends in the IllegalInstruction fault of a unit: the flags, no register, then sub-steps 4 and 5
(60_exceptions R241, R243, 45_execution_engine R216). -/
def UnitIllegal (s : State) : Prop :=
  ∃ t, step s = .next t ∧ t.result = some .illegalInstruction ∧ t.status.illegalInstruction = true ∧
    t.status.halted = true ∧ t.status.divideByZero = s.status.divideByZero ∧ SameRegs s t ∧ SameMemory s t ∧
    t.continuousMode = s.continuousMode ∧ t.params = s.params ∧ t.draws = s.draws ∧
    t.cycleCount.toNat = (s.cycleCount.toNat + 1) % 2 ^ 64 ∧
    t.ip.toNat = (if (s.ip.toNat + 8) % 2 ^ 64 = s.imem.size ∧ s.continuousMode = true then 0
      else (s.ip.toNat + 8) % 2 ^ 64)

/-- The step has left the outcome Aborted (45_execution_engine R220). -/
def Aborted (s : State) : Prop := s.result = some .aborted

/-- A run has ended: HALTED is set, and the outcome is not Aborted, which is no ending (45_execution_engine R223). -/
def Ended (s : State) : Prop := s.status.halted = true ∧ ¬ Aborted s

/-- A run has ended cleanly: neither fault flag is set (45_execution_engine R223). -/
def EndedClean (s : State) : Prop :=
  Ended s ∧ s.status.illegalInstruction = false ∧ s.status.divideByZero = false

/-- A run has ended faulted: otherwise (45_execution_engine R223). -/
def EndedFaulted (s : State) : Prop :=
  Ended s ∧ (s.status.illegalInstruction = true ∨ s.status.divideByZero = true)

/-- The step from here answers FetchFailed (45_execution_engine R223, 60_exceptions R242). -/
def FetchStuck (s : State) : Prop := ∃ t, step s = .next t ∧ t.result = some .fetchFailed

/-- A stuck state, which is no ending: its step answers FetchFailed, or it was reached by Aborted
(45_execution_engine R223). -/
def Stuck (s : State) : Prop := FetchStuck s ∨ Aborted s

/-- The machine is as it was: only `continuous_mode`, which the host writes, and the step's result code, which is the
model's own field, may differ (45_execution_engine R212, R213, R223). -/
def SameMachine (s t : State) : Prop := t = { s with continuousMode := t.continuousMode, result := t.result }

/-- A run ends at step n in the state t, the first ended state of the run (45_execution_engine R223). -/
def RunEndsAt (w : Nat → Option Bool) (s : State) (n : Nat) (t : State) : Prop :=
  runAt w s n = some t ∧ Ended t ∧ ∀ m u, m < n → runAt w s m = some u → ¬ Ended u

/-- A run never ends: no state of it is an ended one (45_execution_engine R223). -/
def RunNeverEnds (w : Nat → Option Bool) (s : State) : Prop := ∀ n t, runAt w s n = some t → ¬ Ended t

/-- The model's invariant: both memories are canonical, a fault flag is never set without HALTED (10_state R33,
60_exceptions R241), and a reported fault or Aborted outcome has its flag. -/
def MachineInv (s : State) : Prop :=
  s.imem.wf = true ∧ s.dmem.wf = true ∧
    (s.status.illegalInstruction = true → s.status.halted = true) ∧
    (s.status.divideByZero = true → s.status.halted = true) ∧
    (s.result = some .illegalInstruction ∨ s.result = some .aborted → s.status.illegalInstruction = true) ∧
    (s.result = some .divideByZero → s.status.divideByZero = true)

/-- Every branch word of the loaded program has an offset that is a multiple of 8 (10_state R28, 90 C8). -/
def BranchesByWords (s : State) : Prop :=
  ∀ a, a % 8 = 0 → a < s.imem.size →
    (fieldsOfWord (leWord (s.imem.readBytes a 8))).cls = 5 →
    (fieldsOfWord (leWord (s.imem.readBytes a 8))).off.toNat % 8 = 0

/-- The alignment invariant of 90 C8: a program of whole words, all of whose branch offsets are multiples of 8, and `ip`
a multiple of 8. -/
def AlignedInv (s : State) : Prop :=
  s.imem.size % 8 = 0 ∧ BranchesByWords s ∧ s.ip.toNat % 8 = 0

end Sys2Proof.Machine
end

