-- ==== Sys2Proof/Certificates/Slice0/Obligations.lean ====
section
/-! DEFINITION. The statements for the provers. Each is for every state, reachable or not, and for every value of the
parameters in `State.params` unless it names one. The words they are written in are defined in Safety.lean.
Where a frame says that the parameters are as before, it speaks of the model's own field `params` (log entry 1). -/

open Sys2Proof Sys2Proof.Machine

/-- add writes x[dst] + RHS modulo 2^64, in both forms, and nothing else. The encoding clause, that the word is this
instruction whatever its unread fields hold and under every admitted ALU_OP_MAP, rests on the spec's own decision
D22 (log entry 21) and on the model's reading of R79 (DEDUCED, log entry 2).
(R101, R74, R79, R82, R84, D22 (92_eei_decisions)) -/
def Obligations.Add64WritesTheSum : Prop :=
  EncodesAlu 7 .add (fun f => .addK f.dstReg f.imm) (fun f => .addX f.dstReg f.srcReg) ∧
  ∀ (s : State) (dst src : Reg) (imm : BitVec 32),
    CompletesWith (.addK dst imm) s dst (((s.getReg dst).toNat + imm.toNat) % 2 ^ 64) ∧
    CompletesWith (.addX dst src) s dst (((s.getReg dst).toNat + (s.getReg src).toNat) % 2 ^ 64)

/-- sub writes x[dst] - RHS modulo 2^64, in both forms, and nothing else. The encoding clause, that the word is this
instruction whatever its unread fields hold and under every admitted ALU_OP_MAP, rests on the spec's own decision
D22 (log entry 21) and on the model's reading of R79 (DEDUCED, log entry 2).
(R102, R74, R79, R82, R84, D22 (92_eei_decisions)) -/
def Obligations.Sub64WritesTheDifference : Prop :=
  EncodesAlu 7 .sub (fun f => .subK f.dstReg f.imm) (fun f => .subX f.dstReg f.srcReg) ∧
  ∀ (s : State) (dst src : Reg) (imm : BitVec 32),
    CompletesWith (.subK dst imm) s dst (((s.getReg dst).toNat + 2 ^ 64 - imm.toNat) % 2 ^ 64) ∧
    CompletesWith (.subX dst src) s dst (((s.getReg dst).toNat + 2 ^ 64 - (s.getReg src).toNat) % 2 ^ 64)

/-- mul writes the low 64 bits of the product, in both forms, and nothing else. The encoding clause, that the word is
this instruction whatever its unread fields hold and under every admitted ALU_OP_MAP, rests on the spec's own
decision D22 (log entry 21) and on the model's reading of R79 (DEDUCED, log entry 2).
(R103, R74, R79, R82, R84, D22 (92_eei_decisions)) -/
def Obligations.Mul64WritesTheLowProduct : Prop :=
  EncodesAlu 7 .mul (fun f => .mulK f.dstReg f.imm) (fun f => .mulX f.dstReg f.srcReg) ∧
  ∀ (s : State) (dst src : Reg) (imm : BitVec 32),
    CompletesWith (.mulK dst imm) s dst ((s.getReg dst).toNat * imm.toNat % 2 ^ 64) ∧
    CompletesWith (.mulX dst src) s dst ((s.getReg dst).toNat * (s.getReg src).toNat % 2 ^ 64)

/-- div writes the unsigned quotient, and faults on a zero divisor. That division is unsigned is the spec's own decision
D4 (log entry 4). The encoding clause, that the word is this instruction whatever its unread fields hold and under
every admitted ALU_OP_MAP, rests on the spec's own decision D22 (log entry 21) and on the model's reading of R79
(DEDUCED, log entry 2).
(R104, D4 (92_eei_decisions), R74, R79, R82, R84, D22 (92_eei_decisions)) -/
def Obligations.Div64WritesTheQuotientOrFaults : Prop :=
  EncodesAlu 7 .div (fun f => .divK f.dstReg f.imm) (fun f => .divX f.dstReg f.srcReg) ∧
  ∀ (s : State) (dst src : Reg) (imm : BitVec 32),
    (imm.toNat = 0 → DividesByZero (.divK dst imm) s) ∧
    ((s.getReg src).toNat = 0 → DividesByZero (.divX dst src) s) ∧
    (imm.toNat ≠ 0 → CompletesWith (.divK dst imm) s dst ((s.getReg dst).toNat / imm.toNat)) ∧
    ((s.getReg src).toNat ≠ 0 → CompletesWith (.divX dst src) s dst ((s.getReg dst).toNat / (s.getReg src).toNat))

/-- or, and, xor write the bitwise result on 64 bits, in both forms, and nothing else. The encoding clause, that the
word is this instruction whatever its unread fields hold and under every admitted ALU_OP_MAP, rests on the spec's
own decision D22 (log entry 21) and on the model's reading of R79 (DEDUCED, log entry 2).
(R105, R106, R111, R74, R79, R82, R84, D22 (92_eei_decisions)) -/
def Obligations.Bitwise64WritesBitByBit : Prop :=
  EncodesAlu 7 .or (fun f => .orK f.dstReg f.imm) (fun f => .orX f.dstReg f.srcReg) ∧
  EncodesAlu 7 .and (fun f => .andK f.dstReg f.imm) (fun f => .andX f.dstReg f.srcReg) ∧
  EncodesAlu 7 .xor (fun f => .xorK f.dstReg f.imm) (fun f => .xorX f.dstReg f.srcReg) ∧
  ∀ (s : State) (dst src : Reg) (imm : BitVec 32),
    CompletesWith (.orK dst imm) s dst ((s.getReg dst).toNat ||| imm.toNat) ∧
    CompletesWith (.orX dst src) s dst ((s.getReg dst).toNat ||| (s.getReg src).toNat) ∧
    CompletesWith (.andK dst imm) s dst ((s.getReg dst).toNat &&& imm.toNat) ∧
    CompletesWith (.andX dst src) s dst ((s.getReg dst).toNat &&& (s.getReg src).toNat) ∧
    CompletesWith (.xorK dst imm) s dst ((s.getReg dst).toNat ^^^ imm.toNat) ∧
    CompletesWith (.xorX dst src) s dst ((s.getReg dst).toNat ^^^ (s.getReg src).toNat)

/-- lsh and rsh, under both values of SHIFT_AMOUNT_POLICY. The policy is the spec's own parameter D5 (log entry 6). The
free value is only named, nothing rests on what it is. The encoding clause, that the word is this instruction
whatever its unread fields hold and under every admitted ALU_OP_MAP, rests on the spec's own decision D22 (log entry
21) and on the model's reading of R79 (DEDUCED, log entry 2).
(R107, R108, R115, D5 (92_eei_decisions), R74, R79, R82, R84, D22 (92_eei_decisions)) -/
def Obligations.Shift64MovesBitsUnderBothPolicies : Prop :=
  EncodesAlu 7 .lsh (fun f => .lshK f.dstReg f.imm) (fun f => .lshX f.dstReg f.srcReg) ∧
  EncodesAlu 7 .rsh (fun f => .rshK f.dstReg f.imm) (fun f => .rshX f.dstReg f.srcReg) ∧
  ∀ (s : State) (dst src : Reg) (imm : BitVec 32),
    Shifts64 (.lshK dst imm) s dst imm.toNat (fun n => (s.getReg dst).toNat * 2 ^ n % 2 ^ 64) ∧
    Shifts64 (.lshX dst src) s dst (s.getReg src).toNat (fun n => (s.getReg dst).toNat * 2 ^ n % 2 ^ 64) ∧
    Shifts64 (.rshK dst imm) s dst imm.toNat (fun n => (s.getReg dst).toNat / 2 ^ n) ∧
    Shifts64 (.rshX dst src) s dst (s.getReg src).toNat (fun n => (s.getReg dst).toNat / 2 ^ n)

/-- neg, under both values of NEG_MODE, the spec's own parameter D7 (log entry 9). The encoding clause, that the word is
this instruction whatever its unread fields hold and under every admitted ALU_OP_MAP, rests on the spec's own
decision D22 (log entry 21) and on the model's reading of R79 (DEDUCED, log entry 2).
(R109, D7 (92_eei_decisions), R74, R79, R82, R84, D22 (92_eei_decisions)) -/
def Obligations.Neg64NegatesUnderBothModes : Prop :=
  EncodesAlu 7 .neg (fun f => .negK f.dstReg) (fun f => .negX f.dstReg) ∧
  ∀ (s : State) (dst : Reg),
    CompletesWith (.negK dst) s dst (negated s.params.negMode 64 (s.getReg dst).toNat) ∧
    CompletesWith (.negX dst) s dst (negated s.params.negMode 64 (s.getReg dst).toNat)

/-- mod writes the unsigned remainder, and faults on a zero divisor. That division is unsigned is the spec's own
decision D4 (log entry 4). The encoding clause, that the word is this instruction whatever its unread fields hold
and under every admitted ALU_OP_MAP, rests on the spec's own decision D22 (log entry 21) and on the model's reading
of R79 (DEDUCED, log entry 2).
(R110, D4 (92_eei_decisions), R74, R79, R82, R84, D22 (92_eei_decisions)) -/
def Obligations.Mod64WritesTheRemainderOrFaults : Prop :=
  EncodesAlu 7 .mod (fun f => .modK f.dstReg f.imm) (fun f => .modX f.dstReg f.srcReg) ∧
  ∀ (s : State) (dst src : Reg) (imm : BitVec 32),
    (imm.toNat = 0 → DividesByZero (.modK dst imm) s) ∧
    ((s.getReg src).toNat = 0 → DividesByZero (.modX dst src) s) ∧
    (imm.toNat ≠ 0 → CompletesWith (.modK dst imm) s dst ((s.getReg dst).toNat % imm.toNat)) ∧
    ((s.getReg src).toNat ≠ 0 → CompletesWith (.modX dst src) s dst ((s.getReg dst).toNat % (s.getReg src).toNat))

/-- mov writes RHS, the immediate zero-extended, in both forms, and nothing else. The encoding clause, that the word is
this instruction whatever its unread fields hold and under every admitted ALU_OP_MAP, rests on the spec's own
decision D22 (log entry 21) and on the model's reading of R79 (DEDUCED, log entry 2).
(R112, R74, R79, R82, R84, D22 (92_eei_decisions)) -/
def Obligations.Mov64AssignsTheOperand : Prop :=
  EncodesAlu 7 .mov (fun f => .movK f.dstReg f.imm) (fun f => .movX f.dstReg f.srcReg) ∧
  ∀ (s : State) (dst src : Reg) (imm : BitVec 32),
    CompletesWith (.movK dst imm) s dst (imm.toNat) ∧
    CompletesWith (.movX dst src) s dst ((s.getReg src).toNat)

/-- arsh, under both values of ARSH_MODE and of SHIFT_AMOUNT_POLICY, the spec's own parameters D6 and D5 (log entries 8
and 6). The encoding clause, that the word is this instruction whatever its unread fields hold and under every
admitted ALU_OP_MAP, rests on the spec's own decision D22 (log entry 21) and on the model's reading of R79 (DEDUCED,
log entry 2).
(R113, R115, D5 (92_eei_decisions), D6 (92_eei_decisions), R74, R79, R82, R84, D22 (92_eei_decisions)) -/
def Obligations.Arsh64KeepsTheSignUnderBothModes : Prop :=
  EncodesAlu 7 .arsh (fun f => .arshK f.dstReg f.imm) (fun f => .arshX f.dstReg f.srcReg) ∧
  ∀ (s : State) (dst src : Reg) (imm : BitVec 32),
    Shifts64 (.arshK dst imm) s dst imm.toNat (arithShift s.params.arshMode 64 (s.getReg dst).toNat) ∧
    Shifts64 (.arshX dst src) s dst (s.getReg src).toNat (arithShift s.params.arshMode 64 (s.getReg dst).toNat)

/-- add32 writes the sum of the low halves modulo 2^32, zero-extended, in both forms. The encoding clause, that the word
is this instruction whatever its unread fields hold and under every admitted ALU_OP_MAP, rests on the spec's own
decision D22 (log entry 21) and on the model's reading of R79 (DEDUCED, log entry 2).
(R141, R74, R79, R82, R84, D22 (92_eei_decisions)) -/
def Obligations.Add32WritesTheSum : Prop :=
  EncodesAlu 4 .add (fun f => .add32K f.dstReg f.imm) (fun f => .add32X f.dstReg f.srcReg) ∧
  ∀ (s : State) (dst src : Reg) (imm : BitVec 32),
    CompletesWith (.add32K dst imm) s dst (((s.getReg dst).toNat % 2 ^ 32 + imm.toNat) % 2 ^ 32) ∧
    CompletesWith (.add32X dst src) s dst (((s.getReg dst).toNat % 2 ^ 32 + (s.getReg src).toNat % 2 ^ 32) % 2 ^ 32)

/-- sub32 writes the difference of the low halves modulo 2^32, zero-extended, in both forms. The encoding clause, that
the word is this instruction whatever its unread fields hold and under every admitted ALU_OP_MAP, rests on the
spec's own decision D22 (log entry 21) and on the model's reading of R79 (DEDUCED, log entry 2).
(R142, R74, R79, R82, R84, D22 (92_eei_decisions)) -/
def Obligations.Sub32WritesTheDifference : Prop :=
  EncodesAlu 4 .sub (fun f => .sub32K f.dstReg f.imm) (fun f => .sub32X f.dstReg f.srcReg) ∧
  ∀ (s : State) (dst src : Reg) (imm : BitVec 32),
    CompletesWith (.sub32K dst imm) s dst (((s.getReg dst).toNat % 2 ^ 32 + 2 ^ 32 - imm.toNat) % 2 ^ 32) ∧
    CompletesWith (.sub32X dst src) s dst (((s.getReg dst).toNat % 2 ^ 32 + 2 ^ 32 - (s.getReg src).toNat % 2 ^ 32) % 2 ^ 32)

/-- mul32 writes the low 32 bits of the product, zero-extended, in both forms. The encoding clause, that the word is
this instruction whatever its unread fields hold and under every admitted ALU_OP_MAP, rests on the spec's own
decision D22 (log entry 21) and on the model's reading of R79 (DEDUCED, log entry 2).
(R143, R74, R79, R82, R84, D22 (92_eei_decisions)) -/
def Obligations.Mul32WritesTheLowProduct : Prop :=
  EncodesAlu 4 .mul (fun f => .mul32K f.dstReg f.imm) (fun f => .mul32X f.dstReg f.srcReg) ∧
  ∀ (s : State) (dst src : Reg) (imm : BitVec 32),
    CompletesWith (.mul32K dst imm) s dst (((s.getReg dst).toNat % 2 ^ 32) * imm.toNat % 2 ^ 32) ∧
    CompletesWith (.mul32X dst src) s dst (((s.getReg dst).toNat % 2 ^ 32) * ((s.getReg src).toNat % 2 ^ 32) % 2 ^ 32)

/-- div32 writes the unsigned quotient, and faults on a zero divisor. That division is unsigned is the spec's own
decision D4 (log entry 4). That the divisor tested is the truncated one, and that a fault leaves the whole register
unchanged, is its decision D10 (log entry 12). The encoding clause, that the word is this instruction whatever its
unread fields hold and under every admitted ALU_OP_MAP, rests on the spec's own decision D22 (log entry 21) and on
the model's reading of R79 (DEDUCED, log entry 2).
(R144, D4 (92_eei_decisions), D10 (92_eei_decisions), R74, R79, R82, R84, D22 (92_eei_decisions)) -/
def Obligations.Div32WritesTheQuotientOrFaults : Prop :=
  EncodesAlu 4 .div (fun f => .div32K f.dstReg f.imm) (fun f => .div32X f.dstReg f.srcReg) ∧
  ∀ (s : State) (dst src : Reg) (imm : BitVec 32),
    (imm.toNat = 0 → DividesByZero (.div32K dst imm) s) ∧
    (((s.getReg src).toNat % 2 ^ 32) = 0 → DividesByZero (.div32X dst src) s) ∧
    (imm.toNat ≠ 0 → CompletesWith (.div32K dst imm) s dst (((s.getReg dst).toNat % 2 ^ 32) / imm.toNat)) ∧
    (((s.getReg src).toNat % 2 ^ 32) ≠ 0 → CompletesWith (.div32X dst src) s dst (((s.getReg dst).toNat % 2 ^ 32) / ((s.getReg src).toNat % 2 ^ 32)))

/-- or32, and32, xor32 write the bitwise result of the low halves, zero-extended, in both forms. The encoding clause,
that the word is this instruction whatever its unread fields hold and under every admitted ALU_OP_MAP, rests on the
spec's own decision D22 (log entry 21) and on the model's reading of R79 (DEDUCED, log entry 2).
(R145, R146, R151, R74, R79, R82, R84, D22 (92_eei_decisions)) -/
def Obligations.Bitwise32WritesBitByBit : Prop :=
  EncodesAlu 4 .or (fun f => .or32K f.dstReg f.imm) (fun f => .or32X f.dstReg f.srcReg) ∧
  EncodesAlu 4 .and (fun f => .and32K f.dstReg f.imm) (fun f => .and32X f.dstReg f.srcReg) ∧
  EncodesAlu 4 .xor (fun f => .xor32K f.dstReg f.imm) (fun f => .xor32X f.dstReg f.srcReg) ∧
  ∀ (s : State) (dst src : Reg) (imm : BitVec 32),
    CompletesWith (.or32K dst imm) s dst (((s.getReg dst).toNat % 2 ^ 32) ||| imm.toNat) ∧
    CompletesWith (.or32X dst src) s dst (((s.getReg dst).toNat % 2 ^ 32) ||| ((s.getReg src).toNat % 2 ^ 32)) ∧
    CompletesWith (.and32K dst imm) s dst (((s.getReg dst).toNat % 2 ^ 32) &&& imm.toNat) ∧
    CompletesWith (.and32X dst src) s dst (((s.getReg dst).toNat % 2 ^ 32) &&& ((s.getReg src).toNat % 2 ^ 32)) ∧
    CompletesWith (.xor32K dst imm) s dst (((s.getReg dst).toNat % 2 ^ 32) ^^^ imm.toNat) ∧
    CompletesWith (.xor32X dst src) s dst (((s.getReg dst).toNat % 2 ^ 32) ^^^ ((s.getReg src).toNat % 2 ^ 32))

/-- lsh32 and rsh32, under both values of SHIFT_AMOUNT_POLICY, the spec's own parameter D5 (log entry 6). The free value
is only named, nothing rests on what it is. The encoding clause, that the word is this instruction whatever its
unread fields hold and under every admitted ALU_OP_MAP, rests on the spec's own decision D22 (log entry 21) and on
the model's reading of R79 (DEDUCED, log entry 2).
(R147, R148, R155, D5 (92_eei_decisions), R74, R79, R82, R84, D22 (92_eei_decisions)) -/
def Obligations.Shift32MovesBitsUnderBothPolicies : Prop :=
  EncodesAlu 4 .lsh (fun f => .lsh32K f.dstReg f.imm) (fun f => .lsh32X f.dstReg f.srcReg) ∧
  EncodesAlu 4 .rsh (fun f => .rsh32K f.dstReg f.imm) (fun f => .rsh32X f.dstReg f.srcReg) ∧
  ∀ (s : State) (dst src : Reg) (imm : BitVec 32),
    Shifts32 (.lsh32K dst imm) s dst imm.toNat (fun n => (s.getReg dst).toNat % 2 ^ 32 * 2 ^ n % 2 ^ 32) ∧
    Shifts32 (.lsh32X dst src) s dst ((s.getReg src).toNat % 2 ^ 32) (fun n => (s.getReg dst).toNat % 2 ^ 32 * 2 ^ n % 2 ^ 32) ∧
    Shifts32 (.rsh32K dst imm) s dst imm.toNat (fun n => (s.getReg dst).toNat % 2 ^ 32 / 2 ^ n) ∧
    Shifts32 (.rsh32X dst src) s dst ((s.getReg src).toNat % 2 ^ 32) (fun n => (s.getReg dst).toNat % 2 ^ 32 / 2 ^ n)

/-- neg32, under both values of NEG_MODE, the spec's own parameter D7 (log entry 9). The encoding clause, that the word
is this instruction whatever its unread fields hold and under every admitted ALU_OP_MAP, rests on the spec's own
decision D22 (log entry 21) and on the model's reading of R79 (DEDUCED, log entry 2).
(R149, D7 (92_eei_decisions), R74, R79, R82, R84, D22 (92_eei_decisions)) -/
def Obligations.Neg32NegatesUnderBothModes : Prop :=
  EncodesAlu 4 .neg (fun f => .neg32K f.dstReg) (fun f => .neg32X f.dstReg) ∧
  ∀ (s : State) (dst : Reg),
    CompletesWith (.neg32K dst) s dst (negated s.params.negMode 32 ((s.getReg dst).toNat % 2 ^ 32)) ∧
    CompletesWith (.neg32X dst) s dst (negated s.params.negMode 32 ((s.getReg dst).toNat % 2 ^ 32))

/-- mod32 writes the unsigned remainder, and faults on a zero divisor. That division is unsigned is the spec's own
decision D4 (log entry 4). That the divisor tested is the truncated one, and that a fault leaves the whole register
unchanged, is its decision D10 (log entry 12). The encoding clause, that the word is this instruction whatever its
unread fields hold and under every admitted ALU_OP_MAP, rests on the spec's own decision D22 (log entry 21) and on
the model's reading of R79 (DEDUCED, log entry 2).
(R150, D4 (92_eei_decisions), D10 (92_eei_decisions), R74, R79, R82, R84, D22 (92_eei_decisions)) -/
def Obligations.Mod32WritesTheRemainderOrFaults : Prop :=
  EncodesAlu 4 .mod (fun f => .mod32K f.dstReg f.imm) (fun f => .mod32X f.dstReg f.srcReg) ∧
  ∀ (s : State) (dst src : Reg) (imm : BitVec 32),
    (imm.toNat = 0 → DividesByZero (.mod32K dst imm) s) ∧
    (((s.getReg src).toNat % 2 ^ 32) = 0 → DividesByZero (.mod32X dst src) s) ∧
    (imm.toNat ≠ 0 → CompletesWith (.mod32K dst imm) s dst (((s.getReg dst).toNat % 2 ^ 32) % imm.toNat)) ∧
    (((s.getReg src).toNat % 2 ^ 32) ≠ 0 → CompletesWith (.mod32X dst src) s dst (((s.getReg dst).toNat % 2 ^ 32) % ((s.getReg src).toNat % 2 ^ 32)))

/-- mov32 writes the low 32 bits of RHS, zero-extended, in both forms, and nothing else. The encoding clause, that the
word is this instruction whatever its unread fields hold and under every admitted ALU_OP_MAP, rests on the spec's
own decision D22 (log entry 21) and on the model's reading of R79 (DEDUCED, log entry 2).
(R152, R74, R79, R82, R84, D22 (92_eei_decisions)) -/
def Obligations.Mov32AssignsTheLowHalf : Prop :=
  EncodesAlu 4 .mov (fun f => .mov32K f.dstReg f.imm) (fun f => .mov32X f.dstReg f.srcReg) ∧
  ∀ (s : State) (dst src : Reg) (imm : BitVec 32),
    CompletesWith (.mov32K dst imm) s dst (imm.toNat) ∧
    CompletesWith (.mov32X dst src) s dst ((s.getReg src).toNat % 2 ^ 32)

/-- arsh32, under both values of ARSH_MODE and of SHIFT_AMOUNT_POLICY, the spec's own parameters D6 and D5 (log entries
8 and 6). The encoding clause, that the word is this instruction whatever its unread fields hold and under every
admitted ALU_OP_MAP, rests on the spec's own decision D22 (log entry 21) and on the model's reading of R79 (DEDUCED,
log entry 2).
(R153, R155, D5 (92_eei_decisions), D6 (92_eei_decisions), R74, R79, R82, R84, D22 (92_eei_decisions)) -/
def Obligations.Arsh32KeepsTheSignUnderBothModes : Prop :=
  EncodesAlu 4 .arsh (fun f => .arsh32K f.dstReg f.imm) (fun f => .arsh32X f.dstReg f.srcReg) ∧
  ∀ (s : State) (dst src : Reg) (imm : BitVec 32),
    Shifts32 (.arsh32K dst imm) s dst imm.toNat (arithShift s.params.arshMode 32 ((s.getReg dst).toNat % 2 ^ 32)) ∧
    Shifts32 (.arsh32X dst src) s dst ((s.getReg src).toNat % 2 ^ 32) (arithShift s.params.arshMode 32 ((s.getReg dst).toNat % 2 ^ 32))

/-- le16, le32 and le64, under both values of HOST_ORDER. HOST_ORDER and the clearing of the upper bits are the spec's
own decisions D8 and D9 (log entries 10 and 11). The encoding clause, that the word is this instruction whatever its
src and off fields hold, rests on the spec's own decision D22 (log entry 21).
(R181, R180, R184, R185, D8 (92_eei_decisions), D9 (92_eei_decisions), R82, R84, D22 (92_eei_decisions)) -/
def Obligations.ToLittleEndianConvertsLowBits : Prop :=
  EncodesEnd false 16 .le16 ∧
  EncodesEnd false 32 .le32 ∧
  EncodesEnd false 64 .le64 ∧
  ∀ (s : State) (dst : Reg),
    (s.params.hostOrder = .little → KeepsLow (.le16 dst) s dst 16) ∧
    (s.params.hostOrder = .big → ReversesLow (.le16 dst) s dst 16) ∧
    (s.params.hostOrder = .little → KeepsLow (.le32 dst) s dst 32) ∧
    (s.params.hostOrder = .big → ReversesLow (.le32 dst) s dst 32) ∧
    (s.params.hostOrder = .little → KeepsLow (.le64 dst) s dst 64) ∧
    (s.params.hostOrder = .big → ReversesLow (.le64 dst) s dst 64)

/-- be16, be32 and be64, under both values of HOST_ORDER. HOST_ORDER and the clearing of the upper bits are the spec's
own decisions D8 and D9 (log entries 10 and 11). The encoding clause, that the word is this instruction whatever its
src and off fields hold, rests on the spec's own decision D22 (log entry 21).
(R182, R180, R184, R185, D8 (92_eei_decisions), D9 (92_eei_decisions), R82, R84, D22 (92_eei_decisions)) -/
def Obligations.ToBigEndianConvertsLowBits : Prop :=
  EncodesEnd true 16 .be16 ∧
  EncodesEnd true 32 .be32 ∧
  EncodesEnd true 64 .be64 ∧
  ∀ (s : State) (dst : Reg),
    (s.params.hostOrder = .big → KeepsLow (.be16 dst) s dst 16) ∧
    (s.params.hostOrder = .little → ReversesLow (.be16 dst) s dst 16) ∧
    (s.params.hostOrder = .big → KeepsLow (.be32 dst) s dst 32) ∧
    (s.params.hostOrder = .little → ReversesLow (.be32 dst) s dst 32) ∧
    (s.params.hostOrder = .big → KeepsLow (.be64 dst) s dst 64) ∧
    (s.params.hostOrder = .little → ReversesLow (.be64 dst) s dst 64)

/-- JA is always taken. The width of ip, 64 bits, is the spec's own decision D11 (log entry 13). The encoding clause,
that the word is this instruction whatever its unread fields hold and under every admitted JMP_OP_MAP, rests on the
spec's own decision D22 (log entry 21) and on the model's reading of R80 (DEDUCED, log entry 3).
(R192, R191, D11 (92_eei_decisions), R74, R80, R82, R84, D22 (92_eei_decisions)) -/
def Obligations.JaAlwaysBranches : Prop :=
  EncodesJmp .ja (fun f => .jaK f.off) (fun f => .jaX f.off) ∧
  ∀ (s : State) (off : BitVec 16), MovesIpBy (.jaK off) s off.toInt ∧ MovesIpBy (.jaX off) s off.toInt

/-- jeq branches exactly on equal operands and jne exactly on unequal ones, in both forms. The width of ip, 64 bits, is
the spec's own decision D11 (log entry 13). The encoding clause, that the word is this instruction whatever its
unread fields hold and under every admitted JMP_OP_MAP, rests on the spec's own decision D22 (log entry 21) and on
the model's reading of R80 (DEDUCED, log entry 3).
(R193, R199, R190, R191, D11 (92_eei_decisions), R74, R80, R82, R84, D22 (92_eei_decisions)) -/
def Obligations.EqualityBranchesCompareAllBits : Prop :=
  EncodesJmp .jeq (fun f => .jeqK f.dstReg f.imm f.off) (fun f => .jeqX f.dstReg f.srcReg f.off) ∧
  EncodesJmp .jne (fun f => .jneK f.dstReg f.imm f.off) (fun f => .jneX f.dstReg f.srcReg f.off) ∧
  ∀ (s : State) (dst src : Reg) (imm : BitVec 32) (off : BitVec 16),
    BranchesOn (.jeqK dst imm off) s off ((s.getReg dst).toNat = imm.toNat) ∧
    BranchesOn (.jeqX dst src off) s off ((s.getReg dst).toNat = (s.getReg src).toNat) ∧
    BranchesOn (.jneK dst imm off) s off ((s.getReg dst).toNat ≠ imm.toNat) ∧
    BranchesOn (.jneX dst src off) s off ((s.getReg dst).toNat ≠ (s.getReg src).toNat)

/-- jgt and jge branch exactly on an unsigned greater, or greater or equal, left operand, in both forms. The width of
ip, 64 bits, is the spec's own decision D11 (log entry 13). The encoding clause, that the word is this instruction
whatever its unread fields hold and under every admitted JMP_OP_MAP, rests on the spec's own decision D22 (log entry
21) and on the model's reading of R80 (DEDUCED, log entry 3).
(R194, R195, R190, R191, D11 (92_eei_decisions), R74, R80, R82, R84, D22 (92_eei_decisions)) -/
def Obligations.GreaterBranchesCompareUnsigned : Prop :=
  EncodesJmp .jgt (fun f => .jgtK f.dstReg f.imm f.off) (fun f => .jgtX f.dstReg f.srcReg f.off) ∧
  EncodesJmp .jge (fun f => .jgeK f.dstReg f.imm f.off) (fun f => .jgeX f.dstReg f.srcReg f.off) ∧
  ∀ (s : State) (dst src : Reg) (imm : BitVec 32) (off : BitVec 16),
    BranchesOn (.jgtK dst imm off) s off ((s.getReg dst).toNat > imm.toNat) ∧
    BranchesOn (.jgtX dst src off) s off ((s.getReg dst).toNat > (s.getReg src).toNat) ∧
    BranchesOn (.jgeK dst imm off) s off ((s.getReg dst).toNat ≥ imm.toNat) ∧
    BranchesOn (.jgeX dst src off) s off ((s.getReg dst).toNat ≥ (s.getReg src).toNat)

/-- jlt and jle branch exactly on an unsigned less, or less or equal, left operand, in both forms. The width of ip, 64
bits, is the spec's own decision D11 (log entry 13). The encoding clause, that the word is this instruction whatever
its unread fields hold and under every admitted JMP_OP_MAP, rests on the spec's own decision D22 (log entry 21) and
on the model's reading of R80 (DEDUCED, log entry 3).
(R196, R197, R190, R191, D11 (92_eei_decisions), R74, R80, R82, R84, D22 (92_eei_decisions)) -/
def Obligations.LessBranchesCompareUnsigned : Prop :=
  EncodesJmp .jlt (fun f => .jltK f.dstReg f.imm f.off) (fun f => .jltX f.dstReg f.srcReg f.off) ∧
  EncodesJmp .jle (fun f => .jleK f.dstReg f.imm f.off) (fun f => .jleX f.dstReg f.srcReg f.off) ∧
  ∀ (s : State) (dst src : Reg) (imm : BitVec 32) (off : BitVec 16),
    BranchesOn (.jltK dst imm off) s off ((s.getReg dst).toNat < imm.toNat) ∧
    BranchesOn (.jltX dst src off) s off ((s.getReg dst).toNat < (s.getReg src).toNat) ∧
    BranchesOn (.jleK dst imm off) s off ((s.getReg dst).toNat ≤ imm.toNat) ∧
    BranchesOn (.jleX dst src off) s off ((s.getReg dst).toNat ≤ (s.getReg src).toNat)

/-- jset branches exactly where some bit is set in both operands, in both forms. The width of ip, 64 bits, is the spec's
own decision D11 (log entry 13). The encoding clause, that the word is this instruction whatever its unread fields
hold and under every admitted JMP_OP_MAP, rests on the spec's own decision D22 (log entry 21) and on the model's
reading of R80 (DEDUCED, log entry 3).
(R198, R190, R191, D11 (92_eei_decisions), R74, R80, R82, R84, D22 (92_eei_decisions)) -/
def Obligations.JsetTestsForACommonBit : Prop :=
  EncodesJmp .jset (fun f => .jsetK f.dstReg f.imm f.off) (fun f => .jsetX f.dstReg f.srcReg f.off) ∧
  ∀ (s : State) (dst src : Reg) (imm : BitVec 32) (off : BitVec 16),
    BranchesOn (.jsetK dst imm off) s off (∃ k, ((s.getReg dst).toNat).testBit k = true ∧ (imm.toNat).testBit k = true) ∧
    BranchesOn (.jsetX dst src off) s off (∃ k, ((s.getReg dst).toNat).testBit k = true ∧ ((s.getReg src).toNat).testBit k = true)

/-- A step of a halted machine changes nothing and reports MachineHalted.
(R212) -/
def Obligations.HaltedMachineRefusesToStep : Prop :=
  ∀ s : State, s.status.halted = true → s.result ≠ some .aborted →
    step s = .next { s with result := some .machineHalted }

/-- FetchFailed exactly where no whole word stands at ip. That the state does not change is the spec's own decision D15
(log entry 17).
(R213, R52, R53, R30, D15 (92_eei_decisions)) -/
def Obligations.FetchFailsExactlyOffTheWords : Prop :=
  ∀ s : State, Running s →
    (¬ FetchOk s → step s = .next { s with result := some .fetchFailed }) ∧
    (FetchOk s → ∃ t, step s = .next t ∧ t.result ≠ some .fetchFailed)

/-- Fetching the word at ip is the decoder applied to the rest of instruction memory.
(R51) -/
def Obligations.FetchHandsTheDecoderTheRest : Prop :=
  ∀ s : State,
    (fetchBytes s).bind decodeSlice = decodeSlice (restOfImem s) ∧
    (FetchOk s → ∃ b, fetchBytes s = some b ∧ b.length = 8 ∧
      ∀ k, k < 8 → b[k]? = s.imem.readByte (s.ip.toNat + k)) ∧
    (¬ FetchOk s → fetchBytes s = none)

/-- Where the bytes at ip decode to an instruction, the step is exec of it followed by the engine's advance.
(R214, R216, R221) -/
def Obligations.StepRunsTheDecodedInstruction : Prop :=
  ∀ (s : State) (i : Instr), Running s → FetchOk s →
    decode s.params.opMaps (s.imem.readBytes s.ip.toNat 8) = .ok i →
    step s = finishStep (exec i s)

/-- Sub-steps 4 and 5 after any instruction, faulting or not. The widths of ip and cycle_count are the spec's own
decisions D11 and D12 (log entries 13 and 14). That the fault's code is the result also where the fault stands on
the last word is the spec's own decision D14 (log entry 16).
(R217, R218, R224, D11 (92_eei_decisions), D12 (92_eei_decisions), R222, D14 (92_eei_decisions)) -/
def Obligations.StepAdvancesAndChecksTheEnd : Prop :=
  ∀ (s : State) (i : Instr), Running s → FetchOk s →
    decode s.params.opMaps (s.imem.readBytes s.ip.toNat 8) = .ok i →
    ∃ u t, exec i s = .next u ∧ step s = .next t ∧ Advanced u t

/-- A word of the program written by the encoder runs as the instruction it encodes. Which code maps are admitted is the
model's reading of R79 and R80 (DEDUCED, log entries 2 and 3).
(R86, R87, R72, R79, R80, R51, R214, R221) -/
def Obligations.EncodedProgramWordRuns : Prop :=
  ∀ (s : State) (i : Instr), s.params.opMaps.wf = true → Running s → FetchOk s →
    s.imem.readBytes s.ip.toNat 8 = encode s.params.opMaps i →
    step s = finishStep (exec i s)

/-- A word of an illegal class sets ILLEGAL_INSTRUCTION and HALTED and advances nothing.
(R215) -/
def Obligations.IllegalClassDoesNotAdvance : Prop :=
  ∀ (s : State) (f : Fields), Fetches s f → f.cls ≠ 4 → f.cls ≠ 5 → f.cls ≠ 7 →
    ∃ t, step s = .next t ∧ t.result = some .illegalInstruction ∧ t.status.illegalInstruction = true ∧
      t.status.halted = true ∧ t.status.divideByZero = s.status.divideByZero ∧ t.ip = s.ip ∧ t.draws = s.draws ∧
      SameRegs s t ∧ SameControl s t ∧ SameMemory s t

/-- An undefined ALU64 operation, under both values of ALU64_ILLEGAL_POLICY, the spec's own parameter D3 (log entry 5).
The modulus of ip and cycle_count after a unit fault is the spec's own decisions D11 and D12 (log entries 13 and
14), and ip is 0 where R218 rewinds it. That the fault's code is the result also where the fault stands on the last
word is the spec's own decision D14 (log entry 16).
(R114, R220, R217, R218, R241, D3 (92_eei_decisions), D11 (92_eei_decisions), D12 (92_eei_decisions), R222, D14
(92_eei_decisions)) -/
def Obligations.UndefinedAlu64FaultsOrAborts : Prop :=
  ∀ (s : State) (f : Fields), Fetches s f → f.cls = 7 → (∀ o, s.params.opMaps.alu.code o ≠ f.code) →
    (s.params.alu64IllegalPolicy = .graceful → UnitIllegal s) ∧
    (s.params.alu64IllegalPolicy = .fatal →
      ∃ t, step s = .next t ∧ t.result = some .aborted ∧ t.status.illegalInstruction = true ∧
        t.status.halted = true ∧ t.status.divideByZero = s.status.divideByZero ∧ t.ip = s.ip ∧ t.draws = s.draws ∧
        SameRegs s t ∧ SameControl s t ∧ SameMemory s t ∧ step t = .fault .aborted)

/-- A class 4 word with no operation's code and not the endian-swap code faults and advances (D10, D11, D12). The
modulus of ip and cycle_count after a unit fault is the spec's own decisions D11 and D12 (log entries 13 and 14),
and ip is 0 where R218 rewinds it. That the destination of a faulting ALU32 instruction is wholly unchanged, its
upper half included, is the spec's own decision D10 (log entry 12). That the fault's code is the result also where
the fault stands on the last word is the spec's own decision D14 (log entry 16).
(R154, R140, R217, R218, R241, C4 (90_conflicts), D10 (92_eei_decisions), D11 (92_eei_decisions), D12
(92_eei_decisions), R222, D14 (92_eei_decisions)) -/
def Obligations.UndefinedAlu32Faults : Prop :=
  ∀ (s : State) (f : Fields), Fetches s f → f.cls = 4 → f.code ≠ 0xd →
    (∀ o, s.params.opMaps.alu.code o ≠ f.code) → UnitIllegal s

/-- An endian-swap word with a width other than 16, 32 and 64 faults and advances (D11, D12). The modulus of ip and
cycle_count after a unit fault is the spec's own decisions D11 and D12 (log entries 13 and 14), and ip is 0 where
R218 rewinds it. That the fault's code is the result also where the fault stands on the last word is the spec's own
decision D14 (log entry 16).
(R183, R217, R218, R241, D11 (92_eei_decisions), D12 (92_eei_decisions), R222, D14 (92_eei_decisions)) -/
def Obligations.IllegalEndianWidthFaults : Prop :=
  ∀ (s : State) (f : Fields), Fetches s f → f.cls = 4 → f.code = 0xd →
    f.imm.toNat ≠ 16 → f.imm.toNat ≠ 32 → f.imm.toNat ≠ 64 → UnitIllegal s

/-- A class 5 word with no condition's code faults, its offset not applied, and advances (D2, D11, D12). The modulus of
ip and cycle_count after a unit fault is the spec's own decisions D11 and D12 (log entries 13 and 14), and ip is 0
where R218 rewinds it. That the fault's code is the result also where the fault stands on the last word is the
spec's own decision D14 (log entry 16).
(R201, R217, R218, R241, D2 (92_eei_decisions), D11 (92_eei_decisions), D12 (92_eei_decisions), R222, D14
(92_eei_decisions)) -/
def Obligations.UndefinedConditionFaults : Prop :=
  ∀ (s : State) (f : Fields), Fetches s f → f.cls = 5 →
    (∀ c, s.params.opMaps.jmp.code c ≠ f.code) → UnitIllegal s

/-- A step that reports a fault leaves a machine whose next step is MachineHalted and changes nothing, and a
DivideByZero step still counts its cycle. That the count is modulo 2^64 is the spec's own decision D12 (log entry
14).
(R219, R212, R217, R247, R248, D12 (92_eei_decisions)) -/
def Obligations.FaultTakesEffectAtTheNextStep : Prop :=
  ∀ s t : State, step s = .next t →
    (t.result = some .divideByZero ∨ t.result = some .illegalInstruction →
      step t = .next { t with result := some .machineHalted }) ∧
    (t.result = some .divideByZero → t.cycleCount.toNat = (s.cycleCount.toNat + 1) % 2 ^ 64)

/-- The flags are sticky. The list of the host's moves is the spec's own decision D17 (log entry 19).
(R32, R247, R270, D17 (92_eei_decisions)) -/
def Obligations.StatusFlagsAreSticky : Prop :=
  ∀ (m : HostMove) (s t : State), (∀ a b, m ≠ .reset a b) → (∀ p d, m ≠ .load p d) → hostAct m s = .next t →
    (s.status.halted = true → t.status.halted = true) ∧
    (s.status.illegalInstruction = true → t.status.illegalInstruction = true) ∧
    (s.status.divideByZero = true → t.status.divideByZero = true)

/-- No step writes instruction memory, data memory, continuous_mode or a parameter. That no step writes continuous_mode
is the spec's own decision D16 (log entry 18), and the parameters are the model's own field, which no step writes by
the model's choice (log entry 1).
(R35, R40, R55, R57, R59, R279, R9, D16 (92_eei_decisions)) -/
def Obligations.NoStepWritesMemoryOrControl : Prop :=
  ∀ s t : State, step s = .next t →
    t.imem = s.imem ∧ t.dmem = s.dmem ∧ SameMemory s t ∧ t.continuousMode = s.continuousMode ∧ t.params = s.params

/-- An instruction writes at most its one destination register, and a branch writes none.
(R24, R26, R190) -/
def Obligations.OnlyTheDestinationIsWritten : Prop :=
  ∀ (i : Instr) (s t : State), exec i s = .next t →
    (∀ r, dest? i ≠ some r → t.getReg r = s.getReg r) ∧ (dest? i ≠ none → t.ip = s.ip)

/-- A register an instruction does not read has no influence on what it does.
(R24, R82) -/
def Obligations.UnreadRegistersDoNotMatter : Prop :=
  ∀ (i : Instr) (s : State) (r : Reg) (v : Word), r ∉ readSet i →
    (dest? i = some r → exec i (s.setReg r v) = exec i s) ∧
    (dest? i ≠ some r → exec i (s.setReg r v) = mapNext (fun t => t.setReg r v) (exec i s))

/-- cycle_count counts completed steps. Its width, 64 bits, is the spec's own decision D12 (log entry 14).
(R36, R217, R222, R224, D12 (92_eei_decisions)) -/
def Obligations.CycleCountCountsCompletedSteps : Prop :=
  ∀ s t : State, step s = .next t →
    (t.result = some .success ∨ t.result = some .divideByZero →
      t.cycleCount.toNat = (s.cycleCount.toNat + 1) % 2 ^ 64) ∧
    (t.result = some .machineHalted ∨ t.result = some .fetchFailed ∨ t.result = some .aborted →
      t.cycleCount = s.cycleCount) ∧
    (t.result = some .illegalInstruction →
      t.cycleCount.toNat =
        if (fieldsOfWord (leWord (s.imem.readBytes s.ip.toNat 8))).classLegal = true
        then (s.cycleCount.toNat + 1) % 2 ^ 64 else s.cycleCount.toNat)

/-- Reset zeroes registers, ip, status, cycle_count and continuous_mode and zero-fills both memories. That reset and
load also revive a machine left Aborted is the model's own choice (DESIGN CHOICE, log entry 29).
(R271) -/
def Obligations.ResetClearsEverything : Prop :=
  ∀ (imemLen dmemLen : Nat) (s t : State), hostAct (.reset imemLen dmemLen) s = .next t →
    (∀ r, t.getReg r = 0) ∧ t.ip = 0 ∧ t.cycleCount = 0 ∧ t.continuousMode = false ∧
      t.status = { halted := false, illegalInstruction := false, divideByZero := false } ∧
      t.imem.size = imemLen ∧ t.dmem.size = dmemLen ∧
      (∀ a, a < imemLen → t.imem.readByte a = some 0) ∧ (∀ a, a < dmemLen → t.dmem.readByte a = some 0)

/-- Load leaves the reset state with the program's bytes, and nothing else, in instruction memory. That reset and load
also revive a machine left Aborted is the model's own choice (DESIGN CHOICE, log entry 29).
(R272) -/
def Obligations.LoadCopiesTheProgram : Prop :=
  ∀ (bytes : List Byte) (dmemLen : Nat) (s t : State), hostAct (.load bytes dmemLen) s = .next t →
    t.imem.size = bytes.length ∧ (∀ a, t.imem.readByte a = bytes[a]?) ∧
      { t with imem := (hostReset bytes.length dmemLen s).imem } = hostReset bytes.length dmemLen s

/-- The decoder refuses exactly the bad lengths and reads the five little-endian fields of the first word.
(R72, R73) -/
def Obligations.DecoderExtractsTheFields : Prop :=
  ∀ slice : List Byte,
    (decodeSlice slice = none ↔ slice.length = 0 ∨ slice.length % 8 ≠ 0) ∧
    ∀ f, decodeSlice slice = some f →
      f.imm.toNat = (slice.getD 0 0).toNat + 2 ^ 8 * (slice.getD 1 0).toNat + 2 ^ 16 * (slice.getD 2 0).toNat +
        2 ^ 24 * (slice.getD 3 0).toNat ∧
      f.off.toInt = ((slice.getD 4 0).toNat : Int) + 2 ^ 8 * ((slice.getD 5 0).toNat : Int) -
        (if 128 ≤ (slice.getD 5 0).toNat then 2 ^ 16 else 0) ∧
      f.dst.toNat = (slice.getD 6 0).toNat % 16 ∧ f.src.toNat = (slice.getD 6 0).toNat / 16 ∧
      f.op = slice.getD 7 0

/-- Fields and words encode and decode into each other exactly, by the spec's formula.
(R86, R87, R71) -/
def Obligations.FieldsAndWordsRoundTrip : Prop :=
  (∀ f : Fields, (wordOfFields f).toNat =
      f.imm.toNat + f.off.toNat * 2 ^ 32 + f.dst.toNat * 2 ^ 48 + f.src.toNat * 2 ^ 52 + f.op.toNat * 2 ^ 56) ∧
    (∀ f : Fields, fieldsOfWord (wordOfFields f) = f) ∧ (∀ w : Word, wordOfFields (fieldsOfWord w) = w) ∧
    (∀ w : Word, decodeSlice (leBytes w) = some (fieldsOfWord w))

/-- Decoding the encoding of any instruction gives it back, under every admitted pair of code maps. Which code maps are
admitted is the model's reading of R79 and R80 (DEDUCED, log entries 2 and 3).
(R86, R87, R81, R79, R80) -/
def Obligations.DecodeInvertsEncode : Prop :=
  ∀ (m : OpMaps) (i : Instr), m.wf = true → decode m (encode m i) = .ok i

/-- The illegal encodings under the default code maps, which are the spec's own choices D1 and D2 (log entries 2 and 3).
(R83, R75, R79, R80, D1 (92_eei_decisions), D2 (92_eei_decisions)) -/
def Obligations.IllegalEncodingsAreExactlyThese : Prop :=
  ∀ f : Fields,
    (classify defaultOpMaps f = .error .illegalClass ↔
      f.cls = 0 ∨ f.cls = 1 ∨ f.cls = 2 ∨ f.cls = 3 ∨ f.cls = 6) ∧
    (classify defaultOpMaps f = .error .undefinedAlu64 ↔
      f.cls = 7 ∧ (f.code = 0xd ∨ f.code = 0xe ∨ f.code = 0xf)) ∧
    (classify defaultOpMaps f = .error .undefinedAlu32 ↔ f.cls = 4 ∧ (f.code = 0xe ∨ f.code = 0xf)) ∧
    (classify defaultOpMaps f = .error .illegalWidth ↔
      f.cls = 4 ∧ f.code = 0xd ∧ f.imm ≠ 16 ∧ f.imm ≠ 32 ∧ f.imm ≠ 64) ∧
    (classify defaultOpMaps f = .error .undefinedCondition ↔
      f.cls = 5 ∧ (f.code = 6 ∨ f.code = 7 ∨ f.code = 8 ∨ f.code = 9 ∨ f.code = 0xc ∨ f.code = 0xd ∨ f.code = 0xe ∨
        f.code = 0xf)) ∧
    ((∃ i, classify defaultOpMaps f = .ok i) ↔ f.legal defaultOpMaps = true)

/-- Words written out from the spec's examples decode to their instructions under the default code maps, the spec's own
choices D1 and D2 (log entries 2 and 3).
(R81, R101, R112, R143, R153, R182, R192, R193, R195, R194, D1 (92_eei_decisions), D2 (92_eei_decisions)) -/
def Obligations.KnownWordsDecode : Prop :=
  decode defaultOpMaps [0x00, 0x00, 0x00, 0x00, 0x00, 0x00, 0x21, 0x0f] = .ok (.addX 1 2) ∧
    decode defaultOpMaps [0x14, 0x00, 0x00, 0x00, 0x00, 0x00, 0x06, 0xb7] = .ok (.movK 6 0x14) ∧
    decode defaultOpMaps [0x00, 0x00, 0x00, 0x00, 0x00, 0x00, 0x21, 0x2c] = .ok (.mul32X 1 2) ∧
    decode defaultOpMaps [0x04, 0x00, 0x00, 0x00, 0x00, 0x00, 0x01, 0xc4] = .ok (.arsh32K 1 4) ∧
    decode defaultOpMaps [0x10, 0x00, 0x00, 0x00, 0x00, 0x00, 0x01, 0xdc] = .ok (.be16 1) ∧
    decode defaultOpMaps [0x00, 0x00, 0x00, 0x00, 0x08, 0x00, 0x00, 0x05] = .ok (.jaK 8) ∧
    decode defaultOpMaps [0x05, 0x00, 0x00, 0x00, 0x10, 0x00, 0x01, 0x15] = .ok (.jeqK 1 5 16) ∧
    decode defaultOpMaps [0xff, 0xff, 0xff, 0xff, 0xf0, 0xff, 0x01, 0x35] = .ok (.jgeK 1 0xffffffff 0xfff0) ∧
    decode defaultOpMaps [0x00, 0x00, 0x00, 0x00, 0x08, 0x00, 0x21, 0x2d] = .ok (.jgtX 1 2 8)

/-- The model's two invariants hold in State.reset. AlignedInv holds there because State.reset has no instruction
memory: IMEM_LEN = 0 is the model's own choice (DESIGN CHOICE, log entry 20), and a reset with an IMEM_LEN that is
no multiple of 8 fails it.
(R271, R33, R28) -/
def Obligations.InvHoldsAtReset : Prop :=
  MachineInv State.reset ∧ AlignedInv State.reset

/-- Every step keeps memories canonical, fault flags tied to HALTED, and reported faults tied to their flags.
(R33, R241, R243, R222) -/
def Obligations.EveryStepKeepsInv : Prop :=
  ∀ s t : State, MachineInv s → step s = .next t → MachineInv t

/-- The host's moves and the invariant. The list of moves is the spec's own decision D17 (log entry 19). That reset and
load also revive a machine left Aborted is the model's own choice (DESIGN CHOICE, log entry 29).
(R277, R270, R272, R241, D17 (92_eei_decisions)) -/
def Obligations.HostMovesKeepInv : Prop :=
  (∀ (m : HostMove) (s t : State), MachineInv s → hostAct m s = .next t → MachineInv t) ∧
    (∀ (a b : Nat) (s : State), MachineInv (hostReset a b s)) ∧ (∀ (p : List Byte) (d : Nat) (s : State), MachineInv (hostLoad p d s))

/-- A program of whole words whose branch offsets are multiples of 8 keeps ip a multiple of 8, step by step.
(R28, R191, R217, R218, C8 (90_conflicts)) -/
def Obligations.WordBranchesKeepIpAligned : Prop :=
  ∀ s t : State, AlignedInv s → step s = .next t → AlignedInv t

/-- The end of a run: how a step ends it, that an ended run stays as it is, and that a stuck one never ends. The host's
writes to continuous_mode are an input of the run, the spec's own decision D16 (log entry 18), and that a failed
fetch changes nothing is its decision D15 (log entry 17). That a faulted end reports the fault's code also where the
fault stands on the last word is its decision D14 (log entry 16).
(R223, R212, R213, R218, R220, R35, R222, R241, R245, D14 (92_eei_decisions), D15 (92_eei_decisions), D16
(92_eei_decisions)) -/
def Obligations.CleanEndOnlyAtTheEndOfMemory : Prop :=
  (∀ s t : State, MachineInv s → Running s → step s = .next t →
    (EndedClean t → t.ip.toNat = t.imem.size ∧ t.continuousMode = false ∧ t.result = some .success) ∧
    (EndedFaulted t → t.result = some .divideByZero ∨ t.result = some .illegalInstruction) ∧
    (s.continuousMode = true → t.result = some .success → t.status.halted = false)) ∧
  ∀ (w : Nat → Option Bool) (s : State),
    (RunNeverEnds w s ∨ ∃ n t, RunEndsAt w s n t ∧
      ∀ k, ∃ u, runAt w s (n + 1 + k) = some u ∧ SameMachine t u ∧ u.result = some .machineHalted) ∧
    ∀ n t, runAt w s n = some t →
      (FetchStuck t → RunNeverEnds w s ∧
        ∀ k, ∃ u, runAt w s (n + 1 + k) = some u ∧ SameMachine t u ∧ u.result = some .fetchFailed) ∧
      (Aborted t → RunNeverEnds w s ∧ ∀ k, runAt w s (n + 1 + k) = none)

/-- Where a fault leaves ip, exactly, so that the faulting word can be found. The width of ip is the spec's own decision
D11 (log entry 13). That the destination of a faulting ALU32 instruction is wholly unchanged, its upper half
included, is the spec's own decision D10 (log entry 12).
(R244, R241, R217, R218, D11 (92_eei_decisions), D10 (92_eei_decisions)) -/
def Obligations.FaultAddressIsRecoverable : Prop :=
  ∀ s t : State, step s = .next t → t.result = some .divideByZero ∨ t.result = some .illegalInstruction →
    SameRegs s t ∧
      if (fieldsOfWord (leWord (s.imem.readBytes s.ip.toNat 8))).classLegal = false then
        t.result = some .illegalInstruction ∧ t.ip = s.ip
      else if (s.ip.toNat + 8) % 2 ^ 64 = s.imem.size ∧ s.continuousMode = true then
        t.ip = 0 ∧ s.ip.toNat + 8 = s.imem.size
      else t.ip.toNat = (s.ip.toNat + 8) % 2 ^ 64

/-- Every step answers a next state with a result code, save from the stuck state Aborted.
(R210, R211, R220, R222) -/
def Obligations.EveryStepReportsAResult : Prop :=
  ∀ s : State,
    (s.result ≠ some .aborted → ∃ t c, step s = .next t ∧ t.result = some c) ∧
    (s.result = some .aborted → step s = .fault .aborted)

/-- The byte reversals are involutions, under both values of HOST_ORDER, the spec's own parameter D8 (log entry 10).
That the bits above the width are 0 is the spec's own decision D9 (log entry 11).
(R181, R182, R184, R185, D8 (92_eei_decisions), D9 (92_eei_decisions), 95_test_vectors section 2.3) -/
def Obligations.SwappingTwiceRestores : Prop :=
  ∀ (s t u : State) (dst : Reg),
    (exec (.be64 dst) s = .next t → exec (.be64 dst) t = .next u → u.getReg dst = s.getReg dst) ∧
    (exec (.be32 dst) s = .next t → exec (.be32 dst) t = .next u →
      (u.getReg dst).toNat = (s.getReg dst).toNat % 2 ^ 32) ∧
    (exec (.be16 dst) s = .next t → exec (.be16 dst) t = .next u →
      (u.getReg dst).toNat = (s.getReg dst).toNat % 2 ^ 16) ∧
    (exec (.le64 dst) s = .next t → exec (.le64 dst) t = .next u → u.getReg dst = s.getReg dst) ∧
    (exec (.le32 dst) s = .next t → exec (.le32 dst) t = .next u →
      (u.getReg dst).toNat = (s.getReg dst).toNat % 2 ^ 32) ∧
    (exec (.le16 dst) s = .next t → exec (.le16 dst) t = .next u →
      (u.getReg dst).toNat = (s.getReg dst).toNat % 2 ^ 16)

/-- The status word. The bit positions are the spec's own decision D13 (log entry 15).
(R31, D13 (92_eei_decisions)) -/
def Obligations.StatusWordNumbersTheFlags : Prop :=
  ∀ st : Status, st.word.toNat =
    st.halted.toNat + 2 * st.illegalInstruction.toNat + 4 * st.divideByZero.toNat
end

