-- ==== Sys2Proof/Laws/Decode.lean ====
section
/-! SUPPORT. The laws of the decoder and the encoder: the parts of an opcode byte, the fields of the encoder's forms, and
the code maps (spec 30_encoding R74, R79, R80). -/

namespace Sys2Proof

@[simp] theorem opByte_cls (c : BitVec 3) (m : Bool) (k : BitVec 4) : (opByte c m k).extractLsb' 0 3 = c := by
  revert c m k; decide

@[simp] theorem opByte_mode (c : BitVec 3) (m : Bool) (k : BitVec 4) : (opByte c m k).getLsbD 3 = m := by
  revert c m k; decide

@[simp] theorem opByte_code (c : BitVec 3) (m : Bool) (k : BitVec 4) : (opByte c m k).extractLsb' 4 4 = k := by
  revert c m k; decide

section Forms
variable (cls : BitVec 3) (code : BitVec 4) (dst src : Reg) (imm : BitVec 32) (off : BitVec 16) (mode : Bool)

@[simp] theorem fieldsK_cls : (fieldsK cls code dst imm off).cls = cls := opByte_cls _ _ _
@[simp] theorem fieldsK_code : (fieldsK cls code dst imm off).code = code := opByte_code _ _ _
@[simp] theorem fieldsK_mode : (fieldsK cls code dst imm off).mode = false := opByte_mode _ _ _
@[simp] theorem fieldsK_dstReg : (fieldsK cls code dst imm off).dstReg = dst := rfl
@[simp] theorem fieldsK_imm : (fieldsK cls code dst imm off).imm = imm := rfl
@[simp] theorem fieldsK_off : (fieldsK cls code dst imm off).off = off := rfl
@[simp] theorem fieldsX_cls : (fieldsX cls code dst src off).cls = cls := opByte_cls _ _ _
@[simp] theorem fieldsX_code : (fieldsX cls code dst src off).code = code := opByte_code _ _ _
@[simp] theorem fieldsX_mode : (fieldsX cls code dst src off).mode = true := opByte_mode _ _ _
@[simp] theorem fieldsX_dstReg : (fieldsX cls code dst src off).dstReg = dst := rfl
@[simp] theorem fieldsX_srcReg : (fieldsX cls code dst src off).srcReg = src := rfl
@[simp] theorem fieldsX_off : (fieldsX cls code dst src off).off = off := rfl
@[simp] theorem fieldsEnd_cls : (fieldsEnd mode imm dst).cls = 4 := opByte_cls _ _ _
@[simp] theorem fieldsEnd_code : (fieldsEnd mode imm dst).code = 0xd := opByte_code _ _ _
@[simp] theorem fieldsEnd_mode : (fieldsEnd mode imm dst).mode = mode := opByte_mode _ _ _
@[simp] theorem fieldsEnd_dstReg : (fieldsEnd mode imm dst).dstReg = dst := rfl
@[simp] theorem fieldsEnd_imm : (fieldsEnd mode imm dst).imm = imm := rfl

end Forms

theorem mem_allAluOps (o : AluOp) : o ∈ allAluOps := by cases o <;> decide

theorem mem_allJmpConds (c : JmpCond) : c ∈ allJmpConds := by cases c <;> decide

/-- Searching a list for the one element with a given key finds it, where no two elements share a key. -/
theorem find_of_nodup {α β : Type} [DecidableEq β] (f : α → β) :
    ∀ {l : List α} {a : α}, (l.map f).Nodup → a ∈ l → l.find? (fun o => f o == f a) = some a
  | [], _, _, h => absurd h (List.not_mem_nil)
  | b :: rest, a, hn, h => by
    rw [List.map_cons, List.nodup_cons] at hn
    rcases List.mem_cons.1 h with rfl | h
    · simp
    · have : f b ≠ f a := fun e => hn.1 (e ▸ List.mem_map_of_mem h)
      rw [List.find?_cons_of_neg (by simpa using this)]
      exact find_of_nodup f hn.2 h

/-- Under an admitted map the code of an operation selects that operation. -/
theorem aluFind_code {m : AluOpMap} (h : m.wf = true) (o : AluOp) : m.find (m.code o) = some o := by
  simp only [AluOpMap.wf, Bool.and_eq_true, decide_eq_true_eq] at h
  exact find_of_nodup m.code h.1 (mem_allAluOps o)

/-- No operation of an admitted map has the endian-swap code. -/
theorem aluCode_ne_end {m : AluOpMap} (h : m.wf = true) (o : AluOp) : m.code o ≠ 0xd := by
  simp only [AluOpMap.wf, Bool.and_eq_true, Bool.not_eq_true', decide_eq_true_eq] at h
  intro e
  have : (allAluOps.map m.code).contains 0xd = true :=
    List.contains_iff_mem.2 (e ▸ List.mem_map_of_mem (mem_allAluOps o))
  rw [h.2] at this
  cases this

/-- Under an admitted map the code of a condition selects that condition. -/
theorem jmpFind_code {m : JmpOpMap} (h : m.wf = true) (c : JmpCond) : m.find (m.code c) = some c := by
  simp only [JmpOpMap.wf, decide_eq_true_eq] at h
  exact find_of_nodup m.code h (mem_allJmpConds c)

theorem aluFind_eq_none {m : AluOpMap} {c : BitVec 4} : m.find c = none ↔ ∀ o, m.code o ≠ c := by
  simp only [AluOpMap.find, List.find?_eq_none, beq_iff_eq]
  exact ⟨fun h o => h o (mem_allAluOps o), fun h o _ => h o⟩

theorem jmpFind_eq_none {m : JmpOpMap} {c : BitVec 4} : m.find c = none ↔ ∀ o, m.code o ≠ c := by
  simp only [JmpOpMap.find, List.find?_eq_none, beq_iff_eq]
  exact ⟨fun h o => h o (mem_allJmpConds o), fun h o _ => h o⟩

theorem wf_alu {m : OpMaps} (h : m.wf = true) : m.alu.wf = true := (Bool.and_eq_true _ _ ▸ h).1

theorem wf_jmp {m : OpMaps} (h : m.wf = true) : m.jmp.wf = true := (Bool.and_eq_true _ _ ▸ h).2

/-- A class 7 word with an operation's code. -/
theorem classify_alu64 {m : OpMaps} (hm : m.wf = true) {f : Fields} (hc : f.cls = 7) {o : AluOp}
    (ho : f.code = m.alu.code o) : classify m f = .ok (alu64Instr o f.mode f.dstReg f.srcReg f.imm) := by
  simp only [classify, hc, ho, aluFind_code (wf_alu hm) o, if_true]

/-- A class 4 word with an operation's code. -/
theorem classify_alu32 {m : OpMaps} (hm : m.wf = true) {f : Fields} (hc : f.cls = 4) {o : AluOp}
    (ho : f.code = m.alu.code o) : classify m f = .ok (alu32Instr o f.mode f.dstReg f.srcReg f.imm) := by
  have h7 : ¬ ((4 : BitVec 3) = 7) := by decide
  simp only [classify, hc, ho, aluFind_code (wf_alu hm) o, if_true, if_neg h7, if_neg (aluCode_ne_end (wf_alu hm) o)]

/-- A class 4 word with the endian-swap code and a legal width. -/
theorem classify_end_some (m : OpMaps) {f : Fields} (hc : f.cls = 4) (ho : f.code = 0xd) {i : Instr}
    (hi : endianInstr f.mode f.imm f.dstReg = some i) : classify m f = .ok i := by
  have h7 : ¬ ((4 : BitVec 3) = 7) := by decide
  simp only [classify, hc, ho, hi, if_true, if_neg h7]

/-- A class 4 word with the endian-swap code and any other width. -/
theorem classify_end_none (m : OpMaps) {f : Fields} (hc : f.cls = 4) (ho : f.code = 0xd)
    (hi : endianInstr f.mode f.imm f.dstReg = none) : classify m f = .error .illegalWidth := by
  have h7 : ¬ ((4 : BitVec 3) = 7) := by decide
  simp only [classify, hc, ho, hi, if_true, if_neg h7]

/-- A class 5 word with a condition's code. -/
theorem classify_jmp {m : OpMaps} (hm : m.wf = true) {f : Fields} (hc : f.cls = 5) {c : JmpCond}
    (ho : f.code = m.jmp.code c) : classify m f = .ok (branchInstr c f.mode f.dstReg f.srcReg f.imm f.off) := by
  have h7 : ¬ ((5 : BitVec 3) = 7) := by decide
  have h4 : ¬ ((5 : BitVec 3) = 4) := by decide
  simp only [classify, hc, ho, jmpFind_code (wf_jmp hm) c, if_true, if_neg h7, if_neg h4]

@[simp] theorem leBytes_length (w : Word) : (leBytes w).length = 8 := rfl

end Sys2Proof
end

