-- ==== Sys2Proof/Laws/State.lean ====
section
/-! SUPPORT. One lemma per field and state update, true by rfl, so that no proof unfolds a record update; and the register
file's laws (spec 10_state R22: every register holds what was written to it, and no other changes). -/

namespace Sys2Proof.Machine

@[simp] theorem setReg_ip (s : State) (r : Reg) (v : Word) : (s.setReg r v).ip = s.ip := rfl
@[simp] theorem setReg_status (s : State) (r : Reg) (v : Word) : (s.setReg r v).status = s.status := rfl
@[simp] theorem setReg_cycleCount (s : State) (r : Reg) (v : Word) : (s.setReg r v).cycleCount = s.cycleCount := rfl
@[simp] theorem setReg_continuousMode (s : State) (r : Reg) (v : Word) : (s.setReg r v).continuousMode = s.continuousMode := rfl
@[simp] theorem setReg_imem (s : State) (r : Reg) (v : Word) : (s.setReg r v).imem = s.imem := rfl
@[simp] theorem setReg_dmem (s : State) (r : Reg) (v : Word) : (s.setReg r v).dmem = s.dmem := rfl
@[simp] theorem setReg_params (s : State) (r : Reg) (v : Word) : (s.setReg r v).params = s.params := rfl
@[simp] theorem setReg_draws (s : State) (r : Reg) (v : Word) : (s.setReg r v).draws = s.draws := rfl
@[simp] theorem setReg_result (s : State) (r : Reg) (v : Word) : (s.setReg r v).result = s.result := rfl

@[simp] theorem report_x (s : State) (c : StepResult) : (s.report c).x = s.x := rfl
@[simp] theorem report_ip (s : State) (c : StepResult) : (s.report c).ip = s.ip := rfl
@[simp] theorem report_status (s : State) (c : StepResult) : (s.report c).status = s.status := rfl
@[simp] theorem report_cycleCount (s : State) (c : StepResult) : (s.report c).cycleCount = s.cycleCount := rfl
@[simp] theorem report_continuousMode (s : State) (c : StepResult) : (s.report c).continuousMode = s.continuousMode := rfl
@[simp] theorem report_imem (s : State) (c : StepResult) : (s.report c).imem = s.imem := rfl
@[simp] theorem report_dmem (s : State) (c : StepResult) : (s.report c).dmem = s.dmem := rfl
@[simp] theorem report_params (s : State) (c : StepResult) : (s.report c).params = s.params := rfl
@[simp] theorem report_draws (s : State) (c : StepResult) : (s.report c).draws = s.draws := rfl
@[simp] theorem report_result (s : State) (c : StepResult) : (s.report c).result = some c := rfl

@[simp] theorem countDraw_x (s : State) : (s.countDraw).x = s.x := rfl
@[simp] theorem countDraw_ip (s : State) : (s.countDraw).ip = s.ip := rfl
@[simp] theorem countDraw_status (s : State) : (s.countDraw).status = s.status := rfl
@[simp] theorem countDraw_cycleCount (s : State) : (s.countDraw).cycleCount = s.cycleCount := rfl
@[simp] theorem countDraw_continuousMode (s : State) : (s.countDraw).continuousMode = s.continuousMode := rfl
@[simp] theorem countDraw_imem (s : State) : (s.countDraw).imem = s.imem := rfl
@[simp] theorem countDraw_dmem (s : State) : (s.countDraw).dmem = s.dmem := rfl
@[simp] theorem countDraw_params (s : State) : (s.countDraw).params = s.params := rfl
@[simp] theorem countDraw_draws (s : State) : (s.countDraw).draws = s.draws + 1 := rfl
@[simp] theorem countDraw_result (s : State) : (s.countDraw).result = s.result := rfl

@[simp] theorem raiseFault_x (s : State) (k : FaultKind) : (s.raiseFault k).x = s.x := rfl
@[simp] theorem raiseFault_ip (s : State) (k : FaultKind) : (s.raiseFault k).ip = s.ip := rfl
@[simp] theorem raiseFault_status (s : State) (k : FaultKind) : (s.raiseFault k).status = s.status.raise k := rfl
@[simp] theorem raiseFault_cycleCount (s : State) (k : FaultKind) : (s.raiseFault k).cycleCount = s.cycleCount := rfl
@[simp] theorem raiseFault_continuousMode (s : State) (k : FaultKind) : (s.raiseFault k).continuousMode = s.continuousMode := rfl
@[simp] theorem raiseFault_imem (s : State) (k : FaultKind) : (s.raiseFault k).imem = s.imem := rfl
@[simp] theorem raiseFault_dmem (s : State) (k : FaultKind) : (s.raiseFault k).dmem = s.dmem := rfl
@[simp] theorem raiseFault_params (s : State) (k : FaultKind) : (s.raiseFault k).params = s.params := rfl
@[simp] theorem raiseFault_draws (s : State) (k : FaultKind) : (s.raiseFault k).draws = s.draws := rfl
@[simp] theorem raiseFault_result (s : State) (k : FaultKind) : (s.raiseFault k).result = some k.result := rfl

@[simp] theorem advance_x (s : State) : (advance s).x = s.x := rfl
@[simp] theorem advance_ip (s : State) : (advance s).ip = s.ip + 8 := rfl
@[simp] theorem advance_status (s : State) : (advance s).status = s.status := rfl
@[simp] theorem advance_cycleCount (s : State) : (advance s).cycleCount = s.cycleCount + 1 := rfl
@[simp] theorem advance_continuousMode (s : State) : (advance s).continuousMode = s.continuousMode := rfl
@[simp] theorem advance_imem (s : State) : (advance s).imem = s.imem := rfl
@[simp] theorem advance_dmem (s : State) : (advance s).dmem = s.dmem := rfl
@[simp] theorem advance_params (s : State) : (advance s).params = s.params := rfl
@[simp] theorem advance_draws (s : State) : (advance s).draws = s.draws := rfl
@[simp] theorem advance_result (s : State) : (advance s).result = s.result := rfl

@[simp] theorem hostSetContinuous_x (b : Bool) (s : State) : (hostSetContinuous b s).x = s.x := rfl
@[simp] theorem hostSetContinuous_ip (b : Bool) (s : State) : (hostSetContinuous b s).ip = s.ip := rfl
@[simp] theorem hostSetContinuous_status (b : Bool) (s : State) : (hostSetContinuous b s).status = s.status := rfl
@[simp] theorem hostSetContinuous_cycleCount (b : Bool) (s : State) : (hostSetContinuous b s).cycleCount = s.cycleCount := rfl
@[simp] theorem hostSetContinuous_continuousMode (b : Bool) (s : State) : (hostSetContinuous b s).continuousMode = b := rfl
@[simp] theorem hostSetContinuous_imem (b : Bool) (s : State) : (hostSetContinuous b s).imem = s.imem := rfl
@[simp] theorem hostSetContinuous_dmem (b : Bool) (s : State) : (hostSetContinuous b s).dmem = s.dmem := rfl
@[simp] theorem hostSetContinuous_params (b : Bool) (s : State) : (hostSetContinuous b s).params = s.params := rfl
@[simp] theorem hostSetContinuous_draws (b : Bool) (s : State) : (hostSetContinuous b s).draws = s.draws := rfl
@[simp] theorem hostSetContinuous_result (b : Bool) (s : State) : (hostSetContinuous b s).result = s.result := rfl

@[simp] theorem halt_halted (st : Status) : st.halt.halted = true := rfl
@[simp] theorem halt_illegalInstruction (st : Status) : st.halt.illegalInstruction = st.illegalInstruction := rfl
@[simp] theorem halt_divideByZero (st : Status) : st.halt.divideByZero = st.divideByZero := rfl

@[simp] theorem raise_halted (st : Status) (k : FaultKind) : (st.raise k).halted = true := by cases k <;> rfl
@[simp] theorem raise_illegal_illegalInstruction (st : Status) :
    (st.raise .illegalInstruction).illegalInstruction = true := rfl
@[simp] theorem raise_illegal_divideByZero (st : Status) :
    (st.raise .illegalInstruction).divideByZero = st.divideByZero := rfl
@[simp] theorem raise_zero_divideByZero (st : Status) : (st.raise .divideByZero).divideByZero = true := rfl
@[simp] theorem raise_zero_illegalInstruction (st : Status) :
    (st.raise .divideByZero).illegalInstruction = st.illegalInstruction := rfl

@[simp] theorem result_divideByZero : FaultKind.result .divideByZero = .divideByZero := rfl
@[simp] theorem result_illegalInstruction : FaultKind.result .illegalInstruction = .illegalInstruction := rfl

theorem getReg_of_x_eq {s t : State} (h : t.x = s.x) (r : Reg) : t.getReg r = s.getReg r := by
  simp only [State.getReg, h]

@[simp] theorem getReg_report (s : State) (c : StepResult) (r : Reg) : (s.report c).getReg r = s.getReg r := rfl
@[simp] theorem getReg_countDraw (s : State) (r : Reg) : s.countDraw.getReg r = s.getReg r := rfl
@[simp] theorem getReg_raiseFault (s : State) (k : FaultKind) (r : Reg) : (s.raiseFault k).getReg r = s.getReg r := rfl
@[simp] theorem getReg_advance (s : State) (r : Reg) : (advance s).getReg r = s.getReg r := rfl

@[simp] theorem getReg_setReg_same (s : State) (r : Reg) (v : Word) : (s.setReg r v).getReg r = v := by
  simp [State.getReg, State.setReg]

theorem getReg_setReg_ne (s : State) {r q : Reg} (v : Word) (h : q ≠ r) : (s.setReg r v).getReg q = s.getReg q := by
  have hv : r.val ≠ q.val := fun e => h (Fin.ext e.symm)
  simp only [State.getReg, State.setReg]
  exact Vector.getElem_set_ne _ _ hv

/-- Two machines with the same registers and the same other fields are the same machine. -/
theorem x_ext {s t : State} (h : ∀ r, s.getReg r = t.getReg r) : s.x = t.x := by
  apply Vector.ext
  intro i hi
  exact h ⟨i, hi⟩

/-- The last write to a register is the one that counts. -/
@[simp] theorem setReg_setReg_same (s : State) (r : Reg) (v w : Word) : (s.setReg r v).setReg r w = s.setReg r w := by
  simp [State.setReg]

/-- Writes to two registers commute. -/
theorem setReg_setReg_comm (s : State) {r q : Reg} (v w : Word) (h : q ≠ r) :
    (s.setReg r v).setReg q w = (s.setReg q w).setReg r v := by
  have hx : ((s.setReg r v).setReg q w).x = ((s.setReg q w).setReg r v).x := by
    apply x_ext
    intro k
    by_cases h1 : k = r <;> by_cases h2 : k = q <;>
      simp_all [getReg_setReg_ne, getReg_setReg_same, Ne.symm h]
  have e (t : State) (a : Reg) (b : Word) : t.setReg a b = { t with x := (t.setReg a b).x } := rfl
  rw [e, e (s.setReg q w), hx]
  rfl

end Sys2Proof.Machine
end

