-- ==== Sys2Proof/Laws/Ops.lean ====
section
/-! SUPPORT. What each shared operation can do, said once: a caller cites these and does not unfold the operation. -/

namespace Sys2Proof.Machine

theorem succeed_eq (s : State) : succeed s = .next (s.report .success) := rfl

theorem writeResult_eq (dst : Reg) (v : Word) (s : State) :
    writeResult dst v s = .next ((s.setReg dst v).report .success) := rfl

theorem writeResult32_eq (dst : Reg) (r : Half) (s : State) :
    writeResult32 dst r s = .next ((s.setReg dst (r.setWidth 64)).report .success) := rfl

theorem writeConverted_eq {n : Nat} (dst : Reg) (v : BitVec n) (s : State) :
    writeConverted dst v s = .next ((s.setReg dst (v.setWidth 64)).report .success) := rfl

theorem apply32_eq (f : Half → Half → Half) (dst : Reg) (rhs : Word) (s : State) :
    apply32 f dst rhs s =
      .next ((s.setReg dst ((f (low32 (s.getReg dst)) (low32 rhs)).setWidth 64)).report .success) := rfl

theorem divide64_zero (f : Word → Word → Word) (dst : Reg) (s : State) :
    divide64 f dst 0 s = .next (s.raiseFault .divideByZero) := rfl

theorem divide64_ne {f : Word → Word → Word} {dst : Reg} {d : Word} {s : State} (h : d ≠ 0) :
    divide64 f dst d s = .next ((s.setReg dst (f (s.getReg dst) d)).report .success) := if_neg h

theorem divide32_zero {f : Half → Half → Half} {dst : Reg} {rhs : Word} {s : State} (h : low32 rhs = 0) :
    divide32 f dst rhs s = .next (s.raiseFault .divideByZero) := if_pos h

theorem divide32_ne {f : Half → Half → Half} {dst : Reg} {rhs : Word} {s : State} (h : low32 rhs ≠ 0) :
    divide32 f dst rhs s =
      .next ((s.setReg dst ((f (low32 (s.getReg dst)) (low32 rhs)).setWidth 64)).report .success) := if_neg h

theorem shift64_some {f : Word → Nat → Word} {dst : Reg} {rhs : Word} {s : State} {n : Nat}
    (h : shamt64 s.params.shiftAmountPolicy rhs = some n) :
    shift64 f dst rhs s = .next ((s.setReg dst (f (s.getReg dst) n)).report .success) := by
  simp only [shift64, h, writeResult_eq]

theorem shift64_none {f : Word → Nat → Word} {dst : Reg} {rhs : Word} {s : State}
    (h : shamt64 s.params.shiftAmountPolicy rhs = none) :
    shift64 f dst rhs s = .next ((s.countDraw.setReg dst (Config.draw64 s.draws)).report .success) := by
  simp only [shift64, h, writeResult_eq]

theorem shift32_some {f : Half → Nat → Half} {dst : Reg} {rhs : Word} {s : State} {n : Nat}
    (h : shamt32 s.params.shiftAmountPolicy (low32 rhs) = some n) :
    shift32 f dst rhs s = .next ((s.setReg dst ((f (low32 (s.getReg dst)) n).setWidth 64)).report .success) := by
  simp only [shift32, h, writeResult32_eq]

theorem shift32_none {f : Half → Nat → Half} {dst : Reg} {rhs : Word} {s : State}
    (h : shamt32 s.params.shiftAmountPolicy (low32 rhs) = none) :
    shift32 f dst rhs s =
      .next ((s.countDraw.setReg dst ((Config.draw32 s.draws).setWidth 64)).report .success) := by
  simp only [shift32, h, writeResult32_eq]

theorem branchIf_true (off : BitVec 16) (s : State) :
    branchIf true off s = .next (({ s with ip := s.ip + off.signExtend 64 }).report .success) := rfl

theorem branchIf_false (off : BitVec 16) (s : State) : branchIf false off s = .next (s.report .success) := rfl

end Sys2Proof.Machine
end

