-- ==== Sys2Proof/Laws/Exec.lean ====
section
/-! SUPPORT. Everything a unit can do, said once: `exec` always answers a next state, and that state is one of four kinds.
Invariants and frames over all instructions follow from this inversion without unfolding a meaning. -/

namespace Sys2Proof.Machine

/-- The kinds of next state a unit answers. -/
inductive UnitStep (i : Instr) (s t : State) : Prop where
  /-- it wrote its destination register -/
  | wrote (d : Reg) (v : Word) (hd : dest? i = some d) (ht : t = (s.setReg d v).report .success)
  /-- it wrote a drawn value to its destination register -/
  | drew (d : Reg) (v : Word) (hd : dest? i = some d) (ht : t = (s.countDraw.setReg d v).report .success)
  /-- it divided by zero -/
  | divided (d : Reg) (hd : dest? i = some d) (ht : t = s.raiseFault .divideByZero)
  /-- it is a branch, taken or not -/
  | branched (target : Word) (hd : dest? i = none) (ht : t = ({ s with ip := target }).report .success)

theorem unitStep_shift64 {i : Instr} {d : Reg} (hd : dest? i = some d) (f : Word → Nat → Word) (rhs : Word) (s : State) :
    ∃ t, shift64 f d rhs s = .next t ∧ UnitStep i s t := by
  cases h : shamt64 s.params.shiftAmountPolicy rhs with
  | some n => exact ⟨_, shift64_some h, .wrote _ _ hd rfl⟩
  | none => exact ⟨_, shift64_none h, .drew _ _ hd rfl⟩

theorem unitStep_shift32 {i : Instr} {d : Reg} (hd : dest? i = some d) (f : Half → Nat → Half) (rhs : Word) (s : State) :
    ∃ t, shift32 f d rhs s = .next t ∧ UnitStep i s t := by
  cases h : shamt32 s.params.shiftAmountPolicy (low32 rhs) with
  | some n => exact ⟨_, shift32_some h, .wrote _ _ hd rfl⟩
  | none => exact ⟨_, shift32_none h, .drew _ _ hd rfl⟩

theorem unitStep_divide64 {i : Instr} {d : Reg} (hd : dest? i = some d) (f : Word → Word → Word) (rhs : Word)
    (s : State) : ∃ t, divide64 f d rhs s = .next t ∧ UnitStep i s t := by
  by_cases h : rhs = 0
  · subst h; exact ⟨_, divide64_zero f d s, .divided d hd rfl⟩
  · exact ⟨_, divide64_ne h, .wrote _ _ hd rfl⟩

theorem unitStep_divide32 {i : Instr} {d : Reg} (hd : dest? i = some d) (f : Half → Half → Half) (rhs : Word)
    (s : State) : ∃ t, divide32 f d rhs s = .next t ∧ UnitStep i s t := by
  by_cases h : low32 rhs = 0
  · exact ⟨_, divide32_zero h, .divided d hd rfl⟩
  · exact ⟨_, divide32_ne h, .wrote _ _ hd rfl⟩

theorem unitStep_branch {i : Instr} (hd : dest? i = none) (c : Bool) (off : BitVec 16) (s : State) :
    ∃ t, branchIf c off s = .next t ∧ UnitStep i s t := by
  cases c with
  | true => exact ⟨_, branchIf_true off s, .branched _ hd rfl⟩
  | false => exact ⟨_, branchIf_false off s, .branched s.ip hd rfl⟩

/-- Every instruction's unit answers a next state, of one of the four kinds. -/
theorem exec_unitStep (i : Instr) (s : State) : ∃ t, exec i s = .next t ∧ UnitStep i s t := by
  cases i with
  | addK dst imm => exact ⟨_, rfl, .wrote _ _ rfl rfl⟩
  | addX dst src => exact ⟨_, rfl, .wrote _ _ rfl rfl⟩
  | subK dst imm => exact ⟨_, rfl, .wrote _ _ rfl rfl⟩
  | subX dst src => exact ⟨_, rfl, .wrote _ _ rfl rfl⟩
  | mulK dst imm => exact ⟨_, rfl, .wrote _ _ rfl rfl⟩
  | mulX dst src => exact ⟨_, rfl, .wrote _ _ rfl rfl⟩
  | divK dst imm => exact unitStep_divide64 rfl _ _ s
  | divX dst src => exact unitStep_divide64 rfl _ _ s
  | orK dst imm => exact ⟨_, rfl, .wrote _ _ rfl rfl⟩
  | orX dst src => exact ⟨_, rfl, .wrote _ _ rfl rfl⟩
  | andK dst imm => exact ⟨_, rfl, .wrote _ _ rfl rfl⟩
  | andX dst src => exact ⟨_, rfl, .wrote _ _ rfl rfl⟩
  | lshK dst imm => exact unitStep_shift64 rfl _ _ s
  | lshX dst src => exact unitStep_shift64 rfl _ _ s
  | rshK dst imm => exact unitStep_shift64 rfl _ _ s
  | rshX dst src => exact unitStep_shift64 rfl _ _ s
  | negK dst => exact ⟨_, rfl, .wrote _ _ rfl rfl⟩
  | negX dst => exact ⟨_, rfl, .wrote _ _ rfl rfl⟩
  | modK dst imm => exact unitStep_divide64 rfl _ _ s
  | modX dst src => exact unitStep_divide64 rfl _ _ s
  | xorK dst imm => exact ⟨_, rfl, .wrote _ _ rfl rfl⟩
  | xorX dst src => exact ⟨_, rfl, .wrote _ _ rfl rfl⟩
  | movK dst imm => exact ⟨_, rfl, .wrote _ _ rfl rfl⟩
  | movX dst src => exact ⟨_, rfl, .wrote _ _ rfl rfl⟩
  | arshK dst imm => exact unitStep_shift64 rfl _ _ s
  | arshX dst src => exact unitStep_shift64 rfl _ _ s
  | add32K dst imm => exact ⟨_, rfl, .wrote _ _ rfl rfl⟩
  | add32X dst src => exact ⟨_, rfl, .wrote _ _ rfl rfl⟩
  | sub32K dst imm => exact ⟨_, rfl, .wrote _ _ rfl rfl⟩
  | sub32X dst src => exact ⟨_, rfl, .wrote _ _ rfl rfl⟩
  | mul32K dst imm => exact ⟨_, rfl, .wrote _ _ rfl rfl⟩
  | mul32X dst src => exact ⟨_, rfl, .wrote _ _ rfl rfl⟩
  | div32K dst imm => exact unitStep_divide32 rfl _ _ s
  | div32X dst src => exact unitStep_divide32 rfl _ _ s
  | or32K dst imm => exact ⟨_, rfl, .wrote _ _ rfl rfl⟩
  | or32X dst src => exact ⟨_, rfl, .wrote _ _ rfl rfl⟩
  | and32K dst imm => exact ⟨_, rfl, .wrote _ _ rfl rfl⟩
  | and32X dst src => exact ⟨_, rfl, .wrote _ _ rfl rfl⟩
  | lsh32K dst imm => exact unitStep_shift32 rfl _ _ s
  | lsh32X dst src => exact unitStep_shift32 rfl _ _ s
  | rsh32K dst imm => exact unitStep_shift32 rfl _ _ s
  | rsh32X dst src => exact unitStep_shift32 rfl _ _ s
  | neg32K dst => exact ⟨_, rfl, .wrote _ _ rfl rfl⟩
  | neg32X dst => exact ⟨_, rfl, .wrote _ _ rfl rfl⟩
  | mod32K dst imm => exact unitStep_divide32 rfl _ _ s
  | mod32X dst src => exact unitStep_divide32 rfl _ _ s
  | xor32K dst imm => exact ⟨_, rfl, .wrote _ _ rfl rfl⟩
  | xor32X dst src => exact ⟨_, rfl, .wrote _ _ rfl rfl⟩
  | mov32K dst imm => exact ⟨_, rfl, .wrote _ _ rfl rfl⟩
  | mov32X dst src => exact ⟨_, rfl, .wrote _ _ rfl rfl⟩
  | arsh32K dst imm => exact unitStep_shift32 rfl _ _ s
  | arsh32X dst src => exact unitStep_shift32 rfl _ _ s
  | le16 dst => exact ⟨_, rfl, .wrote _ _ rfl rfl⟩
  | le32 dst => exact ⟨_, rfl, .wrote _ _ rfl rfl⟩
  | le64 dst => exact ⟨_, rfl, .wrote _ _ rfl rfl⟩
  | be16 dst => exact ⟨_, rfl, .wrote _ _ rfl rfl⟩
  | be32 dst => exact ⟨_, rfl, .wrote _ _ rfl rfl⟩
  | be64 dst => exact ⟨_, rfl, .wrote _ _ rfl rfl⟩
  | jaK off => exact unitStep_branch rfl _ _ s
  | jaX off => exact unitStep_branch rfl _ _ s
  | jeqK dst imm off => exact unitStep_branch rfl _ _ s
  | jeqX dst src off => exact unitStep_branch rfl _ _ s
  | jgtK dst imm off => exact unitStep_branch rfl _ _ s
  | jgtX dst src off => exact unitStep_branch rfl _ _ s
  | jgeK dst imm off => exact unitStep_branch rfl _ _ s
  | jgeX dst src off => exact unitStep_branch rfl _ _ s
  | jsetK dst imm off => exact unitStep_branch rfl _ _ s
  | jsetX dst src off => exact unitStep_branch rfl _ _ s
  | jneK dst imm off => exact unitStep_branch rfl _ _ s
  | jneX dst src off => exact unitStep_branch rfl _ _ s
  | jltK dst imm off => exact unitStep_branch rfl _ _ s
  | jltX dst src off => exact unitStep_branch rfl _ _ s
  | jleK dst imm off => exact unitStep_branch rfl _ _ s
  | jleX dst src off => exact unitStep_branch rfl _ _ s

/-- The inversion: from a next state of `exec` to its kind. -/
theorem unitStep_of_exec {i : Instr} {s t : State} (h : exec i s = .next t) : UnitStep i s t := by
  obtain ⟨u, hu, k⟩ := exec_unitStep i s
  rw [h] at hu
  cases hu
  exact k

/-- A unit never reports the outcome Aborted. -/
theorem UnitStep.result_ne_aborted {i : Instr} {s t : State} (h : UnitStep i s t) : t.result ≠ some .aborted := by
  cases h <;> subst_vars <;> simp

/-- A unit writes neither memory, nor the control registers, nor the parameters. -/
theorem UnitStep.keeps {i : Instr} {s t : State} (h : UnitStep i s t) :
    t.imem = s.imem ∧ t.dmem = s.dmem ∧ t.cycleCount = s.cycleCount ∧ t.continuousMode = s.continuousMode ∧
      t.params = s.params := by
  cases h <;> subst_vars <;> exact ⟨rfl, rfl, rfl, rfl, rfl⟩

end Sys2Proof.Machine
end

