-- ==== Sys2Proof/Laws/Memory.lean ====
section
/-! SUPPORT. The laws of memory: a byte written is read back, every other byte is left alone, and every operation keeps the
one canonical form. -/

namespace Sys2Proof.Machine

theorem cellsWf_mono {size lo lo' : Nat} (h : lo' ≤ lo) :
    ∀ {l : List Host.Cell}, cellsWf size lo l = true → cellsWf size lo' l = true
  | [], _ => rfl
  | (k, b) :: rest, hw => by
    simp only [cellsWf, Bool.and_eq_true, decide_eq_true_eq] at hw ⊢
    exact ⟨⟨⟨by omega, hw.1.1.2⟩, hw.1.2⟩, hw.2⟩

theorem cellsWf_size_mono {size size' : Nat} (h : size ≤ size') :
    ∀ {lo : Nat} {l : List Host.Cell}, cellsWf size lo l = true → cellsWf size' lo l = true
  | _, [], _ => rfl
  | lo, (k, b) :: rest, hw => by
    simp only [cellsWf, Bool.and_eq_true, decide_eq_true_eq] at hw ⊢
    exact ⟨⟨⟨hw.1.1.1, by omega⟩, hw.1.2⟩, cellsWf_size_mono h hw.2⟩

/-- Writing a byte in range keeps the canonical form of the cells. -/
theorem cellsWf_setCell {size : Nat} {v : Byte} :
    ∀ {lo a : Nat} {l : List Host.Cell}, lo ≤ a → a < size → cellsWf size lo l = true →
      cellsWf size lo (setCell a v l) = true
  | lo, a, [], hlo, ha, _ => by
    unfold setCell
    split
    · rfl
    · simp_all [cellsWf]
  | lo, a, (k, b) :: rest, hlo, ha, hw => by
    simp only [cellsWf, Bool.and_eq_true, decide_eq_true_eq] at hw
    unfold setCell
    split
    · split
      · simp only [cellsWf, Bool.and_eq_true, decide_eq_true_eq]; exact hw
      · simp only [cellsWf, Bool.and_eq_true, decide_eq_true_eq]
        exact ⟨⟨⟨hlo, ha⟩, by simp_all⟩, ⟨⟨by omega, hw.1.1.2⟩, hw.1.2⟩, hw.2⟩
    · split
      · split
        · exact cellsWf_mono (by omega) hw.2
        · simp only [cellsWf, Bool.and_eq_true, decide_eq_true_eq]
          subst_vars
          exact ⟨⟨⟨hlo, ha⟩, by simp_all⟩, hw.2⟩
      · simp only [cellsWf, Bool.and_eq_true, decide_eq_true_eq]
        exact ⟨hw.1, cellsWf_setCell (by omega) ha hw.2⟩

/-- Below the first offset of canonical cells nothing is listed. -/
theorem lookupCell_of_lt {size : Nat} :
    ∀ {lo a : Nat} {l : List Host.Cell}, a < lo → cellsWf size lo l = true → lookupCell a l = 0
  | _, _, [], _, _ => rfl
  | lo, a, (k, b) :: rest, h, hw => by
    simp only [cellsWf, Bool.and_eq_true, decide_eq_true_eq] at hw
    have : k ≠ a := by omega
    simp only [lookupCell, if_neg this]
    exact lookupCell_of_lt (by omega) hw.2

/-- Read after write, on canonical cells. -/
theorem lookupCell_setCell {size : Nat} {v : Byte} :
    ∀ {lo a : Nat} {l : List Host.Cell} (c : Nat), cellsWf size lo l = true →
      lookupCell c (setCell a v l) = if c = a then v else lookupCell c l
  | lo, a, [], c, _ => by
    unfold setCell
    split <;> rename_i hv
    · simp [lookupCell, hv]
    · by_cases h : c = a
      · simp [lookupCell, h]
      · simp [lookupCell, h, Ne.symm h]
  | lo, a, (k, b) :: rest, c, hw => by
    simp only [cellsWf, Bool.and_eq_true, decide_eq_true_eq] at hw
    unfold setCell
    split
    · rename_i hak
      split
      · rename_i hv
        by_cases h : c = a
        · have hk : k ≠ c := by omega
          subst h
          simp only [lookupCell, if_neg hk, if_true, hv]
          exact lookupCell_of_lt (by omega) hw.2
        · rw [if_neg h]
      · by_cases h : c = a
        · simp [lookupCell, h]
        · simp [lookupCell, h, Ne.symm h]
    · split
      · rename_i hak
        subst hak
        split
        · rename_i hv
          by_cases h : c = a
          · subst h
            rw [if_pos rfl, hv]
            exact lookupCell_of_lt (by omega) hw.2
          · simp [lookupCell, h, Ne.symm h]
        · by_cases h : c = a
          · simp [lookupCell, h]
          · simp [lookupCell, h, Ne.symm h]
      · rename_i h1 h2
        by_cases hk : k = c
        · have : c ≠ a := by omega
          simp [lookupCell, hk, this]
        · simp only [lookupCell, if_neg hk]
          exact lookupCell_setCell c hw.2

@[simp] theorem writeByte_size (m : Memory) (a : Nat) (v : Byte) : (m.writeByte a v).size = m.size := by
  unfold Memory.writeByte; split <;> rfl

@[simp] theorem writeBytes_size (m : Memory) (a : Nat) (bs : List Byte) : (m.writeBytes a bs).size = m.size := by
  induction bs generalizing m a with
  | nil => rfl
  | cons v rest ih => simp [Memory.writeBytes, ih]

/-- A byte write keeps the canonical form. -/
theorem writeByte_wf {m : Memory} (h : m.wf = true) (a : Nat) (v : Byte) : (m.writeByte a v).wf = true := by
  unfold Memory.writeByte Memory.wf at *
  split
  · exact cellsWf_setCell (Nat.zero_le _) ‹_› h
  · exact h

/-- A write of consecutive bytes keeps the canonical form. -/
theorem writeBytes_wf {m : Memory} (h : m.wf = true) (a : Nat) (bs : List Byte) : (m.writeBytes a bs).wf = true := by
  induction bs generalizing m a with
  | nil => exact h
  | cons v rest ih => exact ih (writeByte_wf h a v) (a + 1)

/-- A zero-filled memory is canonical. -/
theorem zeroed_wf (n : Nat) : (Memory.zeroed n).wf = true := rfl

/-- Growing a memory keeps the canonical form. -/
theorem grow_wf {m : Memory} (h : m.wf = true) {n : Nat} (hn : m.size ≤ n) : ({ m with size := n }).wf = true :=
  cellsWf_size_mono hn h

theorem readByte_zeroed {n a : Nat} (h : a < n) : (Memory.zeroed n).readByte a = some 0 := by
  simp [Memory.readByte, Memory.zeroed, lookupCell, h]

theorem readByte_of_size_le {m : Memory} {a : Nat} (h : m.size ≤ a) : m.readByte a = none := by
  simp [Memory.readByte, Nat.not_lt.2 h]

/-- Read after write: the byte written where the offset exists, every other byte as before. -/
theorem readByte_writeByte {m : Memory} (h : m.wf = true) (a c : Nat) (v : Byte) :
    (m.writeByte a v).readByte c = if c = a ∧ a < m.size then some v else m.readByte c := by
  unfold Memory.writeByte Memory.readByte Memory.wf at *
  by_cases ha : a < m.size
  · simp only [ha, if_true, and_true]
    by_cases hc : c < m.size
    · simp only [hc, if_true, lookupCell_setCell c h]
      split <;> rfl
    · have : c ≠ a := by omega
      simp [hc, this]
  · simp [ha]

/-- Reading after a write of consecutive bytes. -/
theorem readByte_writeBytes {m : Memory} (h : m.wf = true) (a c : Nat) (bs : List Byte) :
    (m.writeBytes a bs).readByte c =
      if c < m.size ∧ a ≤ c ∧ c < a + bs.length then bs[c - a]? else m.readByte c := by
  induction bs generalizing m a with
  | nil =>
    have : ¬ (c < m.size ∧ a ≤ c ∧ c < a + ([] : List Byte).length) := by simp
    rw [if_neg this]; rfl
  | cons v rest ih =>
    rw [Memory.writeBytes, ih (writeByte_wf h a v), readByte_writeByte h]
    simp only [writeByte_size, List.length_cons]
    by_cases h1 : c = a
    · subst h1
      have : ¬ (c < m.size ∧ c + 1 ≤ c ∧ c < c + 1 + rest.length) := by omega
      rw [if_neg this]
      by_cases hs : c < m.size
      · simp [hs]
      · simp [hs]
    · by_cases h2 : c < m.size ∧ a + 1 ≤ c ∧ c < a + 1 + rest.length
      · rw [if_pos h2, if_pos (by omega)]
        have : c - a = (c - (a + 1)) + 1 := by omega
        rw [this, List.getElem?_cons_succ]
      · rw [if_neg h2, if_neg (by omega), if_neg (by omega)]

@[simp] theorem readBytes_length (m : Memory) (a n : Nat) : (m.readBytes a n).length = n := by
  induction n generalizing a with
  | zero => rfl
  | succ n ih => simp [Memory.readBytes, ih]

/-- The k-th byte of a read of consecutive bytes. -/
theorem readBytes_getD (m : Memory) {n k : Nat} (a : Nat) (h : k < n) :
    (m.readBytes a n).getD k 0 = (m.readByte (a + k)).getD 0 := by
  induction n generalizing a k with
  | zero => omega
  | succ n ih =>
    cases k with
    | zero => rfl
    | succ k =>
      have : a + (k + 1) = a + 1 + k := by omega
      rw [this, ← ih (a + 1) (by omega)]
      rfl

/-- The word of a slice depends on its first eight bytes alone (spec 30_encoding R73). -/
theorem leWord_readBytes (m : Memory) (a : Nat) {n : Nat} (h : 8 ≤ n) :
    leWord (m.readBytes a n) = leWord (m.readBytes a 8) := by
  have e : ∀ k, k < 8 → (m.readBytes a n).getD k 0 = (m.readBytes a 8).getD k 0 := fun k hk => by
    rw [readBytes_getD m a (by omega : k < n), readBytes_getD m a hk]
  simp only [leWord, e 0 (by omega), e 1 (by omega), e 2 (by omega), e 3 (by omega), e 4 (by omega), e 5 (by omega),
    e 6 (by omega), e 7 (by omega)]

end Sys2Proof.Machine
end

