-- ==== Sys2Proof/Laws/Engine.lean ====
section
/-! SUPPORT. Everything a step can do, said once (spec 45_execution_engine R221, R224): invariants of the machine follow
from `step_cases` without unfolding the step. -/

namespace Sys2Proof.Machine

section EndCheck
variable (s : State)

@[simp] theorem endCheck_x : (endCheck s).x = s.x := by unfold endCheck; split <;> [split <;> rfl; rfl]
@[simp] theorem endCheck_cycleCount : (endCheck s).cycleCount = s.cycleCount := by
  unfold endCheck; split <;> [split <;> rfl; rfl]
@[simp] theorem endCheck_continuousMode : (endCheck s).continuousMode = s.continuousMode := by
  unfold endCheck; split <;> [split <;> rfl; rfl]
@[simp] theorem endCheck_imem : (endCheck s).imem = s.imem := by unfold endCheck; split <;> [split <;> rfl; rfl]
@[simp] theorem endCheck_dmem : (endCheck s).dmem = s.dmem := by unfold endCheck; split <;> [split <;> rfl; rfl]
@[simp] theorem endCheck_params : (endCheck s).params = s.params := by unfold endCheck; split <;> [split <;> rfl; rfl]
@[simp] theorem endCheck_draws : (endCheck s).draws = s.draws := by unfold endCheck; split <;> [split <;> rfl; rfl]
@[simp] theorem endCheck_result : (endCheck s).result = s.result := by unfold endCheck; split <;> [split <;> rfl; rfl]
@[simp] theorem endCheck_illegalInstruction : (endCheck s).status.illegalInstruction = s.status.illegalInstruction := by
  unfold endCheck; split <;> [split <;> rfl; rfl]
@[simp] theorem endCheck_divideByZero : (endCheck s).status.divideByZero = s.status.divideByZero := by
  unfold endCheck; split <;> [split <;> rfl; rfl]
@[simp] theorem endCheck_getReg (r : Reg) : (endCheck s).getReg r = s.getReg r := getReg_of_x_eq (endCheck_x s) r

/-- The end check sets HALTED exactly at the end of a program that is not continuous (45_execution_engine R218). -/
theorem endCheck_halted :
    (endCheck s).status.halted = (s.status.halted || (decide (s.ip.toNat = s.imem.size) && !s.continuousMode)) := by
  unfold endCheck
  by_cases h : s.ip.toNat = s.imem.size
  · cases hc : s.continuousMode <;> simp [h]
  · simp [h]

/-- The end check rewinds `ip` exactly at the end of a continuous program (45_execution_engine R218). -/
theorem endCheck_ip :
    (endCheck s).ip = if s.ip.toNat = s.imem.size ∧ s.continuousMode = true then 0 else s.ip := by
  unfold endCheck
  by_cases h : s.ip.toNat = s.imem.size
  · cases hc : s.continuousMode <;> simp [h]
  · simp [h]

end EndCheck

theorem finishUnit_of_ne {s : State} (h : s.result ≠ some .aborted) : finishUnit s = endCheck (advance s) := if_neg h

theorem finishUnit_of_aborted {s : State} (h : s.result = some .aborted) : finishUnit s = s := if_pos h

theorem finishStep_next (t : State) : finishStep (.next t) = .next (finishUnit t) := rfl

/-- No step leaves the stuck state Aborted (45_execution_engine R220). -/
theorem step_of_aborted {s : State} (h : s.result = some .aborted) : step s = .fault .aborted := by
  simp only [step, startStep, h, if_true]

/-- A halted machine's step (45_execution_engine R212). -/
theorem step_of_halted {s : State} (ha : s.result ≠ some .aborted) (h : s.status.halted = true) :
    step s = .next (s.report .machineHalted) := by
  simp only [step, startStep, if_neg ha, h, if_true]

/-- A step of a running machine on bytes that are no instruction. -/
theorem step_of_reject {s : State} (hr : Running s) {e : Reject} (h : fetchDecode s = .error e) :
    step s = .next (rejectStep s e) := by
  simp only [step, startStep, if_neg hr.2, hr.1, h, if_false, Bool.false_eq_true]

/-- A step of a running machine on an instruction. -/
theorem step_of_instr {s : State} (hr : Running s) {i : Instr} (h : fetchDecode s = .ok i) :
    step s = finishStep (exec i s) := by
  simp only [step, startStep, if_neg hr.2, hr.1, h, if_false, Bool.false_eq_true]

/-- The kinds of next state a step answers. -/
inductive StepKind (s t : State) : Prop where
  /-- the machine was halted -/
  | halted (h : s.status.halted = true) (ht : t = s.report .machineHalted)
  /-- the bytes at `ip` are no instruction -/
  | rejected (hr : Running s) (e : Reject) (h : fetchDecode s = .error e) (ht : t = rejectStep s e)
  /-- an instruction's unit ran and the engine advanced -/
  | ran (hr : Running s) (i : Instr) (h : fetchDecode s = .ok i) (u : State) (he : exec i s = .next u)
      (hu : UnitStep i s u) (ht : t = endCheck (advance u))

/-- The inversion: every step that answers a next state is of one of the three kinds. -/
theorem step_cases {s t : State} (h : step s = .next t) : StepKind s t := by
  by_cases ha : s.result = some .aborted
  · rw [step_of_aborted ha] at h; cases h
  · by_cases hh : s.status.halted = true
    · rw [step_of_halted ha hh] at h
      cases h
      exact .halted hh rfl
    · have hr : Running s := ⟨by simpa using hh, ha⟩
      cases hf : fetchDecode s with
      | error e =>
        rw [step_of_reject hr hf] at h
        cases h
        exact .rejected hr e hf rfl
      | ok i =>
        obtain ⟨u, hu, k⟩ := exec_unitStep i s
        rw [step_of_instr hr hf, hu, finishStep_next, finishUnit_of_ne k.result_ne_aborted] at h
        cases h
        exact .ran hr i hf u hu k rfl

/-- The engine's advance and end check, in the claims' terms (45_execution_engine R217, R218). -/
theorem advanced_endCheck (u : State) : Advanced u (endCheck (advance u)) := by
  have hip : (advance u).ip.toNat = (u.ip.toNat + 8) % 2 ^ 64 := by simp [BitVec.toNat_add]
  refine ⟨?_, ?_, by simp, by simp, by simp [BitVec.toNat_add], by simp, by simp, by simp, by simp, fun r => by simp,
    by simp [SameMemory]⟩
  · rw [endCheck_ip]
    by_cases hc : (u.ip.toNat + 8) % 2 ^ 64 = u.imem.size ∧ u.continuousMode = true
    · rw [if_pos hc, if_pos (by rw [hip]; exact hc)]; rfl
    · rw [if_neg hc, if_neg (by rw [hip]; exact hc)]; exact hip
  · rw [endCheck_halted, hip]; rfl

/-- A fetch that succeeds gives the eight bytes at `ip` (20_memory R51). -/
theorem fetchBytes_of_fetchOk {s : State} (h : FetchOk s) : fetchBytes s = some (s.imem.readBytes s.ip.toNat 8) := by
  obtain ⟨h1, h2⟩ := h
  exact if_neg (by omega)

/-- Every other fetch fails (20_memory R52, R53). -/
theorem fetchBytes_of_not_fetchOk {s : State} (h : ¬ FetchOk s) : fetchBytes s = none :=
  if_pos (by unfold FetchOk at h; omega)

theorem decodeSlice_of_length {l : List Byte} (h : l.length = 8) : decodeSlice l = some (fieldsOfWord (leWord l)) :=
  if_neg (by omega)

/-- Where the fetch succeeds, the engine decodes the eight bytes at `ip`. -/
theorem fetchDecode_eq_decode {s : State} (h : FetchOk s) :
    fetchDecode s = decode s.params.opMaps (s.imem.readBytes s.ip.toNat 8) := by
  simp [fetchDecode, fetchBytes_of_fetchOk h]

/-- Where the fetch succeeds, the engine classifies the fields of the word at `ip`. -/
theorem fetchDecode_eq_classify {s : State} (h : FetchOk s) :
    fetchDecode s = classify s.params.opMaps (fieldsOfWord (leWord (s.imem.readBytes s.ip.toNat 8))) := by
  rw [fetchDecode_eq_decode h, decode, decodeSlice_of_length (readBytes_length ..)]

theorem fetchDecode_of_not_fetchOk {s : State} (h : ¬ FetchOk s) : fetchDecode s = .error .malformedBuffer := by
  simp [fetchDecode, fetchBytes_of_not_fetchOk h]

/-- Classifying never reports a bad slice, and reports an illegal class exactly on one. -/
theorem classify_error {m : OpMaps} {f : Fields} {e : Reject} (h : classify m f = .error e) :
    e ≠ .malformedBuffer ∧ (e = .illegalClass ↔ f.classLegal = false) := by
  refine ⟨?_, ?_⟩
  · rintro rfl
    revert h
    unfold classify
    repeat' split
    all_goals simp
  · revert h
    unfold classify
    repeat' split
    all_goals (intro h; cases h)
    all_goals simp_all [Fields.classLegal]

/-- Only words of a legal class are instructions (30_encoding R83, 45_execution_engine R215). -/
theorem classLegal_of_classify {m : OpMaps} {f : Fields} {i : Instr} (h : classify m f = .ok i) :
    f.classLegal = true := by
  revert h
  unfold classify
  repeat' split
  all_goals simp_all [Fields.classLegal]

/-- An undefined ALU64 operation faults, and under FATAL it aborts as well (41_alu64 R114). -/
theorem undefinedAlu64_cases (s : State) :
    (s.params.alu64IllegalPolicy = .graceful ∧ undefinedAlu64 s = s.raiseFault .illegalInstruction) ∨
      (s.params.alu64IllegalPolicy = .fatal ∧
        undefinedAlu64 s = (s.raiseFault .illegalInstruction).report .aborted) := by
  unfold undefinedAlu64; split <;> simp_all

/-- What a running machine's step does with bytes that are no instruction, by the reason of the refusal. -/
theorem rejectStep_cases (s : State) (e : Reject) :
    (e = .malformedBuffer ∧ rejectStep s e = s.report .fetchFailed) ∨
      (e = .illegalClass ∧ rejectStep s e = s.raiseFault .illegalInstruction) ∨
      (e = .undefinedAlu64 ∧ s.params.alu64IllegalPolicy = .fatal ∧
        rejectStep s e = (s.raiseFault .illegalInstruction).report .aborted) ∨
      (e ≠ .malformedBuffer ∧ e ≠ .illegalClass ∧
        rejectStep s e = endCheck (advance (s.raiseFault .illegalInstruction))) := by
  cases e with
  | malformedBuffer => exact .inl ⟨rfl, rfl⟩
  | illegalClass => exact .inr (.inl ⟨rfl, rfl⟩)
  | undefinedAlu64 =>
    rcases undefinedAlu64_cases s with ⟨_, h⟩ | ⟨hp, h⟩
    · refine .inr (.inr (.inr ⟨by simp, by simp, ?_⟩))
      rw [rejectStep, h]; exact finishUnit_of_ne (by simp)
    · refine .inr (.inr (.inl ⟨rfl, hp, ?_⟩))
      rw [rejectStep, h]; exact finishUnit_of_aborted rfl
  | undefinedAlu32 => exact .inr (.inr (.inr ⟨by simp, by simp, finishUnit_of_ne (by simp [undefinedAlu32])⟩))
  | illegalWidth => exact .inr (.inr (.inr ⟨by simp, by simp, finishUnit_of_ne (by simp [illegalEndianWidth])⟩))
  | undefinedCondition => exact .inr (.inr (.inr ⟨by simp, by simp, finishUnit_of_ne (by simp [undefinedCondition])⟩))

/-- The fields of the word at `ip`, where a fetch succeeds. -/
abbrev fetchedFields (s : State) : Fields := fieldsOfWord (leWord (s.imem.readBytes s.ip.toNat 8))

/-- The six ways a step can go, with the state each leaves: what the claims about all steps are proved from. -/
inductive StepWay (s t : State) : Prop where
  /-- the machine was halted -/
  | halted (h : s.status.halted = true) (ht : t = s.report .machineHalted)
  /-- the fetch failed -/
  | fetchFailed (hr : Running s) (hk : ¬ FetchOk s) (ht : t = s.report .fetchFailed)
  /-- the class is illegal -/
  | illegalClass (hr : Running s) (hk : FetchOk s) (hc : (fetchedFields s).classLegal = false)
      (ht : t = s.raiseFault .illegalInstruction)
  /-- an undefined ALU64 operation aborted -/
  | aborted (hr : Running s) (hk : FetchOk s) (hp : s.params.alu64IllegalPolicy = .fatal)
      (ht : t = (s.raiseFault .illegalInstruction).report .aborted)
  /-- a unit met an illegal encoding -/
  | illegal (hr : Running s) (hk : FetchOk s) (hc : (fetchedFields s).classLegal = true)
      (ht : t = endCheck (advance (s.raiseFault .illegalInstruction)))
  /-- an instruction ran -/
  | ran (hr : Running s) (hk : FetchOk s) (i : Instr) (hf : fetchDecode s = .ok i) (u : State) (he : exec i s = .next u)
      (hu : UnitStep i s u) (ht : t = endCheck (advance u))

/-- The full inversion of a step that answers a next state. -/
theorem step_ways {s t : State} (h : step s = .next t) : StepWay s t := by
  rcases step_cases h with ⟨h, ht⟩ | ⟨hr, e, hf, ht⟩ | ⟨hr, i, hf, u, he, hu, ht⟩
  · exact .halted h ht
  · by_cases hk : FetchOk s
    · rw [fetchDecode_eq_classify hk] at hf
      obtain ⟨h1, h2⟩ := classify_error hf
      rcases rejectStep_cases s e with ⟨he, -⟩ | ⟨he, q⟩ | ⟨-, hp, q⟩ | ⟨-, he, q⟩
      · exact absurd he h1
      · exact .illegalClass hr hk (h2.1 he) (ht.trans q)
      · exact .aborted hr hk hp (ht.trans q)
      · refine .illegal hr hk ?_ (ht.trans q)
        cases hc : (fetchedFields s).classLegal with
        | true => rfl
        | false => exact absurd (h2.2 hc) he
    · rw [fetchDecode_of_not_fetchOk hk] at hf
      cases hf
      exact .fetchFailed hr hk ht
  · have hk : FetchOk s := by
      by_contra hk
      rw [fetchDecode_of_not_fetchOk hk] at hf
      cases hf
    exact .ran hr hk i hf u he hu ht

/-- What a unit reports: success, or a division by zero that has set its flags and nothing else. -/
theorem UnitStep.result_cases {i : Instr} {s u : State} (h : UnitStep i s u) :
    (u.result = some .success ∧ u.status = s.status) ∨
      (u.result = some .divideByZero ∧ u.status = s.status.raise .divideByZero ∧ u.x = s.x ∧ u.ip = s.ip) := by
  cases h <;> subst_vars
  · exact .inl ⟨rfl, rfl⟩
  · exact .inl ⟨rfl, rfl⟩
  · exact .inr ⟨rfl, rfl, rfl, rfl⟩
  · exact .inl ⟨rfl, rfl⟩

end Sys2Proof.Machine
end

