-- ==== Sys2Proof/Laws/Operands.lean ====
section
/-! SUPPORT. The operand forms, shift amounts and byte reversals as natural numbers (spec 41_alu64 R100, R115, 42_alu32
R140, R155, 43_endian_swap R184). -/

namespace Sys2Proof.Machine

@[simp] theorem rhsImm_toNat (imm : BitVec 32) : (rhsImm imm).toNat = imm.toNat := by
  have := imm.isLt
  simp only [rhsImm, BitVec.toNat_setWidth]
  omega

@[simp] theorem rhsReg_eq (src : Reg) (s : State) : rhsReg src s = s.getReg src := rfl

@[simp] theorem low32_toNat (v : Word) : (low32 v).toNat = v.toNat % 2 ^ 32 := by
  simp [low32]

@[simp] theorem low32_rhsImm (imm : BitVec 32) : low32 (rhsImm imm) = imm := by
  apply BitVec.eq_of_toNat_eq
  have := imm.isLt
  simp only [low32_toNat, rhsImm_toNat]
  omega

@[simp] theorem widen_toNat (r : Half) : (r.setWidth 64 : Word).toNat = r.toNat := by
  have := r.isLt
  simp only [BitVec.toNat_setWidth]
  omega

theorem word_eq_zero_iff (v : Word) : v = 0 ↔ v.toNat = 0 := by
  simp [BitVec.toNat_eq]

theorem half_eq_zero_iff (v : Half) : v = 0 ↔ v.toNat = 0 := by
  simp [BitVec.toNat_eq]

theorem shamt64_mask (v : Word) : shamt64 .mask v = some (v.toNat % 64) := by
  simp [shamt64, BitVec.extractLsb'_toNat]

theorem shamt64_draw_lt {v : Word} (h : v.toNat < 64) : shamt64 .draw v = some v.toNat := if_pos h

theorem shamt64_draw_ge {v : Word} (h : 64 ≤ v.toNat) : shamt64 .draw v = none := if_neg (Nat.not_lt.2 h)

theorem shamt32_mask (v : Half) : shamt32 .mask v = some (v.toNat % 32) := by
  simp [shamt32, BitVec.extractLsb'_toNat]

theorem shamt32_draw_lt {v : Half} (h : v.toNat < 32) : shamt32 .draw v = some v.toNat := if_pos h

theorem shamt32_draw_ge {v : Half} (h : 32 ≤ v.toNat) : shamt32 .draw v = none := if_neg (Nat.not_lt.2 h)

@[simp] theorem byteAt_toNat (v : Word) (k : Nat) : (byteAt v k).toNat = v.toNat / 2 ^ (8 * k) % 256 := by
  simp [byteAt, BitVec.extractLsb'_toNat, Nat.shiftRight_eq_div_pow]

theorem append_byte_toNat {n : Nat} (a : BitVec n) (b : Byte) : (a ++ b).toNat = a.toNat * 256 + b.toNat := by
  rw [BitVec.toNat_append, ← Nat.shiftLeft_add_eq_or_of_lt b.isLt, Nat.shiftLeft_eq]

theorem bswap16_toNat (v : Word) : (bswap16 v).toNat = (byteAt v 0).toNat * 256 + (byteAt v 1).toNat := by
  simp only [bswap16, append_byte_toNat]

theorem bswap32_toNat (v : Word) :
    (bswap32 v).toNat =
      (((byteAt v 0).toNat * 256 + (byteAt v 1).toNat) * 256 + (byteAt v 2).toNat) * 256 + (byteAt v 3).toNat := by
  simp only [bswap32, append_byte_toNat]

theorem bswap64_toNat (v : Word) :
    (bswap64 v).toNat =
      (((((((byteAt v 0).toNat * 256 + (byteAt v 1).toNat) * 256 + (byteAt v 2).toNat) * 256 + (byteAt v 3).toNat) * 256 +
        (byteAt v 4).toNat) * 256 + (byteAt v 5).toNat) * 256 + (byteAt v 6).toNat) * 256 + (byteAt v 7).toNat := by
  simp only [bswap64, append_byte_toNat]

end Sys2Proof.Machine
end

