-- ==== Sys2Proof/Laws/PerInstr.lean ====
section
/-! SUPPORT. The per-instruction family EncodesLegally: under every admitted pair of code maps an instruction's encoding is
a legal word, none of the illegal encodings (a) to (e) of spec 30_encoding R83. -/

namespace Sys2Proof

/-- A class 7 word with an operation's code is legal. -/
theorem alu64_legal {m : OpMaps} (_ : m.wf = true) {f : Fields} (o : AluOp) (hc : f.cls = 7)
    (ho : f.code = m.alu.code o) : f.legal m = true := by
  have hin : m.alu.code o ∈ allAluOps.map m.alu.code := List.mem_map_of_mem (mem_allAluOps o)
  simp [Fields.legal, Fields.classLegal, Fields.alu64Legal, Fields.alu32Legal, Fields.widthLegal, Fields.conditionLegal,
    hc, ho, -List.mem_map, hin]

/-- A class 4 word with an operation's code is legal. -/
theorem alu32_legal {m : OpMaps} (h : m.wf = true) {f : Fields} (o : AluOp) (hc : f.cls = 4)
    (ho : f.code = m.alu.code o) : f.legal m = true := by
  have hin : m.alu.code o ∈ allAluOps.map m.alu.code := List.mem_map_of_mem (mem_allAluOps o)
  have hne : m.alu.code o ≠ 0xd := aluCode_ne_end (wf_alu h) o
  simp [Fields.legal, Fields.classLegal, Fields.alu64Legal, Fields.alu32Legal, Fields.widthLegal, Fields.conditionLegal,
    hc, ho, -List.mem_map, hin]
  exact .inl (.inl (.inl hne))

/-- A class 4 word with the endian-swap code and one of the three widths is legal. -/
theorem end_legal (m : OpMaps) {f : Fields} (hc : f.cls = 4) (ho : f.code = 0xd)
    (hw : f.imm = 16 ∨ f.imm = 32 ∨ f.imm = 64) : f.legal m = true := by
  rcases hw with hw | hw | hw <;>
    simp [Fields.legal, Fields.classLegal, Fields.alu64Legal, Fields.alu32Legal, Fields.widthLegal,
      Fields.conditionLegal, hc, ho, hw]

/-- A class 5 word with a condition's code is legal. -/
theorem jmp_legal {m : OpMaps} (_ : m.wf = true) {f : Fields} (c : JmpCond) (hc : f.cls = 5)
    (ho : f.code = m.jmp.code c) : f.legal m = true := by
  have hin : m.jmp.code c ∈ allJmpConds.map m.jmp.code := List.mem_map_of_mem (mem_allJmpConds c)
  simp [Fields.legal, Fields.classLegal, Fields.alu64Legal, Fields.alu32Legal, Fields.widthLegal, Fields.conditionLegal,
    hc, ho, -List.mem_map, hin]

namespace Laws.EncodesLegally

/-- The encoding of the instruction is a legal word. -/
def Statement (i : Instr) : Prop := ∀ m : OpMaps, m.wf = true → (i.fields m).legal m = true

theorem addK (dst : Reg) (imm : BitVec 32) : Statement (.addK dst imm) :=
  fun _ h => alu64_legal h .add (fieldsK_cls ..) (fieldsK_code ..)
theorem addX (dst src : Reg) : Statement (.addX dst src) :=
  fun _ h => alu64_legal h .add (fieldsX_cls ..) (fieldsX_code ..)
theorem subK (dst : Reg) (imm : BitVec 32) : Statement (.subK dst imm) :=
  fun _ h => alu64_legal h .sub (fieldsK_cls ..) (fieldsK_code ..)
theorem subX (dst src : Reg) : Statement (.subX dst src) :=
  fun _ h => alu64_legal h .sub (fieldsX_cls ..) (fieldsX_code ..)
theorem mulK (dst : Reg) (imm : BitVec 32) : Statement (.mulK dst imm) :=
  fun _ h => alu64_legal h .mul (fieldsK_cls ..) (fieldsK_code ..)
theorem mulX (dst src : Reg) : Statement (.mulX dst src) :=
  fun _ h => alu64_legal h .mul (fieldsX_cls ..) (fieldsX_code ..)
theorem divK (dst : Reg) (imm : BitVec 32) : Statement (.divK dst imm) :=
  fun _ h => alu64_legal h .div (fieldsK_cls ..) (fieldsK_code ..)
theorem divX (dst src : Reg) : Statement (.divX dst src) :=
  fun _ h => alu64_legal h .div (fieldsX_cls ..) (fieldsX_code ..)
theorem orK (dst : Reg) (imm : BitVec 32) : Statement (.orK dst imm) :=
  fun _ h => alu64_legal h .or (fieldsK_cls ..) (fieldsK_code ..)
theorem orX (dst src : Reg) : Statement (.orX dst src) :=
  fun _ h => alu64_legal h .or (fieldsX_cls ..) (fieldsX_code ..)
theorem andK (dst : Reg) (imm : BitVec 32) : Statement (.andK dst imm) :=
  fun _ h => alu64_legal h .and (fieldsK_cls ..) (fieldsK_code ..)
theorem andX (dst src : Reg) : Statement (.andX dst src) :=
  fun _ h => alu64_legal h .and (fieldsX_cls ..) (fieldsX_code ..)
theorem lshK (dst : Reg) (imm : BitVec 32) : Statement (.lshK dst imm) :=
  fun _ h => alu64_legal h .lsh (fieldsK_cls ..) (fieldsK_code ..)
theorem lshX (dst src : Reg) : Statement (.lshX dst src) :=
  fun _ h => alu64_legal h .lsh (fieldsX_cls ..) (fieldsX_code ..)
theorem rshK (dst : Reg) (imm : BitVec 32) : Statement (.rshK dst imm) :=
  fun _ h => alu64_legal h .rsh (fieldsK_cls ..) (fieldsK_code ..)
theorem rshX (dst src : Reg) : Statement (.rshX dst src) :=
  fun _ h => alu64_legal h .rsh (fieldsX_cls ..) (fieldsX_code ..)
theorem negK (dst : Reg) : Statement (.negK dst) :=
  fun _ h => alu64_legal h .neg (fieldsK_cls ..) (fieldsK_code ..)
theorem negX (dst : Reg) : Statement (.negX dst) :=
  fun _ h => alu64_legal h .neg (fieldsX_cls ..) (fieldsX_code ..)
theorem modK (dst : Reg) (imm : BitVec 32) : Statement (.modK dst imm) :=
  fun _ h => alu64_legal h .mod (fieldsK_cls ..) (fieldsK_code ..)
theorem modX (dst src : Reg) : Statement (.modX dst src) :=
  fun _ h => alu64_legal h .mod (fieldsX_cls ..) (fieldsX_code ..)
theorem xorK (dst : Reg) (imm : BitVec 32) : Statement (.xorK dst imm) :=
  fun _ h => alu64_legal h .xor (fieldsK_cls ..) (fieldsK_code ..)
theorem xorX (dst src : Reg) : Statement (.xorX dst src) :=
  fun _ h => alu64_legal h .xor (fieldsX_cls ..) (fieldsX_code ..)
theorem movK (dst : Reg) (imm : BitVec 32) : Statement (.movK dst imm) :=
  fun _ h => alu64_legal h .mov (fieldsK_cls ..) (fieldsK_code ..)
theorem movX (dst src : Reg) : Statement (.movX dst src) :=
  fun _ h => alu64_legal h .mov (fieldsX_cls ..) (fieldsX_code ..)
theorem arshK (dst : Reg) (imm : BitVec 32) : Statement (.arshK dst imm) :=
  fun _ h => alu64_legal h .arsh (fieldsK_cls ..) (fieldsK_code ..)
theorem arshX (dst src : Reg) : Statement (.arshX dst src) :=
  fun _ h => alu64_legal h .arsh (fieldsX_cls ..) (fieldsX_code ..)
theorem add32K (dst : Reg) (imm : BitVec 32) : Statement (.add32K dst imm) :=
  fun _ h => alu32_legal h .add (fieldsK_cls ..) (fieldsK_code ..)
theorem add32X (dst src : Reg) : Statement (.add32X dst src) :=
  fun _ h => alu32_legal h .add (fieldsX_cls ..) (fieldsX_code ..)
theorem sub32K (dst : Reg) (imm : BitVec 32) : Statement (.sub32K dst imm) :=
  fun _ h => alu32_legal h .sub (fieldsK_cls ..) (fieldsK_code ..)
theorem sub32X (dst src : Reg) : Statement (.sub32X dst src) :=
  fun _ h => alu32_legal h .sub (fieldsX_cls ..) (fieldsX_code ..)
theorem mul32K (dst : Reg) (imm : BitVec 32) : Statement (.mul32K dst imm) :=
  fun _ h => alu32_legal h .mul (fieldsK_cls ..) (fieldsK_code ..)
theorem mul32X (dst src : Reg) : Statement (.mul32X dst src) :=
  fun _ h => alu32_legal h .mul (fieldsX_cls ..) (fieldsX_code ..)
theorem div32K (dst : Reg) (imm : BitVec 32) : Statement (.div32K dst imm) :=
  fun _ h => alu32_legal h .div (fieldsK_cls ..) (fieldsK_code ..)
theorem div32X (dst src : Reg) : Statement (.div32X dst src) :=
  fun _ h => alu32_legal h .div (fieldsX_cls ..) (fieldsX_code ..)
theorem or32K (dst : Reg) (imm : BitVec 32) : Statement (.or32K dst imm) :=
  fun _ h => alu32_legal h .or (fieldsK_cls ..) (fieldsK_code ..)
theorem or32X (dst src : Reg) : Statement (.or32X dst src) :=
  fun _ h => alu32_legal h .or (fieldsX_cls ..) (fieldsX_code ..)
theorem and32K (dst : Reg) (imm : BitVec 32) : Statement (.and32K dst imm) :=
  fun _ h => alu32_legal h .and (fieldsK_cls ..) (fieldsK_code ..)
theorem and32X (dst src : Reg) : Statement (.and32X dst src) :=
  fun _ h => alu32_legal h .and (fieldsX_cls ..) (fieldsX_code ..)
theorem lsh32K (dst : Reg) (imm : BitVec 32) : Statement (.lsh32K dst imm) :=
  fun _ h => alu32_legal h .lsh (fieldsK_cls ..) (fieldsK_code ..)
theorem lsh32X (dst src : Reg) : Statement (.lsh32X dst src) :=
  fun _ h => alu32_legal h .lsh (fieldsX_cls ..) (fieldsX_code ..)
theorem rsh32K (dst : Reg) (imm : BitVec 32) : Statement (.rsh32K dst imm) :=
  fun _ h => alu32_legal h .rsh (fieldsK_cls ..) (fieldsK_code ..)
theorem rsh32X (dst src : Reg) : Statement (.rsh32X dst src) :=
  fun _ h => alu32_legal h .rsh (fieldsX_cls ..) (fieldsX_code ..)
theorem neg32K (dst : Reg) : Statement (.neg32K dst) :=
  fun _ h => alu32_legal h .neg (fieldsK_cls ..) (fieldsK_code ..)
theorem neg32X (dst : Reg) : Statement (.neg32X dst) :=
  fun _ h => alu32_legal h .neg (fieldsX_cls ..) (fieldsX_code ..)
theorem mod32K (dst : Reg) (imm : BitVec 32) : Statement (.mod32K dst imm) :=
  fun _ h => alu32_legal h .mod (fieldsK_cls ..) (fieldsK_code ..)
theorem mod32X (dst src : Reg) : Statement (.mod32X dst src) :=
  fun _ h => alu32_legal h .mod (fieldsX_cls ..) (fieldsX_code ..)
theorem xor32K (dst : Reg) (imm : BitVec 32) : Statement (.xor32K dst imm) :=
  fun _ h => alu32_legal h .xor (fieldsK_cls ..) (fieldsK_code ..)
theorem xor32X (dst src : Reg) : Statement (.xor32X dst src) :=
  fun _ h => alu32_legal h .xor (fieldsX_cls ..) (fieldsX_code ..)
theorem mov32K (dst : Reg) (imm : BitVec 32) : Statement (.mov32K dst imm) :=
  fun _ h => alu32_legal h .mov (fieldsK_cls ..) (fieldsK_code ..)
theorem mov32X (dst src : Reg) : Statement (.mov32X dst src) :=
  fun _ h => alu32_legal h .mov (fieldsX_cls ..) (fieldsX_code ..)
theorem arsh32K (dst : Reg) (imm : BitVec 32) : Statement (.arsh32K dst imm) :=
  fun _ h => alu32_legal h .arsh (fieldsK_cls ..) (fieldsK_code ..)
theorem arsh32X (dst src : Reg) : Statement (.arsh32X dst src) :=
  fun _ h => alu32_legal h .arsh (fieldsX_cls ..) (fieldsX_code ..)
theorem le16 (dst : Reg) : Statement (.le16 dst) :=
  fun m _ => end_legal m (fieldsEnd_cls ..) (fieldsEnd_code ..) (.inl rfl)
theorem le32 (dst : Reg) : Statement (.le32 dst) :=
  fun m _ => end_legal m (fieldsEnd_cls ..) (fieldsEnd_code ..) (.inr (.inl rfl))
theorem le64 (dst : Reg) : Statement (.le64 dst) :=
  fun m _ => end_legal m (fieldsEnd_cls ..) (fieldsEnd_code ..) (.inr (.inr rfl))
theorem be16 (dst : Reg) : Statement (.be16 dst) :=
  fun m _ => end_legal m (fieldsEnd_cls ..) (fieldsEnd_code ..) (.inl rfl)
theorem be32 (dst : Reg) : Statement (.be32 dst) :=
  fun m _ => end_legal m (fieldsEnd_cls ..) (fieldsEnd_code ..) (.inr (.inl rfl))
theorem be64 (dst : Reg) : Statement (.be64 dst) :=
  fun m _ => end_legal m (fieldsEnd_cls ..) (fieldsEnd_code ..) (.inr (.inr rfl))
theorem jaK (off : BitVec 16) : Statement (.jaK off) :=
  fun _ h => jmp_legal h .ja (fieldsK_cls ..) (fieldsK_code ..)
theorem jaX (off : BitVec 16) : Statement (.jaX off) :=
  fun _ h => jmp_legal h .ja (fieldsX_cls ..) (fieldsX_code ..)
theorem jeqK (dst : Reg) (imm : BitVec 32) (off : BitVec 16) : Statement (.jeqK dst imm off) :=
  fun _ h => jmp_legal h .jeq (fieldsK_cls ..) (fieldsK_code ..)
theorem jeqX (dst src : Reg) (off : BitVec 16) : Statement (.jeqX dst src off) :=
  fun _ h => jmp_legal h .jeq (fieldsX_cls ..) (fieldsX_code ..)
theorem jgtK (dst : Reg) (imm : BitVec 32) (off : BitVec 16) : Statement (.jgtK dst imm off) :=
  fun _ h => jmp_legal h .jgt (fieldsK_cls ..) (fieldsK_code ..)
theorem jgtX (dst src : Reg) (off : BitVec 16) : Statement (.jgtX dst src off) :=
  fun _ h => jmp_legal h .jgt (fieldsX_cls ..) (fieldsX_code ..)
theorem jgeK (dst : Reg) (imm : BitVec 32) (off : BitVec 16) : Statement (.jgeK dst imm off) :=
  fun _ h => jmp_legal h .jge (fieldsK_cls ..) (fieldsK_code ..)
theorem jgeX (dst src : Reg) (off : BitVec 16) : Statement (.jgeX dst src off) :=
  fun _ h => jmp_legal h .jge (fieldsX_cls ..) (fieldsX_code ..)
theorem jsetK (dst : Reg) (imm : BitVec 32) (off : BitVec 16) : Statement (.jsetK dst imm off) :=
  fun _ h => jmp_legal h .jset (fieldsK_cls ..) (fieldsK_code ..)
theorem jsetX (dst src : Reg) (off : BitVec 16) : Statement (.jsetX dst src off) :=
  fun _ h => jmp_legal h .jset (fieldsX_cls ..) (fieldsX_code ..)
theorem jneK (dst : Reg) (imm : BitVec 32) (off : BitVec 16) : Statement (.jneK dst imm off) :=
  fun _ h => jmp_legal h .jne (fieldsK_cls ..) (fieldsK_code ..)
theorem jneX (dst src : Reg) (off : BitVec 16) : Statement (.jneX dst src off) :=
  fun _ h => jmp_legal h .jne (fieldsX_cls ..) (fieldsX_code ..)
theorem jltK (dst : Reg) (imm : BitVec 32) (off : BitVec 16) : Statement (.jltK dst imm off) :=
  fun _ h => jmp_legal h .jlt (fieldsK_cls ..) (fieldsK_code ..)
theorem jltX (dst src : Reg) (off : BitVec 16) : Statement (.jltX dst src off) :=
  fun _ h => jmp_legal h .jlt (fieldsX_cls ..) (fieldsX_code ..)
theorem jleK (dst : Reg) (imm : BitVec 32) (off : BitVec 16) : Statement (.jleK dst imm off) :=
  fun _ h => jmp_legal h .jle (fieldsK_cls ..) (fieldsK_code ..)
theorem jleX (dst src : Reg) (off : BitVec 16) : Statement (.jleX dst src off) :=
  fun _ h => jmp_legal h .jle (fieldsX_cls ..) (fieldsX_code ..)

end Laws.EncodesLegally

end Sys2Proof
end

