-- ==== Sys2Proof/Laws/Run.lean ====
section
/-! SUPPORT. What one step of a run does in an ended state and in a stuck one, and how the two exclude each other (spec
45_execution_engine R223): the claims about whole runs follow by induction from these. -/

namespace Sys2Proof.Machine

section HostWrite
variable (b : Option Bool) (s : State)

@[simp] theorem hostWrite_x : (hostWrite b s).x = s.x := by cases b <;> rfl
@[simp] theorem hostWrite_ip : (hostWrite b s).ip = s.ip := by cases b <;> rfl
@[simp] theorem hostWrite_status : (hostWrite b s).status = s.status := by cases b <;> rfl
@[simp] theorem hostWrite_cycleCount : (hostWrite b s).cycleCount = s.cycleCount := by cases b <;> rfl
@[simp] theorem hostWrite_imem : (hostWrite b s).imem = s.imem := by cases b <;> rfl
@[simp] theorem hostWrite_dmem : (hostWrite b s).dmem = s.dmem := by cases b <;> rfl
@[simp] theorem hostWrite_params : (hostWrite b s).params = s.params := by cases b <;> rfl
@[simp] theorem hostWrite_draws : (hostWrite b s).draws = s.draws := by cases b <;> rfl
@[simp] theorem hostWrite_result : (hostWrite b s).result = s.result := by cases b <;> rfl

end HostWrite

@[simp] theorem runAt_zero (w : Nat → Option Bool) (s : State) : runAt w s 0 = some s := rfl

theorem runAt_succ (w : Nat → Option Bool) (s : State) (n : Nat) :
    runAt w s (n + 1) = (runAt w s n).bind (runStep (w n)) := rfl

theorem runAt_succ_of_eq {w : Nat → Option Bool} {s t : State} {n : Nat} (h : runAt w s n = some t) :
    runAt w s (n + 1) = runStep (w n) t := by
  rw [runAt_succ, h, Option.bind_some]

theorem SameMachine.refl (s : State) : SameMachine s s := rfl

theorem SameMachine.trans {s t u : State} (h : SameMachine s t) (k : SameMachine t u) : SameMachine s u := by
  unfold SameMachine at h k ⊢
  rw [k, h]

/-- A host's write and a result code leave the machine as it was. -/
theorem sameMachine_report_hostWrite (b : Option Bool) (s : State) (c : StepResult) :
    SameMachine s ((hostWrite b s).report c) := by
  cases b <;> rfl

/-- Exactly the running machines whose fetch fails are stuck by it (20_memory R52, 45_execution_engine R213). -/
theorem fetchStuck_iff (s : State) : FetchStuck s ↔ Running s ∧ ¬ FetchOk s := by
  constructor
  · rintro ⟨t, h, hres⟩
    rcases step_ways h with ⟨_, ht⟩ | ⟨hr, hk, _⟩ | ⟨_, _, _, ht⟩ | ⟨_, _, _, ht⟩ | ⟨_, _, _, ht⟩ |
      ⟨_, _, i, _, u, _, hu, ht⟩
    · subst ht; cases hres
    · exact ⟨hr, hk⟩
    · subst ht; cases hres
    · subst ht; cases hres
    · subst ht; simp at hres
    · subst ht
      rcases hu.result_cases with ⟨h, _⟩ | ⟨h, _⟩ <;> simp [h] at hres
  · rintro ⟨hr, hk⟩
    exact ⟨_, step_of_reject hr (fetchDecode_of_not_fetchOk hk), rfl⟩

/-- A stuck state is no ending (45_execution_engine R223). -/
theorem Stuck.not_ended {s : State} (h : Stuck s) : ¬ Ended s := by
  rintro ⟨hh, ha⟩
  rcases h with h | h
  · have := ((fetchStuck_iff s).1 h).1.1
    rw [hh] at this
    cases this
  · exact ha h

/-- A step of a run from an ended state answers MachineHalted and changes nothing (45_execution_engine R212, R223). -/
theorem runStep_of_ended {s : State} (h : Ended s) (b : Option Bool) :
    runStep b s = some ((hostWrite b s).report .machineHalted) := by
  rw [runStep, step_of_halted (by rw [hostWrite_result]; exact h.2) (by rw [hostWrite_status]; exact h.1)]
  rfl

/-- A step of a run from a fetch that fails answers FetchFailed and changes nothing (45_execution_engine R213, R223). -/
theorem runStep_of_fetchStuck {s : State} (h : FetchStuck s) (b : Option Bool) :
    runStep b s = some ((hostWrite b s).report .fetchFailed) := by
  obtain ⟨hr, hk⟩ := (fetchStuck_iff s).1 h
  have hr : Running (hostWrite b s) := by simpa [Running] using hr
  have hk : ¬ FetchOk (hostWrite b s) := by simpa [FetchOk] using hk
  rw [runStep, step_of_reject hr (fetchDecode_of_not_fetchOk hk)]
  rfl

/-- The state after such a step is ended again. -/
theorem ended_report_machineHalted {s : State} (h : Ended s) (b : Option Bool) :
    Ended ((hostWrite b s).report .machineHalted) :=
  ⟨by rw [report_status, hostWrite_status]; exact h.1, nofun⟩

/-- The state after such a step is stuck again. -/
theorem fetchStuck_report_fetchFailed {s : State} (h : FetchStuck s) (b : Option Bool) :
    FetchStuck ((hostWrite b s).report .fetchFailed) := by
  obtain ⟨hr, hk⟩ := (fetchStuck_iff s).1 h
  refine (fetchStuck_iff _).2 ⟨⟨?_, nofun⟩, ?_⟩
  · rw [report_status, hostWrite_status]; exact hr.1
  · simpa [FetchOk] using hk

/-- A run has no step from an Aborted state (45_execution_engine R220). -/
theorem runStep_of_aborted {s : State} (h : Aborted s) (b : Option Bool) : runStep b s = none := by
  rw [runStep, step_of_aborted (by rw [hostWrite_result]; exact h)]
  rfl

end Sys2Proof.Machine
end

