-- ==== Sys2Proof/Tests/Slice0.lean ====
section
/-! SUPPORT. Tests of this model: vectors of the spec's own 95_test_vectors and hand calculations from its rules, the
smoke test of WellFormed.lean, and one witness for the hypotheses of each statement of Obligations.lean. -/

namespace Sys2Proof.Machine

/-- A machine with parameters, IMEM_LEN, `ip`, some registers, and bytes at `ip`. -/
def loadedAt (p : Params) (size : Nat) (ip : Word) (regs : List (Reg × Word)) (bytes : List Byte) : State :=
  let t := regs.foldl (fun u e => u.setReg e.1 e.2) (State.initialized p size 0)
  { t with ip := ip, imem := t.imem.writeBytes ip.toNat bytes }

/-- A register, `ip`, the status word, `cycle_count` and the result code of a next state. -/
def seen (o : Host.Outcome State Fault Refusal) (r : Reg) : Option (Word × Word × Word × Word × Option StepResult) :=
  match o with
  | .next t => some (t.getReg r, t.ip, t.status.word, t.cycleCount, t.result)
  | .fault _ => none
  | .refused _ => none

/-- The outcome is a next state with a property. -/
def nextAnd (o : Host.Outcome State Fault Refusal) (p : State → Bool) : Bool :=
  match o with
  | .next t => p t
  | .fault _ => false
  | .refused _ => false

/-- The default parameters with SHIFT_AMOUNT_POLICY = DRAW. -/
def drawParams : Params := { defaultParams with shiftAmountPolicy := .draw }

/-- The default parameters with ALU64_ILLEGAL_POLICY = FATAL. -/
def fatalParams : Params := { defaultParams with alu64IllegalPolicy := .fatal }

/-- The default parameters with HOST_ORDER = BIG. -/
def bigParams : Params := { defaultParams with hostOrder := .big }

/-- A halted machine with a whole word at `ip`. -/
def haltedState : State :=
  let s := loadedAt defaultParams 16 0 [(1, 7)] [0x01, 0, 0, 0, 0, 0, 0x01, 0x07]
  { s with status := s.status.halt }

/-- A machine left with the outcome Aborted. -/
def abortedState : State :=
  (loadedAt fatalParams 16 0 [] [0, 0, 0, 0, 0, 0, 0x01, 0xe7]).raiseFault .illegalInstruction |>.report .aborted

/-! Decoding. -/

/-- Opcode bytes 0x07 to 0xc7, class 7 with mode 0 (30_encoding R74, R79, R81). The other fields are src 2, dst 1, off 3, imm 0x80000005. -/
theorem test_decode_alu64_k :
    [0x0721000380000005, 0x1721000380000005, 0x2721000380000005, 0x3721000380000005,
      0x4721000380000005, 0x5721000380000005, 0x6721000380000005, 0x7721000380000005,
      0x8721000380000005, 0x9721000380000005, 0xa721000380000005, 0xb721000380000005,
      0xc721000380000005].map
      (decodeTableWord 64) =
    [some (.addK 1 0x80000005), some (.subK 1 0x80000005), some (.mulK 1 0x80000005),
      some (.divK 1 0x80000005), some (.orK 1 0x80000005), some (.andK 1 0x80000005),
      some (.lshK 1 0x80000005), some (.rshK 1 0x80000005), some (.negK 1),
      some (.modK 1 0x80000005), some (.xorK 1 0x80000005), some (.movK 1 0x80000005),
      some (.arshK 1 0x80000005)] := by decide

/-- Opcode bytes 0x0f to 0xcf, class 7 with mode 1 (30_encoding R74, R79, R81). The other fields are src 2, dst 1, off 3, imm 0x80000005. -/
theorem test_decode_alu64_x :
    [0x0f21000380000005, 0x1f21000380000005, 0x2f21000380000005, 0x3f21000380000005,
      0x4f21000380000005, 0x5f21000380000005, 0x6f21000380000005, 0x7f21000380000005,
      0x8f21000380000005, 0x9f21000380000005, 0xaf21000380000005, 0xbf21000380000005,
      0xcf21000380000005].map
      (decodeTableWord 64) =
    [some (.addX 1 2), some (.subX 1 2), some (.mulX 1 2),
      some (.divX 1 2), some (.orX 1 2), some (.andX 1 2),
      some (.lshX 1 2), some (.rshX 1 2), some (.negX 1),
      some (.modX 1 2), some (.xorX 1 2), some (.movX 1 2),
      some (.arshX 1 2)] := by decide

/-- Opcode bytes 0x04 to 0xc4, class 4 with mode 0 (30_encoding R74, R79, R81). The other fields are src 2, dst 1, off 3, imm 0x80000005. -/
theorem test_decode_alu32_k :
    [0x0421000380000005, 0x1421000380000005, 0x2421000380000005, 0x3421000380000005,
      0x4421000380000005, 0x5421000380000005, 0x6421000380000005, 0x7421000380000005,
      0x8421000380000005, 0x9421000380000005, 0xa421000380000005, 0xb421000380000005,
      0xc421000380000005].map
      (decodeTableWord 64) =
    [some (.add32K 1 0x80000005), some (.sub32K 1 0x80000005), some (.mul32K 1 0x80000005),
      some (.div32K 1 0x80000005), some (.or32K 1 0x80000005), some (.and32K 1 0x80000005),
      some (.lsh32K 1 0x80000005), some (.rsh32K 1 0x80000005), some (.neg32K 1),
      some (.mod32K 1 0x80000005), some (.xor32K 1 0x80000005), some (.mov32K 1 0x80000005),
      some (.arsh32K 1 0x80000005)] := by decide

/-- Opcode bytes 0x0c to 0xcc, class 4 with mode 1 (30_encoding R74, R79, R81). The other fields are src 2, dst 1, off 3, imm 0x80000005. -/
theorem test_decode_alu32_x :
    [0x0c21000380000005, 0x1c21000380000005, 0x2c21000380000005, 0x3c21000380000005,
      0x4c21000380000005, 0x5c21000380000005, 0x6c21000380000005, 0x7c21000380000005,
      0x8c21000380000005, 0x9c21000380000005, 0xac21000380000005, 0xbc21000380000005,
      0xcc21000380000005].map
      (decodeTableWord 64) =
    [some (.add32X 1 2), some (.sub32X 1 2), some (.mul32X 1 2),
      some (.div32X 1 2), some (.or32X 1 2), some (.and32X 1 2),
      some (.lsh32X 1 2), some (.rsh32X 1 2), some (.neg32X 1),
      some (.mod32X 1 2), some (.xor32X 1 2), some (.mov32X 1 2),
      some (.arsh32X 1 2)] := by decide

/-- Opcode bytes of class 5 with mode 0 (30_encoding R74, R80, R81). The other fields are src 2, dst 1, off 3, imm 0x80000005. -/
theorem test_decode_branch_k :
    [0x0521000380000005, 0x1521000380000005, 0x2521000380000005, 0x3521000380000005,
      0x4521000380000005, 0x5521000380000005, 0xa521000380000005, 0xb521000380000005].map
      (decodeTableWord 64) =
    [some (.jaK 3), some (.jeqK 1 0x80000005 3), some (.jgtK 1 0x80000005 3),
      some (.jgeK 1 0x80000005 3), some (.jsetK 1 0x80000005 3), some (.jneK 1 0x80000005 3),
      some (.jltK 1 0x80000005 3), some (.jleK 1 0x80000005 3)] := by decide

/-- Opcode bytes of class 5 with mode 1 (30_encoding R74, R80, R81). The other fields are src 2, dst 1, off 3, imm 0x80000005. -/
theorem test_decode_branch_x :
    [0x0d21000380000005, 0x1d21000380000005, 0x2d21000380000005, 0x3d21000380000005,
      0x4d21000380000005, 0x5d21000380000005, 0xad21000380000005, 0xbd21000380000005].map
      (decodeTableWord 64) =
    [some (.jaX 3), some (.jeqX 1 2 3), some (.jgtX 1 2 3),
      some (.jgeX 1 2 3), some (.jsetX 1 2 3), some (.jneX 1 2 3),
      some (.jltX 1 2 3), some (.jleX 1 2 3)] := by decide

/-- Opcode bytes 0xd4 (le) and 0xdc (be) with the widths 16, 32 and 64 in the immediate; src and off are ignored
(43_endian_swap R180). -/
theorem test_decode_endian :
    [0xd421000300000010, 0xd421000300000020, 0xd421000300000040, 0xdc21000300000010, 0xdc21000300000020,
      0xdc21000300000040].map (decodeTableWord 64) =
    [some (.le16 1), some (.le32 1), some (.le64 1), some (.be16 1), some (.be32 1), some (.be64 1)] := by decide

/-- Words written bit by bit as opcode (code, mode, class), src, dst, offset, immediate (30_encoding R72, R74). -/
theorem test_decode_bits_alu64 :
    decodeTableWord 64 (0b0001_1_111_1110_0011_0000000000000000_00000000000000000000000000000000) =
      some (.subX 3 14) := by decide

theorem test_decode_bits_alu32 :
    decodeTableWord 64 (0b1100_0_100_0000_1111_0000000000000000_10000000000000000000000000011111) =
      some (.arsh32K 15 0x8000001f) := by decide

theorem test_decode_bits_endian :
    decodeTableWord 64 (0b1101_1_100_0000_0111_0000000000000000_00000000000000000000000000100000) =
      some (.be32 7) := by decide

theorem test_decode_bits_branch :
    decodeTableWord 64 (0b1010_1_101_0010_0001_1111111111110000_00000000000000000000000000000000) =
      some (.jltX 1 2 0xfff0) := by decide

/-- The other way: the encoder's bytes for vector F6's fields' instruction (95_test_vectors F6 with imm 0, which the
register form does not show). -/
theorem test_encode_F6 :
    encode defaultOpMaps (.jgtX 3 12 0xffff) = [0x00, 0x00, 0x00, 0x00, 0xff, 0xff, 0xc3, 0x2d] := by decide

theorem test_encode_immediate :
    encode defaultOpMaps (.movK 6 0x14) = [0x14, 0x00, 0x00, 0x00, 0x00, 0x00, 0x06, 0xb7] := by decide

/-- 95_test_vectors F6: fields to bytes and back. -/
theorem test_F6_round_trip :
    leBytes (wordOfFields { imm := 0x80000000, off := 0xffff, dst := 3, src := 12, op := 0x2d }) =
      [0x00, 0x00, 0x00, 0x80, 0xff, 0xff, 0xc3, 0x2d] ∧
    decodeSlice [0x00, 0x00, 0x00, 0x80, 0xff, 0xff, 0xc3, 0x2d] =
      some { imm := 0x80000000, off := 0xffff, dst := 3, src := 12, op := 0x2d } := by decide

/-- 95_test_vectors F1, R71 and R72. -/
theorem test_F1_fields :
    decodeSlice [0x01, 0x02, 0x03, 0x04, 0x05, 0x06, 0xa7, 0xb8] =
      some { imm := 0x04030201, off := 0x0605, dst := 7, src := 0xa, op := 0xb8 } := by decide

/-- 95_test_vectors F4 and F5: the lengths the decoder refuses and takes; bytes after the eighth are not read. -/
theorem test_F4_F5_lengths :
    [0, 1, 7, 9, 12, 15, 20].map (fun n => decodeSlice (List.replicate n 0x07)) = List.replicate 7 none ∧
    [8, 16, 24].map (fun n => decodeSlice ([0x05, 0, 0, 0, 0, 0, 0x01, 0x07] ++ List.replicate (n - 8) 0xff)) =
      List.replicate 3 (some { imm := 5, off := 0, dst := 1, src := 0, op := 0x07 }) := by decide

/-! The smoke test: for each check of WellFormed.lean a term it takes and one it refuses. -/

/-- `AluOpMap.wf`: the default map is admitted; two operations under one code, or one under 0xd, are not. -/
theorem test_wf_alu_map :
    defaultAluOpMap.wf = true ∧ ({ defaultAluOpMap with sub := 0x0 } : AluOpMap).wf = false ∧
      ({ defaultAluOpMap with arsh := 0xd } : AluOpMap).wf = false ∧
      ({ defaultAluOpMap with arsh := 0xf } : AluOpMap).wf = true := by decide

/-- `JmpOpMap.wf`: the default map is admitted; two conditions under one code are not. -/
theorem test_wf_jmp_map :
    defaultJmpOpMap.wf = true ∧ ({ defaultJmpOpMap with jle := 0xa } : JmpOpMap).wf = false := by decide

/-- `OpMaps.wf` refuses where either map is refused. -/
theorem test_wf_maps :
    defaultOpMaps.wf = true ∧
      ({ defaultOpMaps with alu := { defaultAluOpMap with sub := 0x0 } } : OpMaps).wf = false ∧
      ({ defaultOpMaps with jmp := { defaultJmpOpMap with jle := 0xa } } : OpMaps).wf = false := by decide

/-- (a): classes 0, 1, 2, 3 and 6 are refused. -/
theorem test_wf_class :
    [0, 1, 2, 3, 4, 5, 6, 7].map (fun c => (fieldsK c 0 0 0 0).classLegal) =
      [false, false, false, false, true, true, false, true] := by decide

/-- (b): an ALU64 word with the code 0xd is refused, and with it the whole word. -/
theorem test_wf_alu64 :
    (fieldsK 7 0xc 0 0 0).alu64Legal defaultOpMaps = true ∧ (fieldsK 7 0xd 0 16 0).alu64Legal defaultOpMaps = false ∧
      (fieldsK 7 0xd 0 16 0).legal defaultOpMaps = false := by decide

/-- (c): a class 4 word with the code 0xe is refused, and with 0xd it is not. -/
theorem test_wf_alu32 :
    (fieldsK 4 0xd 0 16 0).alu32Legal defaultOpMaps = true ∧ (fieldsK 4 0xe 0 0 0).alu32Legal defaultOpMaps = false ∧
      (fieldsK 4 0xe 0 0 0).legal defaultOpMaps = false := by decide

/-- (d): the widths 16, 32 and 64 are taken, 0, 8 and 0x00010010 are not (95_test_vectors C14 to C16). -/
theorem test_wf_width :
    [16, 32, 64, 0, 8, 0x00010010].map (fun w => (fieldsEnd false w 0).widthLegal) =
      [true, true, true, false, false, false] ∧ (fieldsEnd true 8 0).legal defaultOpMaps = false := by decide

/-- (e): a branch word with the code 0x6 is refused. -/
theorem test_wf_condition :
    (fieldsK 5 0xb 0 0 0).conditionLegal defaultOpMaps = true ∧
      (fieldsK 5 0x6 0 0 0).conditionLegal defaultOpMaps = false ∧
      (fieldsK 5 0x6 0 0 0).legal defaultOpMaps = false := by decide

/-- `Memory.wf` refuses a listed zero byte, a byte past the end, and offsets that do not rise. -/
theorem test_wf_memory :
    (Memory.mk 8 [(0, 1), (7, 2)]).wf = true ∧ (Memory.mk 8 [(0, 0)]).wf = false ∧ (Memory.mk 8 [(8, 1)]).wf = false ∧
      (Memory.mk 8 [(3, 1), (3, 2)]).wf = false ∧ (Memory.mk 8 [(4, 1), (3, 2)]).wf = false := by decide

/-- Writing 0x00 over a byte removes its entry, so that equal memories are equal data. -/
theorem test_memory_canonical :
    ((Memory.zeroed 4).writeBytes 0 [1, 2, 3]).writeByte 1 0 = { size := 4, cells := [(0, 1), (2, 3)] } ∧
      (Memory.zeroed 4).writeByte 4 9 = Memory.zeroed 4 ∧ (Memory.zeroed 4).readByte 3 = some 0 ∧
      (Memory.zeroed 4).readByte 4 = none := by decide

/-! ALU64 (95_test_vectors section 2.1). -/

/-- 95_test_vectors A1, R101: `add r1, r2`. -/
theorem test_A1_add_wraps :
    seen (step (loadedAt defaultParams 16 0 [(1, 0xFFFFFFFFFFFFFFFF), (2, 0x2)]
      [0x00, 0x00, 0x00, 0x00, 0x00, 0x00, 0x21, 0x0f])) 1 = some (0x1, 8, 0, 1, some .success) := by decide

/-- 95_test_vectors A2, R101, R100: `add r1, 0xffffffff`. -/
theorem test_A2_add_zero_extends :
    seen (step (loadedAt defaultParams 16 0 [(1, 0x1)]
      [0xff, 0xff, 0xff, 0xff, 0x00, 0x00, 0x01, 0x07])) 1 = some (0x100000000, 8, 0, 1, some .success) := by decide

/-- 95_test_vectors A3, R102: `sub r1, 1`. -/
theorem test_A3_sub_borrows :
    seen (step (loadedAt defaultParams 16 0 [(1, 0x0)]
      [0x01, 0x00, 0x00, 0x00, 0x00, 0x00, 0x01, 0x17])) 1 = some (0xFFFFFFFFFFFFFFFF, 8, 0, 1, some .success) := by decide

/-- 95_test_vectors A5, R103: `mul r1, r2`. -/
theorem test_A5_mul_low_half :
    seen (step (loadedAt defaultParams 16 0 [(1, 0xFFFFFFFFFFFFFFFF), (2, 0xFFFFFFFFFFFFFFFF)]
      [0x00, 0x00, 0x00, 0x00, 0x00, 0x00, 0x21, 0x2f])) 1 = some (0x1, 8, 0, 1, some .success) := by decide

/-- 95_test_vectors A6, R103: `mul r3, 0x10`. -/
theorem test_A6_mul_immediate :
    seen (step (loadedAt defaultParams 16 0 [(3, 0x1000000000000001)]
      [0x10, 0x00, 0x00, 0x00, 0x00, 0x00, 0x03, 0x27])) 3 = some (0x10, 8, 0, 1, some .success) := by decide

/-- 95_test_vectors A7, R104: `div r1, r2`. -/
theorem test_A7_div_unsigned :
    seen (step (loadedAt defaultParams 16 0 [(1, 0xFFFFFFFFFFFFFFFF), (2, 0x2)]
      [0x00, 0x00, 0x00, 0x00, 0x00, 0x00, 0x21, 0x3f])) 1 = some (0x7FFFFFFFFFFFFFFF, 8, 0, 1, some .success) := by decide

/-- 95_test_vectors A8, R104, R100: `div r1, 0xffffffff`. -/
theorem test_A8_div_immediate :
    seen (step (loadedAt defaultParams 16 0 [(1, 0xFFFFFFFE00000001)]
      [0xff, 0xff, 0xff, 0xff, 0x00, 0x00, 0x01, 0x37])) 1 = some (0xFFFFFFFF, 8, 0, 1, some .success) := by decide

/-- 95_test_vectors A9, R104: `div r1, 0`. -/
theorem test_A9_div_by_zero :
    seen (step (loadedAt defaultParams 16 0 [(1, 0x1234)]
      [0x00, 0x00, 0x00, 0x00, 0x00, 0x00, 0x01, 0x37])) 1 = some (0x1234, 8, 5, 1, some .divideByZero) := by decide

/-- 95_test_vectors A10, R104: `div r1, r1`. -/
theorem test_A10_div_register_by_zero :
    seen (step (loadedAt defaultParams 16 0 [(1, 0x0)]
      [0x00, 0x00, 0x00, 0x00, 0x00, 0x00, 0x11, 0x3f])) 1 = some (0x0, 8, 5, 1, some .divideByZero) := by decide

/-- 95_test_vectors A11, R105: `or r1, 0x80000000`. -/
theorem test_A11_or_zero_extends :
    seen (step (loadedAt defaultParams 16 0 [(1, 0x0)]
      [0x00, 0x00, 0x00, 0x80, 0x00, 0x00, 0x01, 0x47])) 1 = some (0x80000000, 8, 0, 1, some .success) := by decide

/-- 95_test_vectors A12, R106: `and r1, 0xffffffff`. -/
theorem test_A12_and_clears_upper :
    seen (step (loadedAt defaultParams 16 0 [(1, 0x123456789ABCDEF0)]
      [0xff, 0xff, 0xff, 0xff, 0x00, 0x00, 0x01, 0x57])) 1 = some (0x9ABCDEF0, 8, 0, 1, some .success) := by decide

/-- 95_test_vectors A14, R107, R115: `lsh r1, 64`. -/
theorem test_A14_lsh_masks_64 :
    seen (step (loadedAt defaultParams 16 0 [(1, 0x5)]
      [0x40, 0x00, 0x00, 0x00, 0x00, 0x00, 0x01, 0x67])) 1 = some (0x5, 8, 0, 1, some .success) := by decide

/-- 95_test_vectors A15, R107, R115: `lsh r1, r2`. -/
theorem test_A15_lsh_masks_65 :
    seen (step (loadedAt defaultParams 16 0 [(1, 0x5), (2, 0x41)]
      [0x00, 0x00, 0x00, 0x00, 0x00, 0x00, 0x21, 0x6f])) 1 = some (0xA, 8, 0, 1, some .success) := by decide

/-- 95_test_vectors A16, R108: `rsh r1, 63`. -/
theorem test_A16_rsh_from_the_top :
    seen (step (loadedAt defaultParams 16 0 [(1, 0x8000000000000000)]
      [0x3f, 0x00, 0x00, 0x00, 0x00, 0x00, 0x01, 0x77])) 1 = some (0x1, 8, 0, 1, some .success) := by decide

/-- 95_test_vectors A17, R108, R115: `rsh r1, r2`. -/
theorem test_A17_rsh_masks_the_register :
    seen (step (loadedAt defaultParams 16 0 [(1, 0xFFFFFFFFFFFFFFFF), (2, 0x100000004)]
      [0x00, 0x00, 0x00, 0x00, 0x00, 0x00, 0x21, 0x7f])) 1 = some (0xFFFFFFFFFFFFFFF, 8, 0, 1, some .success) := by decide

/-- 95_test_vectors A18, R109: `neg r1`. -/
theorem test_A18_neg_complement :
    seen (step (loadedAt defaultParams 16 0 [(1, 0x0)]
      [0x00, 0x00, 0x00, 0x00, 0x00, 0x00, 0x01, 0x87])) 1 = some (0xFFFFFFFFFFFFFFFF, 8, 0, 1, some .success) := by decide

/-- 95_test_vectors A19, R109: `neg r1`. -/
theorem test_A19_neg_twos_complement :
    seen (step (loadedAt { defaultParams with negMode := .twosComplement } 16 0 [(1, 0x0)]
      [0x00, 0x00, 0x00, 0x00, 0x00, 0x00, 0x01, 0x87])) 1 = some (0x0, 8, 0, 1, some .success) := by decide

/-- 95_test_vectors A20, R109: `neg.x r1` (src = 2, imm = 7 ignored). -/
theorem test_A20_negx_ignores_source :
    seen (step (loadedAt defaultParams 16 0 [(1, 0x5), (2, 0x9)]
      [0x07, 0x00, 0x00, 0x00, 0x00, 0x00, 0x21, 0x8f])) 1 = some (0xFFFFFFFFFFFFFFFA, 8, 0, 1, some .success) := by decide

/-- 95_test_vectors A21, R109: `neg.x r1` (src = 2, imm = 7 ignored). -/
theorem test_A21_negx_twos_complement :
    seen (step (loadedAt { defaultParams with negMode := .twosComplement } 16 0 [(1, 0x5), (2, 0x9)]
      [0x07, 0x00, 0x00, 0x00, 0x00, 0x00, 0x21, 0x8f])) 1 = some (0xFFFFFFFFFFFFFFFB, 8, 0, 1, some .success) := by decide

/-- 95_test_vectors A22, R110: `mod r1, 3`. -/
theorem test_A22_mod_immediate :
    seen (step (loadedAt defaultParams 16 0 [(1, 0xA)]
      [0x03, 0x00, 0x00, 0x00, 0x00, 0x00, 0x01, 0x97])) 1 = some (0x1, 8, 0, 1, some .success) := by decide

/-- 95_test_vectors A23, R110: `mod r1, r2`. -/
theorem test_A23_mod_register :
    seen (step (loadedAt defaultParams 16 0 [(1, 0xFFFFFFFFFFFFFFFF), (2, 0x10)]
      [0x00, 0x00, 0x00, 0x00, 0x00, 0x00, 0x21, 0x9f])) 1 = some (0xF, 8, 0, 1, some .success) := by decide

/-- 95_test_vectors A24, R110: `mod r1, 0`. -/
theorem test_A24_mod_by_zero :
    seen (step (loadedAt defaultParams 16 0 [(1, 0xA)]
      [0x00, 0x00, 0x00, 0x00, 0x00, 0x00, 0x01, 0x97])) 1 = some (0xA, 8, 5, 1, some .divideByZero) := by decide

/-- 95_test_vectors A25, R111: `xor r1, r1`. -/
theorem test_A25_xor_with_itself :
    seen (step (loadedAt defaultParams 16 0 [(1, 0xDEADBEEF)]
      [0x00, 0x00, 0x00, 0x00, 0x00, 0x00, 0x11, 0xaf])) 1 = some (0x0, 8, 0, 1, some .success) := by decide

/-- 95_test_vectors A26, R111: `xor r1, 0xffffffff`. -/
theorem test_A26_xor_zero_extends :
    seen (step (loadedAt defaultParams 16 0 [(1, 0xFFFFFFFF00000000)]
      [0xff, 0xff, 0xff, 0xff, 0x00, 0x00, 0x01, 0xa7])) 1 = some (0xFFFFFFFFFFFFFFFF, 8, 0, 1, some .success) := by decide

/-- 95_test_vectors A27, R112: `mov r1, 0xffffffff`. -/
theorem test_A27_mov_zero_extends :
    seen (step (loadedAt defaultParams 16 0 [(1, 0x7)]
      [0xff, 0xff, 0xff, 0xff, 0x00, 0x00, 0x01, 0xb7])) 1 = some (0xFFFFFFFF, 8, 0, 1, some .success) := by decide

/-- 95_test_vectors A28, R112: `mov r1, r2`. -/
theorem test_A28_mov_register :
    seen (step (loadedAt defaultParams 16 0 [(1, 0x7), (2, 0xFFFFFFFFFFFFFFFF)]
      [0x00, 0x00, 0x00, 0x00, 0x00, 0x00, 0x21, 0xbf])) 1 = some (0xFFFFFFFFFFFFFFFF, 8, 0, 1, some .success) := by decide

/-- 95_test_vectors A30, R113: `arsh r1, 4`. -/
theorem test_A30_arsh_sign_bit_only :
    seen (step (loadedAt defaultParams 16 0 [(1, 0x8000000000000000)]
      [0x04, 0x00, 0x00, 0x00, 0x00, 0x00, 0x01, 0xc7])) 1 = some (0x8800000000000000, 8, 0, 1, some .success) := by decide

/-- 95_test_vectors A31, R113: `arsh r1, 4`. -/
theorem test_A31_arsh_sign_extend :
    seen (step (loadedAt { defaultParams with arshMode := .signExtend } 16 0 [(1, 0x8000000000000000)]
      [0x04, 0x00, 0x00, 0x00, 0x00, 0x00, 0x01, 0xc7])) 1 = some (0xF800000000000000, 8, 0, 1, some .success) := by decide

/-- 95_test_vectors A33, R113: `arsh r1, r2`. -/
theorem test_A33_arsh_by_zero :
    seen (step (loadedAt defaultParams 16 0 [(1, 0xF000000000000010), (2, 0x0)]
      [0x00, 0x00, 0x00, 0x00, 0x00, 0x00, 0x21, 0xcf])) 1 = some (0xF000000000000010, 8, 0, 1, some .success) := by decide

/-- 95_test_vectors A34, R114: (0xd7, code 0xd, imm = 16). -/
theorem test_A34_undefined_alu64 :
    seen (step (loadedAt defaultParams 16 0 [(1, 0x1234)]
      [0x10, 0x00, 0x00, 0x00, 0x00, 0x00, 0x01, 0xd7])) 1 = some (0x1234, 8, 3, 1, some .illegalInstruction) := by decide

/-- 95_test_vectors A36, R114, R220: (0xe7, code 0xe). -/
theorem test_A36_undefined_alu64_fatal :
    seen (step (loadedAt { defaultParams with alu64IllegalPolicy := .fatal } 16 0 [(1, 0x1234)]
      [0x00, 0x00, 0x00, 0x00, 0x00, 0x00, 0x01, 0xe7])) 1 = some (0x1234, 0, 3, 0, some .aborted) := by decide

/-! ALU32 (section 2.2). -/

/-- 95_test_vectors B1, R141: `add32 r1, 1`. -/
theorem test_B1_add32_clears_upper :
    seen (step (loadedAt defaultParams 16 0 [(1, 0xFFFFFFFFFFFFFFFF)]
      [0x01, 0x00, 0x00, 0x00, 0x00, 0x00, 0x01, 0x04])) 1 = some (0x0, 8, 0, 1, some .success) := by decide

/-- 95_test_vectors B2, R141: `add32 r1, r2`. -/
theorem test_B2_add32_truncates :
    seen (step (loadedAt defaultParams 16 0 [(1, 0x17FFFFFFF), (2, 0xFFFFFFFF00000001)]
      [0x00, 0x00, 0x00, 0x00, 0x00, 0x00, 0x21, 0x0c])) 1 = some (0x80000000, 8, 0, 1, some .success) := by decide

/-- 95_test_vectors B3, R142: `sub32 r1, 1`. -/
theorem test_B3_sub32_borrows :
    seen (step (loadedAt defaultParams 16 0 [(1, 0x0)]
      [0x01, 0x00, 0x00, 0x00, 0x00, 0x00, 0x01, 0x14])) 1 = some (0xFFFFFFFF, 8, 0, 1, some .success) := by decide

/-- 95_test_vectors B4, R142: `sub32 r1, r2`. -/
theorem test_B4_sub32_truncates :
    seen (step (loadedAt defaultParams 16 0 [(1, 0xAAAAAAAA00000005), (2, 0x5)]
      [0x00, 0x00, 0x00, 0x00, 0x00, 0x00, 0x21, 0x1c])) 1 = some (0x0, 8, 0, 1, some .success) := by decide

/-- 95_test_vectors B5, R143: `mul32 r1, r2`. -/
theorem test_B5_mul32_low_half :
    seen (step (loadedAt defaultParams 16 0 [(1, 0x10000), (2, 0x10000)]
      [0x00, 0x00, 0x00, 0x00, 0x00, 0x00, 0x21, 0x2c])) 1 = some (0x0, 8, 0, 1, some .success) := by decide

/-- 95_test_vectors B6, R143: `mul32 r1, 3`. -/
theorem test_B6_mul32_immediate :
    seen (step (loadedAt defaultParams 16 0 [(1, 0xFFFFFFFFFFFFFFFF)]
      [0x03, 0x00, 0x00, 0x00, 0x00, 0x00, 0x01, 0x24])) 1 = some (0xFFFFFFFD, 8, 0, 1, some .success) := by decide

/-- 95_test_vectors B7, R144: `div32 r1, r2`. -/
theorem test_B7_div32_truncates :
    seen (step (loadedAt defaultParams 16 0 [(1, 0xFFFFFFFF00000010), (2, 0x100000004)]
      [0x00, 0x00, 0x00, 0x00, 0x00, 0x00, 0x21, 0x3c])) 1 = some (0x4, 8, 0, 1, some .success) := by decide

/-- 95_test_vectors B8, R144: `div32 r1, r2`. -/
theorem test_B8_div32_by_truncated_zero :
    seen (step (loadedAt defaultParams 16 0 [(1, 0xFFFFFFFF00000010), (2, 0x100000000)]
      [0x00, 0x00, 0x00, 0x00, 0x00, 0x00, 0x21, 0x3c])) 1 = some (0xFFFFFFFF00000010, 8, 5, 1, some .divideByZero) := by decide

/-- 95_test_vectors B9, R144: `div32 r1, 0xffffffff`. -/
theorem test_B9_div32_immediate :
    seen (step (loadedAt defaultParams 16 0 [(1, 0xFFFFFFFF)]
      [0xff, 0xff, 0xff, 0xff, 0x00, 0x00, 0x01, 0x34])) 1 = some (0x1, 8, 0, 1, some .success) := by decide

/-- 95_test_vectors B10, R145: `or32 r1, 1`. -/
theorem test_B10_or32_clears_upper :
    seen (step (loadedAt defaultParams 16 0 [(1, 0xFFFFFFFF00000000)]
      [0x01, 0x00, 0x00, 0x00, 0x00, 0x00, 0x01, 0x44])) 1 = some (0x1, 8, 0, 1, some .success) := by decide

/-- 95_test_vectors B11, R146: `and32 r1, r1`. -/
theorem test_B11_and32_clears_upper :
    seen (step (loadedAt defaultParams 16 0 [(1, 0x1234567890ABCDEF)]
      [0x00, 0x00, 0x00, 0x00, 0x00, 0x00, 0x11, 0x5c])) 1 = some (0x90ABCDEF, 8, 0, 1, some .success) := by decide

/-- 95_test_vectors B12, R147: `lsh32 r1, 4`. -/
theorem test_B12_lsh32_drops_the_top :
    seen (step (loadedAt defaultParams 16 0 [(1, 0x80000001)]
      [0x04, 0x00, 0x00, 0x00, 0x00, 0x00, 0x01, 0x64])) 1 = some (0x10, 8, 0, 1, some .success) := by decide

/-- 95_test_vectors B13, R147, R155: `lsh32 r1, 32`. -/
theorem test_B13_lsh32_masks_32 :
    seen (step (loadedAt defaultParams 16 0 [(1, 0xFFFFFFFF12345678)]
      [0x20, 0x00, 0x00, 0x00, 0x00, 0x00, 0x01, 0x64])) 1 = some (0x12345678, 8, 0, 1, some .success) := by decide

/-- 95_test_vectors B14, R148: `rsh32 r1, 4`. -/
theorem test_B14_rsh32_truncates :
    seen (step (loadedAt defaultParams 16 0 [(1, 0xFFFFFFFFF0000000)]
      [0x04, 0x00, 0x00, 0x00, 0x00, 0x00, 0x01, 0x74])) 1 = some (0xF000000, 8, 0, 1, some .success) := by decide

/-- 95_test_vectors B15, R148, R155: `rsh32 r1, r2`. -/
theorem test_B15_rsh32_masks_33 :
    seen (step (loadedAt defaultParams 16 0 [(1, 0x80000000), (2, 0x21)]
      [0x00, 0x00, 0x00, 0x00, 0x00, 0x00, 0x21, 0x7c])) 1 = some (0x40000000, 8, 0, 1, some .success) := by decide

/-- 95_test_vectors B16, R149: `neg32 r1`. -/
theorem test_B16_neg32_complement :
    seen (step (loadedAt defaultParams 16 0 [(1, 0x100000000)]
      [0x00, 0x00, 0x00, 0x00, 0x00, 0x00, 0x01, 0x84])) 1 = some (0xFFFFFFFF, 8, 0, 1, some .success) := by decide

/-- 95_test_vectors B17, R149: `neg32 r1`. -/
theorem test_B17_neg32_twos_complement :
    seen (step (loadedAt { defaultParams with negMode := .twosComplement } 16 0 [(1, 0x100000000)]
      [0x00, 0x00, 0x00, 0x00, 0x00, 0x00, 0x01, 0x84])) 1 = some (0x0, 8, 0, 1, some .success) := by decide

/-- 95_test_vectors B18, R149: `neg32.x r1`. -/
theorem test_B18_neg32x_twos_complement :
    seen (step (loadedAt { defaultParams with negMode := .twosComplement } 16 0 [(1, 0xFFFFFFFF00000001)]
      [0x00, 0x00, 0x00, 0x00, 0x00, 0x00, 0x01, 0x8c])) 1 = some (0xFFFFFFFF, 8, 0, 1, some .success) := by decide

/-- 95_test_vectors B19, R150: `mod32 r1, 7`. -/
theorem test_B19_mod32_truncates :
    seen (step (loadedAt defaultParams 16 0 [(1, 0x100000009)]
      [0x07, 0x00, 0x00, 0x00, 0x00, 0x00, 0x01, 0x94])) 1 = some (0x2, 8, 0, 1, some .success) := by decide

/-- 95_test_vectors B20, R150: `mod32 r1, r2`. -/
theorem test_B20_mod32_by_truncated_zero :
    seen (step (loadedAt defaultParams 16 0 [(1, 0x100000009), (2, 0x500000000)]
      [0x00, 0x00, 0x00, 0x00, 0x00, 0x00, 0x21, 0x9c])) 1 = some (0x100000009, 8, 5, 1, some .divideByZero) := by decide

/-- 95_test_vectors B21, R151: `xor32 r1, 0xffffffff`. -/
theorem test_B21_xor32_clears_upper :
    seen (step (loadedAt defaultParams 16 0 [(1, 0xAAAAAAAA00000000)]
      [0xff, 0xff, 0xff, 0xff, 0x00, 0x00, 0x01, 0xa4])) 1 = some (0xFFFFFFFF, 8, 0, 1, some .success) := by decide

/-- 95_test_vectors B22, R151: `xor32 r1, r1`. -/
theorem test_B22_xor32_with_itself :
    seen (step (loadedAt defaultParams 16 0 [(1, 0xFFFFFFFFFFFFFFFF)]
      [0x00, 0x00, 0x00, 0x00, 0x00, 0x00, 0x11, 0xac])) 1 = some (0x0, 8, 0, 1, some .success) := by decide

/-- 95_test_vectors B23, R152: `mov32 r1, r2`. -/
theorem test_B23_mov32_register :
    seen (step (loadedAt defaultParams 16 0 [(1, 0x7), (2, 0xDEADBEEF12345678)]
      [0x00, 0x00, 0x00, 0x00, 0x00, 0x00, 0x21, 0xbc])) 1 = some (0x12345678, 8, 0, 1, some .success) := by decide

/-- 95_test_vectors B24, R152: `mov32 r1, 0xffffffff`. -/
theorem test_B24_mov32_immediate :
    seen (step (loadedAt defaultParams 16 0 [(1, 0xFFFFFFFFFFFFFFFF)]
      [0xff, 0xff, 0xff, 0xff, 0x00, 0x00, 0x01, 0xb4])) 1 = some (0xFFFFFFFF, 8, 0, 1, some .success) := by decide

/-- 95_test_vectors B26, R153: `arsh32 r1, 4`. -/
theorem test_B26_arsh32_sign_bit_only :
    seen (step (loadedAt defaultParams 16 0 [(1, 0xFFFFFFFF80000000)]
      [0x04, 0x00, 0x00, 0x00, 0x00, 0x00, 0x01, 0xc4])) 1 = some (0x88000000, 8, 0, 1, some .success) := by decide

/-- 95_test_vectors B27, R153: `arsh32 r1, 4`. -/
theorem test_B27_arsh32_sign_extend :
    seen (step (loadedAt { defaultParams with arshMode := .signExtend } 16 0 [(1, 0xFFFFFFFF80000000)]
      [0x04, 0x00, 0x00, 0x00, 0x00, 0x00, 0x01, 0xc4])) 1 = some (0xF8000000, 8, 0, 1, some .success) := by decide

/-- 95_test_vectors B30, R154: (0xe4, code 0xe). -/
theorem test_B30_undefined_alu32 :
    seen (step (loadedAt defaultParams 16 0 [(1, 0xFFFFFFFFFFFFFFFF)]
      [0x01, 0x00, 0x00, 0x00, 0x00, 0x00, 0x01, 0xe4])) 1 = some (0xFFFFFFFFFFFFFFFF, 8, 3, 1, some .illegalInstruction) := by decide

/-! Endian swaps (section 2.3). -/

/-- 95_test_vectors C1, R181: `le16 r1`. -/
theorem test_C1_le16 :
    seen (step (loadedAt defaultParams 16 0 [(1, 0x1122334455667788)]
      [0x10, 0x00, 0x00, 0x00, 0x00, 0x00, 0x01, 0xd4])) 1 = some (0x7788, 8, 0, 1, some .success) := by decide

/-- 95_test_vectors C2, R181: `le32 r1`. -/
theorem test_C2_le32 :
    seen (step (loadedAt defaultParams 16 0 [(1, 0x1122334455667788)]
      [0x20, 0x00, 0x00, 0x00, 0x00, 0x00, 0x01, 0xd4])) 1 = some (0x55667788, 8, 0, 1, some .success) := by decide

/-- 95_test_vectors C3, R181: `le64 r1`. -/
theorem test_C3_le64 :
    seen (step (loadedAt defaultParams 16 0 [(1, 0x1122334455667788)]
      [0x40, 0x00, 0x00, 0x00, 0x00, 0x00, 0x01, 0xd4])) 1 = some (0x1122334455667788, 8, 0, 1, some .success) := by decide

/-- 95_test_vectors C4, R182: `be16 r1`. -/
theorem test_C4_be16 :
    seen (step (loadedAt defaultParams 16 0 [(1, 0x1122334455667788)]
      [0x10, 0x00, 0x00, 0x00, 0x00, 0x00, 0x01, 0xdc])) 1 = some (0x8877, 8, 0, 1, some .success) := by decide

/-- 95_test_vectors C5, R182: `be32 r1`. -/
theorem test_C5_be32 :
    seen (step (loadedAt defaultParams 16 0 [(1, 0x1122334455667788)]
      [0x20, 0x00, 0x00, 0x00, 0x00, 0x00, 0x01, 0xdc])) 1 = some (0x88776655, 8, 0, 1, some .success) := by decide

/-- 95_test_vectors C6, R182: `be64 r1`. -/
theorem test_C6_be64 :
    seen (step (loadedAt defaultParams 16 0 [(1, 0x1122334455667788)]
      [0x40, 0x00, 0x00, 0x00, 0x00, 0x00, 0x01, 0xdc])) 1 = some (0x8877665544332211, 8, 0, 1, some .success) := by decide

/-- 95_test_vectors C7, R181, R184: `le16 r1`. -/
theorem test_C7_le16_big :
    seen (step (loadedAt { defaultParams with hostOrder := .big } 16 0 [(1, 0x1122334455667788)]
      [0x10, 0x00, 0x00, 0x00, 0x00, 0x00, 0x01, 0xd4])) 1 = some (0x8877, 8, 0, 1, some .success) := by decide

/-- 95_test_vectors C8, R181, R184: `le32 r1`. -/
theorem test_C8_le32_big :
    seen (step (loadedAt { defaultParams with hostOrder := .big } 16 0 [(1, 0x1122334455667788)]
      [0x20, 0x00, 0x00, 0x00, 0x00, 0x00, 0x01, 0xd4])) 1 = some (0x88776655, 8, 0, 1, some .success) := by decide

/-- 95_test_vectors C9, R181, R184: `le64 r1`. -/
theorem test_C9_le64_big :
    seen (step (loadedAt { defaultParams with hostOrder := .big } 16 0 [(1, 0x1122334455667788)]
      [0x40, 0x00, 0x00, 0x00, 0x00, 0x00, 0x01, 0xd4])) 1 = some (0x8877665544332211, 8, 0, 1, some .success) := by decide

/-- 95_test_vectors C10, R182, R184: `be16 r1`. -/
theorem test_C10_be16_big :
    seen (step (loadedAt { defaultParams with hostOrder := .big } 16 0 [(1, 0x1122334455667788)]
      [0x10, 0x00, 0x00, 0x00, 0x00, 0x00, 0x01, 0xdc])) 1 = some (0x7788, 8, 0, 1, some .success) := by decide

/-- 95_test_vectors C11, R182, R184: `be32 r1`. -/
theorem test_C11_be32_big :
    seen (step (loadedAt { defaultParams with hostOrder := .big } 16 0 [(1, 0x1122334455667788)]
      [0x20, 0x00, 0x00, 0x00, 0x00, 0x00, 0x01, 0xdc])) 1 = some (0x55667788, 8, 0, 1, some .success) := by decide

/-- 95_test_vectors C12, R182, R184: `be64 r1`. -/
theorem test_C12_be64_big :
    seen (step (loadedAt { defaultParams with hostOrder := .big } 16 0 [(1, 0x1122334455667788)]
      [0x40, 0x00, 0x00, 0x00, 0x00, 0x00, 0x01, 0xdc])) 1 = some (0x1122334455667788, 8, 0, 1, some .success) := by decide

/-- 95_test_vectors C14, R183: (0xdc, W = 0). -/
theorem test_C14_width_zero :
    seen (step (loadedAt defaultParams 16 0 [(1, 0x1122334455667788)]
      [0x00, 0x00, 0x00, 0x00, 0x00, 0x00, 0x01, 0xdc])) 1 = some (0x1122334455667788, 8, 3, 1, some .illegalInstruction) := by decide

/-- 95_test_vectors C16, R183: (0xd4, W = 0x00010010). -/
theorem test_C16_width_is_the_whole_immediate :
    seen (step (loadedAt defaultParams 16 0 [(1, 0x1122334455667788)]
      [0x10, 0x00, 0x01, 0x00, 0x00, 0x00, 0x01, 0xd4])) 1 = some (0x1122334455667788, 8, 3, 1, some .illegalInstruction) := by decide

/-! Branches (section 2.4). -/

/-- 95_test_vectors D1, R192: `ja +8`. -/
theorem test_D1_ja_forward :
    seen (step (loadedAt defaultParams 64 0 []
      [0x00, 0x00, 0x00, 0x00, 0x08, 0x00, 0x00, 0x05])) 1 = some (0x0, 16, 0, 1, some .success) := by decide

/-- 95_test_vectors D2, R192: `ja.x +8` (dst = 5, src = 6, imm = 0x63 ignored). -/
theorem test_D2_jax_ignores_fields :
    seen (step (loadedAt defaultParams 64 0 []
      [0x63, 0x00, 0x00, 0x00, 0x08, 0x00, 0x65, 0x0d])) 1 = some (0x0, 16, 0, 1, some .success) := by decide

/-- 95_test_vectors D29, R200, R29: `ja -16`. -/
theorem test_D29_ja_wraps :
    seen (step (loadedAt defaultParams 64 0 []
      [0x00, 0x00, 0x00, 0x00, 0xf0, 0xff, 0x00, 0x05])) 1 = some (0x0, 0xFFFFFFFFFFFFFFF8, 0, 1, some .success) := by decide

/-- 95_test_vectors D5, R193: `jeq r1, 5, +16`. -/
theorem test_D5_jeq_taken :
    seen (step (loadedAt defaultParams 64 0 [(1, 0x5)]
      [0x05, 0x00, 0x00, 0x00, 0x10, 0x00, 0x01, 0x15])) 1 = some (0x5, 24, 0, 1, some .success) := by decide

/-- 95_test_vectors D7, R193, R190: `jeq r1, 0xffffffff, +16`. -/
theorem test_D7_jeq_zero_extends :
    seen (step (loadedAt defaultParams 64 0 [(1, 0xFFFFFFFFFFFFFFFF)]
      [0xff, 0xff, 0xff, 0xff, 0x10, 0x00, 0x01, 0x15])) 1 = some (0xFFFFFFFFFFFFFFFF, 8, 0, 1, some .success) := by decide

/-- 95_test_vectors D8, R193: `jeq r1, r2, +16`. -/
theorem test_D8_jeq_register :
    seen (step (loadedAt defaultParams 64 0 [(1, 0xFFFFFFFFFFFFFFFF), (2, 0xFFFFFFFFFFFFFFFF)]
      [0x00, 0x00, 0x00, 0x00, 0x10, 0x00, 0x21, 0x1d])) 1 = some (0xFFFFFFFFFFFFFFFF, 24, 0, 1, some .success) := by decide

/-- 95_test_vectors D9, R194: `jgt r1, r2, +8`. -/
theorem test_D9_jgt_unsigned :
    seen (step (loadedAt defaultParams 64 0 [(1, 0xFFFFFFFFFFFFFFFF), (2, 0x1)]
      [0x00, 0x00, 0x00, 0x00, 0x08, 0x00, 0x21, 0x2d])) 1 = some (0xFFFFFFFFFFFFFFFF, 16, 0, 1, some .success) := by decide

/-- 95_test_vectors D10, R194: `jgt r1, r2, +8`. -/
theorem test_D10_jgt_not_on_equal :
    seen (step (loadedAt defaultParams 64 0 [(1, 0x7), (2, 0x7)]
      [0x00, 0x00, 0x00, 0x00, 0x08, 0x00, 0x21, 0x2d])) 1 = some (0x7, 8, 0, 1, some .success) := by decide

/-- 95_test_vectors D11, R194: `jgt r1, 0x7fffffff, +8`. -/
theorem test_D11_jgt_immediate :
    seen (step (loadedAt defaultParams 64 0 [(1, 0x80000000)]
      [0xff, 0xff, 0xff, 0x7f, 0x08, 0x00, 0x01, 0x25])) 1 = some (0x80000000, 16, 0, 1, some .success) := by decide

/-- 95_test_vectors D12, R195: `jge r1, 0xffffffff, -16`. -/
theorem test_D12_jge_backward :
    seen (step (loadedAt defaultParams 64 16 [(1, 0xFFFFFFFF)]
      [0xff, 0xff, 0xff, 0xff, 0xf0, 0xff, 0x01, 0x35])) 1 = some (0xFFFFFFFF, 8, 0, 1, some .success) := by decide

/-- 95_test_vectors D13, R195: `jge r1, 0, +8`. -/
theorem test_D13_jge_equal :
    seen (step (loadedAt defaultParams 64 0 [(1, 0x0)]
      [0x00, 0x00, 0x00, 0x00, 0x08, 0x00, 0x01, 0x35])) 1 = some (0x0, 16, 0, 1, some .success) := by decide

/-- 95_test_vectors D14, R195: `jge r1, r2, +8`. -/
theorem test_D14_jge_register :
    seen (step (loadedAt defaultParams 64 0 [(1, 0x1), (2, 0x2)]
      [0x00, 0x00, 0x00, 0x00, 0x08, 0x00, 0x21, 0x3d])) 1 = some (0x1, 8, 0, 1, some .success) := by decide

/-- 95_test_vectors D15, R196: `jlt r1, 1, +8`. -/
theorem test_D15_jlt_taken :
    seen (step (loadedAt defaultParams 64 0 [(1, 0x0)]
      [0x01, 0x00, 0x00, 0x00, 0x08, 0x00, 0x01, 0xa5])) 1 = some (0x0, 16, 0, 1, some .success) := by decide

/-- 95_test_vectors D16, R196: `jlt r1, r2, +8`. -/
theorem test_D16_jlt_unsigned :
    seen (step (loadedAt defaultParams 64 0 [(1, 0xFFFFFFFFFFFFFFFF), (2, 0x1)]
      [0x00, 0x00, 0x00, 0x00, 0x08, 0x00, 0x21, 0xad])) 1 = some (0xFFFFFFFFFFFFFFFF, 8, 0, 1, some .success) := by decide

/-- 95_test_vectors D17, R196: `jlt r1, 0, +8`. -/
theorem test_D17_jlt_zero_never :
    seen (step (loadedAt defaultParams 64 0 [(1, 0x0)]
      [0x00, 0x00, 0x00, 0x00, 0x08, 0x00, 0x01, 0xa5])) 1 = some (0x0, 8, 0, 1, some .success) := by decide

/-- 95_test_vectors D18, R197: `jle r1, r2, +8`. -/
theorem test_D18_jle_equal :
    seen (step (loadedAt defaultParams 64 0 [(1, 0x7), (2, 0x7)]
      [0x00, 0x00, 0x00, 0x00, 0x08, 0x00, 0x21, 0xbd])) 1 = some (0x7, 16, 0, 1, some .success) := by decide

/-- 95_test_vectors D19, R197: `jle r1, 5, +8`. -/
theorem test_D19_jle_not_taken :
    seen (step (loadedAt defaultParams 64 0 [(1, 0x6)]
      [0x05, 0x00, 0x00, 0x00, 0x08, 0x00, 0x01, 0xb5])) 1 = some (0x6, 8, 0, 1, some .success) := by decide

/-- 95_test_vectors D20, R198: `jset r1, 0x80, +8`. -/
theorem test_D20_jset_common_bit :
    seen (step (loadedAt defaultParams 64 0 [(1, 0x180)]
      [0x80, 0x00, 0x00, 0x00, 0x08, 0x00, 0x01, 0x45])) 1 = some (0x180, 16, 0, 1, some .success) := by decide

/-- 95_test_vectors D21, R198: `jset r1, 0x80, +8`. -/
theorem test_D21_jset_no_common_bit :
    seen (step (loadedAt defaultParams 64 0 [(1, 0x100)]
      [0x80, 0x00, 0x00, 0x00, 0x08, 0x00, 0x01, 0x45])) 1 = some (0x100, 8, 0, 1, some .success) := by decide

/-- 95_test_vectors D22, R198: `jset r1, r2, +8`. -/
theorem test_D22_jset_register :
    seen (step (loadedAt defaultParams 64 0 [(1, 0x8000000000000000), (2, 0x8000000000000000)]
      [0x00, 0x00, 0x00, 0x00, 0x08, 0x00, 0x21, 0x4d])) 1 = some (0x8000000000000000, 16, 0, 1, some .success) := by decide

/-- 95_test_vectors D24, R199: `jne r1, 0, -8`. -/
theorem test_D24_jne_self_loop :
    seen (step (loadedAt defaultParams 64 16 [(1, 0x3)]
      [0x00, 0x00, 0x00, 0x00, 0xf8, 0xff, 0x01, 0x55])) 1 = some (0x3, 16, 0, 1, some .success) := by decide

/-- 95_test_vectors D25, R199: `jne r1, 0, -8`. -/
theorem test_D25_jne_not_taken :
    seen (step (loadedAt defaultParams 64 16 [(1, 0x0)]
      [0x00, 0x00, 0x00, 0x00, 0xf8, 0xff, 0x01, 0x55])) 1 = some (0x0, 24, 0, 1, some .success) := by decide

/-- 95_test_vectors D26, R199: `jne r1, r1, +8`. -/
theorem test_D26_jne_register :
    seen (step (loadedAt defaultParams 64 0 [(1, 0x9)]
      [0x00, 0x00, 0x00, 0x00, 0x08, 0x00, 0x11, 0x5d])) 1 = some (0x9, 8, 0, 1, some .success) := by decide

/-- 95_test_vectors D31, R201: (0x65, code 0x6). -/
theorem test_D31_undefined_condition :
    seen (step (loadedAt defaultParams 64 0 [(1, 0x2)]
      [0x01, 0x00, 0x00, 0x00, 0x08, 0x00, 0x01, 0x65])) 1 = some (0x2, 8, 3, 1, some .illegalInstruction) := by decide

/-! Instructions the vectors leave out. -/

/-- By hand from 41_alu64 R102: 5 - 7 wraps, and swapped operands would give 2. -/
theorem test_subX_of_registers :
    seen (step (loadedAt defaultParams 16 0 [(1, 0x5), (2, 0x7)]
      [0x00, 0x00, 0x00, 0x00, 0x00, 0x00, 0x21, 0x1f])) 1 = some (0xFFFFFFFFFFFFFFFE, 8, 0, 1, some .success) := by decide

/-- By hand from 41_alu64 R105. -/
theorem test_orX_of_registers :
    seen (step (loadedAt defaultParams 16 0 [(1, 0xF0F0), (2, 0xFF0)]
      [0x00, 0x00, 0x00, 0x00, 0x00, 0x00, 0x21, 0x4f])) 1 = some (0xFFF0, 8, 0, 1, some .success) := by decide

/-- By hand from 41_alu64 R106. -/
theorem test_andX_of_registers :
    seen (step (loadedAt defaultParams 16 0 [(1, 0xF0F0), (2, 0xFF0)]
      [0x00, 0x00, 0x00, 0x00, 0x00, 0x00, 0x21, 0x5f])) 1 = some (0xF0, 8, 0, 1, some .success) := by decide

/-- By hand from 42_alu32 R145: the upper halves are dropped. -/
theorem test_or32X_of_registers :
    seen (step (loadedAt defaultParams 16 0 [(1, 0x10000F0F0), (2, 0x200000FF0)]
      [0x00, 0x00, 0x00, 0x00, 0x00, 0x00, 0x21, 0x4c])) 1 = some (0xFFF0, 8, 0, 1, some .success) := by decide

/-- By hand from 42_alu32 R146. -/
theorem test_and32K_of_immediate :
    seen (step (loadedAt defaultParams 16 0 [(1, 0xFFFFFFFFF0F0F0F0)]
      [0xff, 0x00, 0x00, 0x80, 0x00, 0x00, 0x01, 0x54])) 1 = some (0x800000F0, 8, 0, 1, some .success) := by decide

/-- By hand from 42_alu32 R147 and R155: 33 under MASK is 1. -/
theorem test_lsh32X_of_registers :
    seen (step (loadedAt defaultParams 16 0 [(1, 0x80000001), (2, 0x21)]
      [0x00, 0x00, 0x00, 0x00, 0x00, 0x00, 0x21, 0x6c])) 1 = some (0x2, 8, 0, 1, some .success) := by decide

/-- By hand from 42_alu32 R153: the sign bit is set again after the shift. -/
theorem test_arsh32X_of_registers :
    seen (step (loadedAt defaultParams 16 0 [(1, 0x80000000), (2, 0x8)]
      [0x00, 0x00, 0x00, 0x00, 0x00, 0x00, 0x21, 0xcc])) 1 = some (0x80800000, 8, 0, 1, some .success) := by decide

/-- By hand from 42_alu32 R149 under COMPLEMENT. -/
theorem test_neg32X_complement :
    seen (step (loadedAt defaultParams 16 0 [(1, 0x5)]
      [0x00, 0x00, 0x00, 0x00, 0x00, 0x00, 0x01, 0x8c])) 1 = some (0xFFFFFFFA, 8, 0, 1, some .success) := by decide

/-- By hand from 44_branch R197. -/
theorem test_jleX_not_on_greater :
    seen (step (loadedAt defaultParams 64 0 [(1, 0x8), (2, 0x7)]
      [0x00, 0x00, 0x00, 0x00, 0x08, 0x00, 0x21, 0xbd])) 1 = some (0x8, 8, 0, 1, some .success) := by decide

/-- By hand from 44_branch R195. -/
theorem test_jgeX_on_equal :
    seen (step (loadedAt defaultParams 64 0 [(1, 0x7), (2, 0x7)]
      [0x00, 0x00, 0x00, 0x00, 0x08, 0x00, 0x21, 0x3d])) 1 = some (0x7, 16, 0, 1, some .success) := by decide

/-- By hand from 44_branch R199. -/
theorem test_jneX_on_unequal :
    seen (step (loadedAt defaultParams 64 0 [(1, 0x7), (2, 0x100000007)]
      [0x00, 0x00, 0x00, 0x00, 0x08, 0x00, 0x21, 0x5d])) 1 = some (0x7, 16, 0, 1, some .success) := by decide

/-! The engine (section 3.1) and the host. -/

/-- 95_test_vectors E2: an empty program, R213 and R274. -/
theorem test_E2_empty_program :
    seen (step State.reset) 0 = some (0, 0, 0, 0, some .fetchFailed) := by decide

/-- 95_test_vectors E3: IMEM_LEN = 12, R51 and R52. -/
theorem test_E3_no_whole_words :
    seen (step (loadedAt defaultParams 12 0 [] [0x01, 0, 0, 0, 0, 0, 0x01, 0x07])) 1 =
      some (0, 0, 0, 0, some .fetchFailed) := by decide

/-- 95_test_vectors E4: `ip` past the end, R213. -/
theorem test_E4_past_the_end :
    seen (step (loadedAt defaultParams 16 24 [] [])) 0 = some (0, 24, 0, 0, some .fetchFailed) := by decide

/-- 95_test_vectors E5: `ip` at the top of its range, R213. -/
theorem test_E5_at_the_top :
    seen (step (loadedAt defaultParams 16 0xFFFFFFFFFFFFFFF8 [] [])) 0 =
      some (0, 0xFFFFFFFFFFFFFFF8, 0, 0, some .fetchFailed) := by decide

/-- 95_test_vectors E6: class 0, R215. -/
theorem test_E6_illegal_class :
    seen (step (loadedAt defaultParams 16 0 [(1, 9)] [])) 1 = some (9, 0, 3, 0, some .illegalInstruction) := by decide

/-- 95_test_vectors E8: continuous mode rewinds, R218. -/
theorem test_E8_continuous :
    seen (step (hostSetContinuous true (loadedAt defaultParams 8 0 [] [0x01, 0, 0, 0, 0, 0, 0x01, 0x07]))) 1 =
      some (1, 0, 0, 1, some .success) := by decide

/-- 95_test_vectors E9: the clean end, R218. -/
theorem test_E9_clean_end :
    seen (step (loadedAt defaultParams 8 0 [] [0x01, 0, 0, 0, 0, 0, 0x01, 0x07])) 1 =
      some (1, 8, 1, 1, some .success) := by decide

/-- 95_test_vectors E10: a fault at the end in continuous mode still rewinds, R217 and R218. -/
theorem test_E10_fault_and_rewind :
    seen (step (hostSetContinuous true (loadedAt defaultParams 8 0 [(1, 5)] [0, 0, 0, 0, 0, 0, 0x01, 0x37]))) 1 =
      some (5, 0, 5, 1, some .divideByZero) := by decide

/-- 95_test_vectors E12: `cycle_count` wraps, R36. -/
theorem test_E12_cycle_count_wraps :
    seen (step { loadedAt defaultParams 16 0 [] [0x01, 0, 0, 0, 0, 0, 0x01, 0xb7] with
      cycleCount := 0xFFFFFFFFFFFFFFFF }) 1 = some (1, 8, 0, 0, some .success) := by decide

/-- 95_test_vectors E1 and E14: a halted machine, R212. -/
theorem test_E1_halted :
    seen (step haltedState) 1 = some (7, 0, 1, 0, some .machineHalted) := by decide

/-- 95_test_vectors E15: no step from an Aborted state, R220. -/
theorem test_E15_aborted : seen (step abortedState) 1 = none := by decide

/-- 95_test_vectors A14 under DRAW: the register may hold anything, and everything else is as the rules say (R115). -/
theorem test_A14_draw_frame :
    nextAnd (step (loadedAt drawParams 16 0 [(1, 5), (2, 6)] [0x40, 0, 0, 0, 0, 0, 0x01, 0x67]))
      (fun t => t.getReg 2 == 6 && t.ip == 8 && t.status.word == 0 && t.cycleCount == 1 && t.draws == 1 &&
        t.result == some .success) = true := by decide

/-- The status word's bits, R31: DIVIDE_BY_ZERO alone is 4. -/
theorem test_status_word : ({ halted := false, illegalInstruction := false, divideByZero := true } : Status).word = 4 := by
  decide

/-- The placed word runs as the first instruction after reset: `be64 r0` at IMEM_LEN - 8, so the run ends (R218). -/
theorem test_withFetchWord_runs :
    seen (step (State.reset.withFetchWord 64 0xDC00000000000040)) 0 = some (0, 8, 1, 1, some .success) := by decide

/-- Load: IMEM_LEN is the program's length, everything else as reset leaves it (R272). -/
theorem test_load :
    nextAnd (hostAct (.load [0x01, 0, 0, 0, 0, 0, 0x01, 0x07] 4) haltedState)
      (fun t => t.imem == { size := 8, cells := [(0, 0x01), (6, 0x01), (7, 0x07)] } && t.dmem == Memory.zeroed 4 &&
        t.status.word == 0 && t.getReg 1 == 0) = true := by decide

/-! Witnesses: for every statement with hypotheses, a concrete case that meets all of them together, and for a statement
of several clauses one for each clause, at the boundary between them. -/

/-- Words of a class with an operation's code under the default maps, in both modes, meet the hypotheses of
`EncodesAlu`. -/
def meetsAlu (cls : BitVec 3) (op : AluOp) : Bool :=
  let code := defaultOpMaps.alu.code op
  let k := fieldsK cls code 1 5 0
  let x := fieldsX cls code 1 2 0
  defaultOpMaps.wf && k.cls == cls && x.cls == cls && k.code == code && x.code == code && !k.mode && x.mode

/-- The same for `EncodesJmp`. -/
def meetsJmp (c : JmpCond) : Bool :=
  let code := defaultOpMaps.jmp.code c
  let k := fieldsK 5 code 1 5 8
  let x := fieldsX 5 code 1 2 8
  defaultOpMaps.wf && k.cls == 5 && x.cls == 5 && k.code == code && x.code == code && !k.mode && x.mode

/-- The same for `EncodesEnd`. -/
def meetsEnd (mode : Bool) (width : BitVec 32) : Bool :=
  let f := fieldsEnd mode width 1
  f.cls == 4 && f.code == 0xd && f.mode == mode && f.imm == width

/-- A machine with two operands in registers 1 and 2. -/
def operands (p : Params) (a b : Word) : State := ((State.initialized p 16 0).setReg 1 a).setReg 2 b

theorem witness_Add64WritesTheSum : meetsAlu 7 .add = true := by decide

theorem witness_Sub64WritesTheDifference : meetsAlu 7 .sub = true := by decide

theorem witness_Mul64WritesTheLowProduct : meetsAlu 7 .mul = true := by decide

theorem witness_Bitwise64WritesBitByBit : meetsAlu 7 .or = true ∧ meetsAlu 7 .and = true ∧ meetsAlu 7 .xor = true := by decide

theorem witness_Neg64NegatesUnderBothModes : meetsAlu 7 .neg = true := by decide

theorem witness_Mov64AssignsTheOperand : meetsAlu 7 .mov = true := by decide

theorem witness_Add32WritesTheSum : meetsAlu 4 .add = true := by decide

theorem witness_Sub32WritesTheDifference : meetsAlu 4 .sub = true := by decide

theorem witness_Mul32WritesTheLowProduct : meetsAlu 4 .mul = true := by decide

theorem witness_Bitwise32WritesBitByBit : meetsAlu 4 .or = true ∧ meetsAlu 4 .and = true ∧ meetsAlu 4 .xor = true := by decide

theorem witness_Neg32NegatesUnderBothModes : meetsAlu 4 .neg = true := by decide

theorem witness_Mov32AssignsTheLowHalf : meetsAlu 4 .mov = true := by decide

/-- Clauses: a zero and a nonzero divisor, in each form. -/
theorem witness_Div64WritesTheQuotientOrFaults :
    meetsAlu 7 .div = true ∧ (0 : BitVec 32).toNat = 0 ∧ (1 : BitVec 32).toNat ≠ 0 ∧
      ((operands defaultParams 9 0).getReg 2).toNat = 0 ∧ ((operands defaultParams 9 1).getReg 2).toNat ≠ 0 := by decide

/-- Clauses: a zero and a nonzero divisor, in each form. -/
theorem witness_Mod64WritesTheRemainderOrFaults :
    meetsAlu 7 .mod = true ∧ (0 : BitVec 32).toNat = 0 ∧ (1 : BitVec 32).toNat ≠ 0 ∧
      ((operands defaultParams 9 0).getReg 2).toNat = 0 ∧ ((operands defaultParams 9 1).getReg 2).toNat ≠ 0 := by decide

/-- Clauses: a zero and a nonzero truncated divisor, in each form. The register 2^32 is zero truncated. -/
theorem witness_Div32WritesTheQuotientOrFaults :
    meetsAlu 4 .div = true ∧ (0 : BitVec 32).toNat = 0 ∧ (1 : BitVec 32).toNat ≠ 0 ∧
      ((operands defaultParams 9 0x100000000).getReg 2).toNat % 2 ^ 32 = 0 ∧
      ((operands defaultParams 9 0x100000001).getReg 2).toNat % 2 ^ 32 ≠ 0 := by decide

/-- Clauses: a zero and a nonzero truncated divisor, in each form. The register 2^32 is zero truncated. -/
theorem witness_Mod32WritesTheRemainderOrFaults :
    meetsAlu 4 .mod = true ∧ (0 : BitVec 32).toNat = 0 ∧ (1 : BitVec 32).toNat ≠ 0 ∧
      ((operands defaultParams 9 0x100000000).getReg 2).toNat % 2 ^ 32 = 0 ∧
      ((operands defaultParams 9 0x100000001).getReg 2).toNat % 2 ^ 32 ≠ 0 := by decide

/-- Clauses: MASK at the width less one and at the width; DRAW at the width less one, and at the width, where the value
is free; the amount an immediate and a register. -/
theorem witness_Shift64MovesBitsUnderBothPolicies :
    (meetsAlu 7 .lsh = true ∧ meetsAlu 7 .rsh = true) ∧
      (ShiftsBy64 (operands defaultParams 5 63) (63 : BitVec 32).toNat 63 ∧
        ShiftsBy64 (operands defaultParams 5 64) (64 : BitVec 32).toNat 0 ∧
        ShiftsBy64 (operands defaultParams 5 64) (((operands defaultParams 5 64).getReg 2).toNat) 0) ∧
      (ShiftsBy64 (operands drawParams 5 63) (63 : BitVec 32).toNat 63 ∧
        ShiftsBy64 (operands drawParams 5 63) (((operands drawParams 5 63).getReg 2).toNat) 63) ∧
      (operands drawParams 5 64).params.shiftAmountPolicy = .draw ∧ 64 ≤ (64 : BitVec 32).toNat ∧
      64 ≤ ((operands drawParams 5 64).getReg 2).toNat := by
  unfold ShiftsBy64
  refine ⟨?_, ?_, ?_, ?_⟩ <;> decide

/-- Clauses: MASK at the width less one and at the width; DRAW at the width less one, and at the width, where the value
is free; the amount an immediate and a register. -/
theorem witness_Arsh64KeepsTheSignUnderBothModes :
    (meetsAlu 7 .arsh = true) ∧
      (ShiftsBy64 (operands defaultParams 5 63) (63 : BitVec 32).toNat 63 ∧
        ShiftsBy64 (operands defaultParams 5 64) (64 : BitVec 32).toNat 0 ∧
        ShiftsBy64 (operands defaultParams 5 64) (((operands defaultParams 5 64).getReg 2).toNat) 0) ∧
      (ShiftsBy64 (operands drawParams 5 63) (63 : BitVec 32).toNat 63 ∧
        ShiftsBy64 (operands drawParams 5 63) (((operands drawParams 5 63).getReg 2).toNat) 63) ∧
      (operands drawParams 5 64).params.shiftAmountPolicy = .draw ∧ 64 ≤ (64 : BitVec 32).toNat ∧
      64 ≤ ((operands drawParams 5 64).getReg 2).toNat := by
  unfold ShiftsBy64
  refine ⟨?_, ?_, ?_, ?_⟩ <;> decide

/-- Clauses: MASK at the width less one and at the width; DRAW at the width less one, and at the width, where the value
is free; the amount an immediate and a register. -/
theorem witness_Shift32MovesBitsUnderBothPolicies :
    (meetsAlu 4 .lsh = true ∧ meetsAlu 4 .rsh = true) ∧
      (ShiftsBy32 (operands defaultParams 5 31) (31 : BitVec 32).toNat 31 ∧
        ShiftsBy32 (operands defaultParams 5 32) (32 : BitVec 32).toNat 0 ∧
        ShiftsBy32 (operands defaultParams 5 32) (((operands defaultParams 5 32).getReg 2).toNat % 2 ^ 32) 0) ∧
      (ShiftsBy32 (operands drawParams 5 31) (31 : BitVec 32).toNat 31 ∧
        ShiftsBy32 (operands drawParams 5 31) (((operands drawParams 5 31).getReg 2).toNat % 2 ^ 32) 31) ∧
      (operands drawParams 5 32).params.shiftAmountPolicy = .draw ∧ 32 ≤ (32 : BitVec 32).toNat ∧
      32 ≤ ((operands drawParams 5 32).getReg 2).toNat % 2 ^ 32 := by
  unfold ShiftsBy32
  refine ⟨?_, ?_, ?_, ?_⟩ <;> decide

/-- Clauses: MASK at the width less one and at the width; DRAW at the width less one, and at the width, where the value
is free; the amount an immediate and a register. -/
theorem witness_Arsh32KeepsTheSignUnderBothModes :
    (meetsAlu 4 .arsh = true) ∧
      (ShiftsBy32 (operands defaultParams 5 31) (31 : BitVec 32).toNat 31 ∧
        ShiftsBy32 (operands defaultParams 5 32) (32 : BitVec 32).toNat 0 ∧
        ShiftsBy32 (operands defaultParams 5 32) (((operands defaultParams 5 32).getReg 2).toNat % 2 ^ 32) 0) ∧
      (ShiftsBy32 (operands drawParams 5 31) (31 : BitVec 32).toNat 31 ∧
        ShiftsBy32 (operands drawParams 5 31) (((operands drawParams 5 31).getReg 2).toNat % 2 ^ 32) 31) ∧
      (operands drawParams 5 32).params.shiftAmountPolicy = .draw ∧ 32 ≤ (32 : BitVec 32).toNat ∧
      32 ≤ ((operands drawParams 5 32).getReg 2).toNat % 2 ^ 32 := by
  unfold ShiftsBy32
  refine ⟨?_, ?_, ?_, ?_⟩ <;> decide

/-- Clauses: the three widths, and either HOST_ORDER. -/
theorem witness_ToLittleEndianConvertsLowBits :
    (meetsEnd false 16 = true ∧ meetsEnd false 32 = true ∧ meetsEnd false 64 = true) ∧
      (operands defaultParams 5 0).params.hostOrder = .little ∧ (operands bigParams 5 0).params.hostOrder = .big := by
  decide

/-- Clauses: the three widths, and either HOST_ORDER. -/
theorem witness_ToBigEndianConvertsLowBits :
    (meetsEnd true 16 = true ∧ meetsEnd true 32 = true ∧ meetsEnd true 64 = true) ∧
      (operands defaultParams 5 0).params.hostOrder = .little ∧ (operands bigParams 5 0).params.hostOrder = .big := by
  decide

theorem witness_JaAlwaysBranches : meetsJmp .ja = true := by decide

/-- Clauses: equal operands and operands that differ in the top bit only, in each form. -/
theorem witness_EqualityBranchesCompareAllBits :
    (meetsJmp .jeq = true ∧ meetsJmp .jne = true) ∧
      ((operands defaultParams 5 5).getReg 1).toNat = (5 : BitVec 32).toNat ∧
      ((operands defaultParams 5 5).getReg 1).toNat = ((operands defaultParams 5 5).getReg 2).toNat ∧
      ((operands defaultParams 0x8000000000000005 5).getReg 1).toNat ≠ (5 : BitVec 32).toNat ∧
      ((operands defaultParams 0x8000000000000005 5).getReg 1).toNat ≠
        ((operands defaultParams 0x8000000000000005 5).getReg 2).toNat := by decide

/-- Clauses: a left operand one greater and an equal one (jgt), an equal one and one less (jge), in each form. -/
theorem witness_GreaterBranchesCompareUnsigned :
    (meetsJmp .jgt = true ∧ meetsJmp .jge = true) ∧
      (((operands defaultParams 6 5).getReg 1).toNat > (5 : BitVec 32).toNat ∧
        ((operands defaultParams 6 5).getReg 1).toNat > ((operands defaultParams 6 5).getReg 2).toNat) ∧
      (((operands defaultParams 5 5).getReg 1).toNat ≥ (5 : BitVec 32).toNat ∧
        ¬ ((operands defaultParams 5 5).getReg 1).toNat > (5 : BitVec 32).toNat ∧
        ¬ ((operands defaultParams 5 5).getReg 1).toNat > ((operands defaultParams 5 5).getReg 2).toNat) ∧
      ¬ ((operands defaultParams 4 5).getReg 1).toNat ≥ (5 : BitVec 32).toNat ∧
      ¬ ((operands defaultParams 4 5).getReg 1).toNat ≥ ((operands defaultParams 4 5).getReg 2).toNat := by decide

/-- Clauses: a left operand one less and an equal one (jlt), an equal one and one greater (jle), in each form. -/
theorem witness_LessBranchesCompareUnsigned :
    (meetsJmp .jlt = true ∧ meetsJmp .jle = true) ∧
      (((operands defaultParams 4 5).getReg 1).toNat < (5 : BitVec 32).toNat ∧
        ((operands defaultParams 4 5).getReg 1).toNat < ((operands defaultParams 4 5).getReg 2).toNat) ∧
      (((operands defaultParams 5 5).getReg 1).toNat ≤ (5 : BitVec 32).toNat ∧
        ¬ ((operands defaultParams 5 5).getReg 1).toNat < (5 : BitVec 32).toNat ∧
        ¬ ((operands defaultParams 5 5).getReg 1).toNat < ((operands defaultParams 5 5).getReg 2).toNat) ∧
      ¬ ((operands defaultParams 6 5).getReg 1).toNat ≤ (5 : BitVec 32).toNat ∧
      ¬ ((operands defaultParams 6 5).getReg 1).toNat ≤ ((operands defaultParams 6 5).getReg 2).toNat := by decide

/-- Clauses: bit 7 common, and no common bit, in each form. -/
theorem witness_JsetTestsForACommonBit :
    meetsJmp .jset = true ∧
      (∃ k, ((operands defaultParams 0x180 0x80).getReg 1).toNat.testBit k = true ∧
        (0x80 : BitVec 32).toNat.testBit k = true) ∧
      (∃ k, ((operands defaultParams 0x180 0x80).getReg 1).toNat.testBit k = true ∧
        ((operands defaultParams 0x180 0x80).getReg 2).toNat.testBit k = true) ∧
      (¬ ∃ k, ((operands defaultParams 0 0x80).getReg 1).toNat.testBit k = true ∧
        (0x80 : BitVec 32).toNat.testBit k = true) ∧
      ¬ ∃ k, ((operands defaultParams 0 0x80).getReg 1).toNat.testBit k = true ∧
        ((operands defaultParams 0 0x80).getReg 2).toNat.testBit k = true := by
  have h : ((operands defaultParams 0 0x80).getReg 1).toNat = 0 := by decide
  refine ⟨by decide, ⟨7, by decide⟩, ⟨7, by decide⟩, ?_, ?_⟩ <;>
    (rintro ⟨k, hk, -⟩; rw [h, Nat.zero_testBit] at hk; cases hk)

theorem witness_HaltedMachineRefusesToStep :
    haltedState.status.halted = true ∧ haltedState.result ≠ some .aborted := by decide

/-- A running machine of 16 bytes of program at an `ip`, the word `add r1, 1` there. -/
def runningAt (ip : Word) : State := loadedAt defaultParams 16 ip [] [0x01, 0, 0, 0, 0, 0, 0x01, 0x07]

/-- Clauses: the last whole word (`ip` 8) fetches; `ip` 16, at the end, and `ip` 9, inside a word, do not. -/
theorem witness_FetchFailsExactlyOffTheWords :
    Running (runningAt 8) ∧ FetchOk (runningAt 8) ∧ Running (runningAt 16) ∧ ¬ FetchOk (runningAt 16) ∧
      Running (runningAt 9) ∧ ¬ FetchOk (runningAt 9) := by
  unfold Running FetchOk
  decide

theorem witness_FetchHandsTheDecoderTheRest : FetchOk (runningAt 8) ∧ ¬ FetchOk (runningAt 16) := by
  unfold FetchOk
  decide

theorem decodes_runningAt :
    decode (runningAt 8).params.opMaps ((runningAt 8).imem.readBytes (runningAt 8).ip.toNat 8) = .ok (.addK 1 1) := rfl

theorem witness_StepRunsTheDecodedInstruction :
    Running (runningAt 8) ∧ FetchOk (runningAt 8) ∧
      decode (runningAt 8).params.opMaps ((runningAt 8).imem.readBytes (runningAt 8).ip.toNat 8) = .ok (.addK 1 1) :=
  ⟨by unfold Running; decide, by unfold FetchOk; decide, decodes_runningAt⟩

theorem witness_StepAdvancesAndChecksTheEnd :
    Running (runningAt 8) ∧ FetchOk (runningAt 8) ∧
      decode (runningAt 8).params.opMaps ((runningAt 8).imem.readBytes (runningAt 8).ip.toNat 8) = .ok (.addK 1 1) :=
  witness_StepRunsTheDecodedInstruction

theorem witness_EncodedProgramWordRuns :
    (runningAt 8).params.opMaps.wf = true ∧ Running (runningAt 8) ∧ FetchOk (runningAt 8) ∧
      (runningAt 8).imem.readBytes (runningAt 8).ip.toNat 8 = encode (runningAt 8).params.opMaps (.addK 1 1) := by
  unfold Running FetchOk
  decide

/-- A machine of 16 bytes with one word of given opcode byte and low immediate byte at `ip` 0. -/
def fetching (p : Params) (imm op : Byte) : State := loadedAt p 16 0 [(1, 5)] [imm, 0, 0, 0, 0, 0, 0x01, op]

/-- The fields of that word. -/
def fetched (p : Params) (imm op : Byte) : Fields :=
  fieldsOfWord (leWord ((fetching p imm op).imem.readBytes (fetching p imm op).ip.toNat 8))

theorem fetches_fetching (p : Params) (imm op : Byte) : Fetches (fetching p imm op) (fetched p imm op) :=
  ⟨⟨rfl, nofun⟩, ⟨by show (0 : Nat) < 16; decide, by show (16 - 0) % 8 = 0; decide⟩, rfl⟩

/-- The classes 0 and 6 (95_test_vectors E6, E7). -/
theorem witness_IllegalClassDoesNotAdvance :
    (Fetches (fetching defaultParams 0 0x00) (fetched defaultParams 0 0x00) ∧
      Fetches (fetching defaultParams 0 0x7e) (fetched defaultParams 0 0x7e)) ∧
      (fetched defaultParams 0 0x00).cls = 0 ∧ (fetched defaultParams 0 0x7e).cls = 6 :=
  ⟨⟨fetches_fetching .., fetches_fetching ..⟩, by decide⟩

/-- Clauses: code 0xd under GRACEFUL and code 0xe under FATAL (95_test_vectors A34, A36). -/
theorem witness_UndefinedAlu64FaultsOrAborts :
    (Fetches (fetching defaultParams 16 0xd7) (fetched defaultParams 16 0xd7) ∧
      Fetches (fetching fatalParams 0 0xe7) (fetched fatalParams 0 0xe7)) ∧
      ((fetched defaultParams 16 0xd7).cls = 7 ∧
        (∀ o, (fetching defaultParams 16 0xd7).params.opMaps.alu.code o ≠ (fetched defaultParams 16 0xd7).code) ∧
        (fetching defaultParams 16 0xd7).params.alu64IllegalPolicy = .graceful) ∧
      (fetched fatalParams 0 0xe7).cls = 7 ∧
        (∀ o, (fetching fatalParams 0 0xe7).params.opMaps.alu.code o ≠ (fetched fatalParams 0 0xe7).code) ∧
        (fetching fatalParams 0 0xe7).params.alu64IllegalPolicy = .fatal :=
  ⟨⟨fetches_fetching .., fetches_fetching ..⟩, ⟨by decide, fun o => by cases o <;> decide, by decide⟩, by decide,
    fun o => by cases o <;> decide, by decide⟩

theorem witness_UndefinedAlu32Faults :
    Fetches (fetching defaultParams 0 0xe4) (fetched defaultParams 0 0xe4) ∧
      (fetched defaultParams 0 0xe4).cls = 4 ∧ (fetched defaultParams 0 0xe4).code ≠ 0xd ∧
      ∀ o, (fetching defaultParams 0 0xe4).params.opMaps.alu.code o ≠ (fetched defaultParams 0 0xe4).code :=
  ⟨fetches_fetching .., by decide, by decide, fun o => by cases o <;> decide⟩

/-- Width 8 (95_test_vectors C15). -/
theorem witness_IllegalEndianWidthFaults :
    Fetches (fetching defaultParams 8 0xd4) (fetched defaultParams 8 0xd4) ∧
      (fetched defaultParams 8 0xd4).cls = 4 ∧ (fetched defaultParams 8 0xd4).code = 0xd ∧
      (fetched defaultParams 8 0xd4).imm.toNat ≠ 16 ∧ (fetched defaultParams 8 0xd4).imm.toNat ≠ 32 ∧
      (fetched defaultParams 8 0xd4).imm.toNat ≠ 64 :=
  ⟨fetches_fetching .., by decide⟩

/-- Code 0x6 (95_test_vectors D31). -/
theorem witness_UndefinedConditionFaults :
    Fetches (fetching defaultParams 1 0x65) (fetched defaultParams 1 0x65) ∧
      (fetched defaultParams 1 0x65).cls = 5 ∧
      ∀ c, (fetching defaultParams 1 0x65).params.opMaps.jmp.code c ≠ (fetched defaultParams 1 0x65).code :=
  ⟨fetches_fetching .., by decide, fun c => by cases c <;> decide⟩

/-- Clauses: a division by zero, and an illegal class. -/
theorem witness_FaultTakesEffectAtTheNextStep :
    nextAnd (step (fetching defaultParams 0 0x37)) (fun t => t.result == some .divideByZero) = true ∧
      nextAnd (step (fetching defaultParams 0 0x00)) (fun t => t.result == some .illegalInstruction) = true := by decide

/-- Each flag set, and a move that is a next state. -/
theorem witness_StatusFlagsAreSticky :
    (∀ a b, HostMove.step ≠ .reset a b) ∧ (∀ p d, HostMove.step ≠ .load p d) ∧
      nextAnd (hostAct .step ((haltedState.raiseFault .divideByZero).raiseFault .illegalInstruction)) (fun _ => true) =
        true ∧
      ((haltedState.raiseFault .divideByZero).raiseFault .illegalInstruction).status =
        { halted := true, illegalInstruction := true, divideByZero := true } :=
  ⟨nofun, nofun, by decide, by decide⟩

theorem witness_NoStepWritesMemoryOrControl :
    nextAnd (step (runningAt 8)) (fun t => t.result == some .success) = true := by decide

/-- Clauses: a register that is not the destination, and an instruction with one. -/
theorem witness_OnlyTheDestinationIsWritten :
    nextAnd (Machine.exec (.addK 1 1) (runningAt 8)) (fun _ => true) = true ∧ dest? (.addK 1 1) ≠ some 2 ∧
      dest? (.addK 1 1) ≠ none := by decide

/-- Clauses: an unread register that is the destination, and one that is not. -/
theorem witness_UnreadRegistersDoNotMatter :
    (1 : Reg) ∉ readSet (.movX 1 2) ∧ dest? (.movX 1 2) = some 1 ∧ (3 : Reg) ∉ readSet (.movX 1 2) ∧
      dest? (.movX 1 2) ≠ some 3 := by decide

/-- Clauses: each result code, an illegal instruction with a legal class and one without. -/
theorem witness_CycleCountCountsCompletedSteps :
    [runningAt 8, fetching defaultParams 0 0x37, haltedState, runningAt 16, fetching fatalParams 0 0xe7,
      fetching defaultParams 0 0xe4, fetching defaultParams 0 0x00].map
        (fun s => (step s |> nextAnd) (fun _ => true)) = List.replicate 7 true ∧
    nextAnd (step (runningAt 8)) (fun t => t.result == some .success) = true ∧
    nextAnd (step haltedState) (fun t => t.result == some .machineHalted) = true ∧
    nextAnd (step (runningAt 16)) (fun t => t.result == some .fetchFailed) = true ∧
    nextAnd (step (fetching fatalParams 0 0xe7)) (fun t => t.result == some .aborted) = true ∧
    nextAnd (step (fetching defaultParams 0 0xe4)) (fun t => t.result == some .illegalInstruction) = true := by decide

theorem witness_ResetClearsEverything :
    nextAnd (hostAct (.reset 16 4) haltedState) (fun t => t.imem.size == 16) = true ∧ (15 < 16 ∧ 3 < 4) := by decide

theorem witness_LoadCopiesTheProgram :
    nextAnd (hostAct (.load [0x01, 0x02] 4) haltedState) (fun t => t.imem.size == 2) = true := by decide

theorem witness_DecoderExtractsTheFields :
    decodeSlice [0xff, 0xff, 0xff, 0xff, 0x00, 0x80, 0xff, 0xff] =
      some { imm := 0xffffffff, off := 0x8000, dst := 15, src := 15, op := 0xff } := by decide

theorem witness_DecodeInvertsEncode :
    defaultOpMaps.wf = true ∧ ({ defaultOpMaps with alu := { defaultAluOpMap with arsh := 0xf } } : OpMaps).wf = true := by
  decide

theorem witness_EveryStepKeepsInv :
    MachineInv (fetching defaultParams 0 0x37) ∧ nextAnd (step (fetching defaultParams 0 0x37)) (fun _ => true) = true := by
  unfold MachineInv
  decide

theorem witness_HostMovesKeepInv :
    MachineInv haltedState ∧ nextAnd (hostAct (.setContinuous true) haltedState) (fun _ => true) = true := by
  unfold MachineInv
  decide

/-- A one-word program whose word is a branch by -8. -/
def selfLoop : State := loadedAt defaultParams 8 0 [] [0, 0, 0, 0, 0xf8, 0xff, 0, 0x05]

theorem witness_WordBranchesKeepIpAligned :
    AlignedInv selfLoop ∧ nextAnd (step selfLoop) (fun t => t.ip == 0 && t.result == some .success) = true := by
  refine ⟨⟨by decide, fun a h1 h2 h3 => ?_, by decide⟩, by decide⟩
  have h2 : a < 8 := h2
  obtain rfl : a = 0 := by omega
  decide

/-- Clauses on a step: a clean end at IMEM_LEN, a faulted end, and a successful step in continuous mode. -/
theorem witness_CleanEndOnlyAtTheEndOfMemory :
    (MachineInv (runningAt 8) ∧ Running (runningAt 8)) ∧
      nextAnd (step (runningAt 8)) (fun t => t.status == Status.mk true false false && t.result == some .success) =
        true ∧
      (MachineInv (fetching defaultParams 0 0x37) ∧ Running (fetching defaultParams 0 0x37)) ∧
      nextAnd (step (fetching defaultParams 0 0x37)) (fun t => t.status == Status.mk true false true &&
        t.result == some .divideByZero) = true ∧
      (MachineInv (hostSetContinuous true (runningAt 8)) ∧ Running (hostSetContinuous true (runningAt 8))) ∧
      nextAnd (step (hostSetContinuous true (runningAt 8))) (fun t => t.result == some .success) = true := by
  unfold MachineInv Running
  refine ⟨?_, ?_, ?_, ?_, ?_, ?_⟩ <;> decide

/-- Clauses on a run: one whose first step ends it, one that stands at a failing fetch, one left Aborted. -/
theorem witness_CleanEnd_runs :
    (∃ t, RunEndsAt (fun _ => none) (runningAt 8) 1 t) ∧
      (runAt (fun _ => none) (runningAt 16) 0 = some (runningAt 16) ∧ FetchStuck (runningAt 16)) ∧
      runAt (fun _ => none) abortedState 0 = some abortedState ∧ Aborted abortedState := by
  refine ⟨⟨_, rfl, ⟨by decide, by unfold Aborted; decide⟩, ?_⟩, ⟨rfl, _, rfl, rfl⟩, rfl, rfl⟩
  intro m u hm hu he
  obtain rfl : m = 0 := by omega
  cases hu
  exact absurd he.1 (by decide)

/-- An Aborted state is no ending, though HALTED is set in it (R223). -/
theorem test_aborted_is_no_ending : abortedState.status.halted = true ∧ ¬ Ended abortedState :=
  ⟨by decide, fun h => h.2 rfl⟩

/-- 95_test_vectors E9 as a run of a loaded program: it ends at its first step, and the second answers MachineHalted
(R223). -/
theorem test_E9_run :
    [1, 2].map (fun n => (programRun defaultParams [0x01, 0, 0, 0, 0, 0, 0x01, 0x07] 0 (fun _ => none) n).map
      (fun t => (t.getReg 1, t.status.word, t.cycleCount, t.result))) =
    [some (1, 1, 1, some .success), some (1, 1, 1, some .machineHalted)] := by decide

/-- Clauses: an illegal class; a division by zero and an illegal encoding of a unit, each without a rewind and, at the
last word in continuous mode, with one. -/
theorem witness_FaultAddressIsRecoverable :
    nextAnd (step (fetching defaultParams 0 0x00)) (fun t => t.result == some .illegalInstruction && t.ip == 0) = true ∧
      (fetched defaultParams 0 0x00).classLegal = false ∧
      [0x37, 0xe4].map (fun op => nextAnd (step (fetching defaultParams 0 op)) (fun t =>
        (t.result == some .divideByZero || t.result == some .illegalInstruction) && t.ip == 8)) = [true, true] ∧
      [0x37, 0xe4].map (fun op => nextAnd (step (hostSetContinuous true
        (loadedAt defaultParams 16 8 [] [0, 0, 0, 0, 0, 0, 0x01, op]))) (fun t =>
        (t.result == some .divideByZero || t.result == some .illegalInstruction) && t.ip == 0)) = [true, true] := by
  refine ⟨?_, ?_, ?_, ?_⟩ <;> decide

theorem witness_EveryStepReportsAResult :
    (runningAt 8).result ≠ some .aborted ∧ abortedState.result = some .aborted := by decide

theorem witness_SwappingTwiceRestores :
    nextAnd (Machine.exec (.be64 1) (operands defaultParams 0x1122334455667788 0)) (fun t =>
      nextAnd (Machine.exec (.be64 1) t) (fun u => u.getReg 1 == 0x1122334455667788)) = true ∧
    nextAnd (Machine.exec (.le32 1) (operands bigParams 0x1122334455667788 0)) (fun t =>
      nextAnd (Machine.exec (.le32 1) t) (fun u => u.getReg 1 == 0x55667788)) = true := by decide

end Sys2Proof.Machine
end

namespace Sys2Proof.Machine

/-! The rules of the state and of a step that the claims about the state turn on (spec 10_state): what a step leaves
unchanged, when it keeps the flags and the invariant, and what a unit's effect depends on. -/

/-! ### What a step leaves unchanged -/

/-- A step writes neither memory, nor `continuous_mode`, nor a parameter: every way a step can go keeps the four
components (20_memory R57, R59, 10_state R35). -/
theorem step_keeps {s t : State} (h : step s = .next t) :
    t.imem = s.imem ∧ t.dmem = s.dmem ∧ t.continuousMode = s.continuousMode ∧ t.params = s.params := by
  cases step_ways h with
  | ran _ _ i _ u _ hu ht =>
    obtain ⟨himem, hdmem, -, hmode, hparams⟩ := hu.keeps
    simp [ht, himem, hdmem, hmode, hparams]
  | _ => simp [*]

/-- Machines with the same memories have the same bytes. -/
theorem SameMemory.of_eq {s t : State} (hi : t.imem = s.imem) (hd : t.dmem = s.dmem) : SameMemory s t := by
  simp [SameMemory, hi, hd]

/-- Settles O41: the four components are kept by `step_keeps`, and equal memories hold equal bytes. -/
theorem noStepWritesMemoryOrControl : Obligations.NoStepWritesMemoryOrControl := by
  intro s t h
  obtain ⟨himem, hdmem, hmode, hparams⟩ := step_keeps h
  exact ⟨himem, hdmem, .of_eq himem hdmem, hmode, hparams⟩

/-! ### The invariant -/

/-- A change that keeps the memories, the fault flags and the result, and does not clear HALTED, keeps the invariant. -/
theorem MachineInv.of_frame {s t : State} (h : MachineInv s) (hi : t.imem = s.imem) (hd : t.dmem = s.dmem)
    (hh : s.status.halted = true → t.status.halted = true)
    (hill : t.status.illegalInstruction = s.status.illegalInstruction)
    (hdiv : t.status.divideByZero = s.status.divideByZero) (hr : t.result = s.result) : MachineInv t := by
  obtain ⟨wi, wd, haltIll, haltDiv, repIll, repDiv⟩ := h
  refine ⟨hi ▸ wi, hd ▸ wd, fun k => hh (haltIll (hill ▸ k)), fun k => hh (haltDiv (hdiv ▸ k)), ?_, ?_⟩
  · rw [hr, hill]; exact repIll
  · rw [hr, hdiv]; exact repDiv

/-- Reporting a code keeps the invariant, where a code that names a fault finds the fault's flag set. -/
theorem MachineInv.report {s : State} (h : MachineInv s) {c : StepResult}
    (hill : c = .illegalInstruction ∨ c = .aborted → s.status.illegalInstruction = true)
    (hdiv : c = .divideByZero → s.status.divideByZero = true) : MachineInv (s.report c) := by
  obtain ⟨wi, wd, haltIll, haltDiv, -, -⟩ := h
  exact ⟨wi, wd, haltIll, haltDiv, by simpa using hill, by simpa using hdiv⟩

/-- Taking a fault keeps the invariant: it sets the flag it reports, and HALTED with it (60_exceptions R243). -/
theorem MachineInv.raiseFault {s : State} (h : MachineInv s) (k : FaultKind) : MachineInv (s.raiseFault k) := by
  obtain ⟨wi, wd, -, -, -, -⟩ := h
  refine ⟨wi, wd, fun _ => raise_halted _ k, fun _ => raise_halted _ k, ?_, ?_⟩ <;> cases k <;> simp

/-- The advance and the end check keep the invariant: they only ever set HALTED. -/
theorem MachineInv.endCheck_advance {s : State} (h : MachineInv s) : MachineInv (endCheck (advance s)) :=
  h.of_frame (by simp) (by simp) (fun k => by simp [endCheck_halted, k]) (by simp) (by simp) (by simp)

/-- A unit keeps the invariant: it reports success and leaves the flags, or takes a DivideByZero fault. -/
theorem UnitStep.machineInv {i : Instr} {s u : State} (hu : UnitStep i s u) (h : MachineInv s) : MachineInv u := by
  cases hu with
  | wrote d v _ ht => subst ht; exact (h.report (c := .success) nofun nofun).of_frame rfl rfl id rfl rfl rfl
  | drew d v _ ht => subst ht; exact (h.report (c := .success) nofun nofun).of_frame rfl rfl id rfl rfl rfl
  | divided _ _ ht => subst ht; exact h.raiseFault _
  | branched target _ ht => subst ht; exact (h.report (c := .success) nofun nofun).of_frame rfl rfl id rfl rfl rfl

/-- Settles O53, by the ways a step can go: each is a report, a fault or a unit's work, followed by the advance. -/
theorem everyStepKeepsInv : Obligations.EveryStepKeepsInv := by
  intro s t hs h
  cases step_ways h with
  | halted _ ht => subst ht; exact hs.report nofun nofun
  | fetchFailed _ _ ht => subst ht; exact hs.report nofun nofun
  | illegalClass _ _ _ ht => subst ht; exact hs.raiseFault _
  | aborted _ _ _ ht => subst ht; exact (hs.raiseFault _).report (fun _ => rfl) nofun
  | illegal _ _ _ ht => subst ht; exact (hs.raiseFault _).endCheck_advance
  | ran _ _ i _ u _ hu ht => subst ht; exact (hu.machineInv hs).endCheck_advance

/-! ### The status flags -/

/-- Every flag set in `a` is set in `b`. -/
def Status.Kept (a b : Status) : Prop :=
  (a.halted = true → b.halted = true) ∧ (a.illegalInstruction = true → b.illegalInstruction = true) ∧
    (a.divideByZero = true → b.divideByZero = true)

theorem Status.Kept.refl (a : Status) : a.Kept a := ⟨id, id, id⟩

theorem Status.Kept.trans {a b c : Status} (h : a.Kept b) (k : b.Kept c) : a.Kept c := by
  obtain ⟨halt, illegal, zero⟩ := h
  obtain ⟨halt', illegal', zero'⟩ := k
  exact ⟨halt' ∘ halt, illegal' ∘ illegal, zero' ∘ zero⟩

/-- A fault only sets flags (60_exceptions R243). -/
theorem Status.kept_raise (a : Status) (k : FaultKind) : a.Kept (a.raise k) := by
  cases k with
  | divideByZero => exact ⟨fun _ => rfl, id, fun _ => rfl⟩
  | illegalInstruction => exact ⟨fun _ => rfl, fun _ => rfl, id⟩

/-- The advance and the end check only ever set HALTED (45_execution_engine R217, R218). -/
theorem kept_endCheck_advance (s : State) : s.status.Kept (endCheck (advance s)).status :=
  ⟨fun k => by simp [endCheck_halted, k], by simp, by simp⟩

theorem UnitStep.kept {i : Instr} {s u : State} (hu : UnitStep i s u) : s.status.Kept u.status := by
  rcases hu.result_cases with ⟨-, hst⟩ | ⟨-, hst, -, -⟩
  · exact hst ▸ .refl _
  · exact hst ▸ s.status.kept_raise _

/-- No step clears a flag (10_state R32). -/
theorem step_kept {s t : State} (h : step s = .next t) : s.status.Kept t.status := by
  cases step_ways h with
  | halted _ ht => subst ht; exact .refl _
  | fetchFailed _ _ ht => subst ht; exact .refl _
  | illegalClass _ _ _ ht => subst ht; exact s.status.kept_raise _
  | aborted _ _ _ ht => subst ht; exact s.status.kept_raise _
  | illegal _ _ _ ht => subst ht; exact (s.status.kept_raise _).trans (kept_endCheck_advance (s.raiseFault _))
  | ran _ _ i _ u _ hu ht => subst ht; exact hu.kept.trans (kept_endCheck_advance u)

/-- Settles O40, by the host's moves: reset and load are excluded, a write of `continuous_mode` and a read leave `status`
alone, and a step keeps every flag by `step_kept`. -/
theorem statusFlagsAreSticky : Obligations.StatusFlagsAreSticky := by
  intro m s t hreset hload h
  cases m with
  | reset a b => exact absurd rfl (hreset a b)
  | load p d => exact absurd rfl (hload p d)
  | setContinuous b => cases h; exact Status.Kept.refl _
  | step => exact step_kept h
  | read => cases h; exact Status.Kept.refl _

/-- Settles O60, by the eight values of `status`. -/
theorem statusWordNumbersTheFlags : Obligations.StatusWordNumbersTheFlags := by
  rintro ⟨halted, illegal, zero⟩
  revert halted illegal zero
  decide

/-! ### What a unit writes -/

/-- A unit with a destination register leaves `ip` alone (44_branch R190: only a branch moves it). -/
theorem UnitStep.ip_eq {i : Instr} {s u : State} (hu : UnitStep i s u) (hd : dest? i ≠ none) : u.ip = s.ip := by
  cases hu with
  | branched _ hn _ => exact absurd hn hd
  | _ => simp [*]

/-- A unit writes no register but its destination (10_state R24). -/
theorem UnitStep.getReg_eq {i : Instr} {s u : State} (hu : UnitStep i s u) {r : Reg} (hr : dest? i ≠ some r) :
    u.getReg r = s.getReg r := by
  have hne {d : Reg} (hd : dest? i = some d) : r ≠ d := fun e => hr (e ▸ hd)
  cases hu with
  | wrote d v hd ht => rw [ht, getReg_report, getReg_setReg_ne _ _ (hne hd)]
  | drew d v hd ht => rw [ht, getReg_report, getReg_setReg_ne _ _ (hne hd), getReg_countDraw]
  | divided d _ ht => rw [ht, getReg_raiseFault]
  | branched target _ ht => subst ht; rfl

/-- Settles O42, by the kinds of next state a unit answers. -/
theorem onlyTheDestinationIsWritten : Obligations.OnlyTheDestinationIsWritten := by
  intro i s t h
  exact ⟨fun _ hr => (unitStep_of_exec h).getReg_eq hr, (unitStep_of_exec h).ip_eq⟩

/-! ### The cycle count -/

/-- Sub-step 4 counts one cycle modulo 2^64 (45_execution_engine R217). -/
theorem endCheck_advance_cycleCount_toNat (s : State) :
    (endCheck (advance s)).cycleCount.toNat = (s.cycleCount.toNat + 1) % 2 ^ 64 := by
  simp [BitVec.toNat_add]

/-- Settles O44, by the ways a step can go: the two that advance count a cycle, the other four do not, and the result code
tells which of them it was, the class of the word deciding for IllegalInstruction. -/
theorem cycleCountCountsCompletedSteps : Obligations.CycleCountCountsCompletedSteps := by
  intro s t h
  cases step_ways h with
  | halted _ ht => subst ht; simp
  | fetchFailed _ _ ht => subst ht; simp
  | illegalClass _ _ hc ht => subst ht; simp [hc]
  | aborted _ _ _ ht => subst ht; simp
  | illegal _ _ hc ht =>
    have hcount := endCheck_advance_cycleCount_toNat (s.raiseFault .illegalInstruction)
    subst ht
    refine ⟨fun _ => hcount, by simp, fun _ => ?_⟩
    rw [if_pos hc]
    exact hcount
  | ran _ _ i _ u _ hu ht =>
    obtain ⟨-, -, hcycle, -, -⟩ := hu.keeps
    have hcount := endCheck_advance_cycleCount_toNat u
    have hres : u.result = some .success ∨ u.result = some .divideByZero := hu.result_cases.imp And.left And.left
    rw [hcycle] at hcount
    subst ht
    exact ⟨fun _ => hcount, by rcases hres with e | e <;> simp [e], by rcases hres with e | e <;> simp [e]⟩

/-! ### Where a branch goes -/

theorem dest_alu64Instr (o : AluOp) (mode : Bool) (d r : Reg) (imm : BitVec 32) :
    dest? (alu64Instr o mode d r imm) = some d := by
  cases o <;> cases mode <;> rfl

theorem dest_alu32Instr (o : AluOp) (mode : Bool) (d r : Reg) (imm : BitVec 32) :
    dest? (alu32Instr o mode d r imm) = some d := by
  cases o <;> cases mode <;> rfl

theorem dest_endianInstr {mode : Bool} {w : BitVec 32} {d : Reg} {i : Instr} (h : endianInstr mode w d = some i) :
    dest? i = some d := by
  revert h
  unfold endianInstr
  repeat' split
  all_goals rintro ⟨⟩
  all_goals rfl

/-- What the branch unit runs for a condition: `branchIf` with the word's own offset. -/
theorem exec_branchInstr (c : JmpCond) (mode : Bool) (d r : Reg) (imm : BitVec 32) (off : BitVec 16) (s : State) :
    ∃ b, exec (branchInstr c mode d r imm off) s = branchIf b off s := by
  cases c <;> cases mode <;> exact ⟨_, rfl⟩

/-- A taken branch adds the sign-extended offset to `ip`, one that is not taken leaves it (44_branch R191). -/
theorem branchIf_ip {b : Bool} {off : BitVec 16} {s u : State} (h : branchIf b off s = .next u) :
    u.ip = s.ip ∨ u.ip = s.ip + off.signExtend 64 := by
  cases b with
  | true => rw [branchIf_true] at h; cases h; exact .inr rfl
  | false => rw [branchIf_false] at h; cases h; exact .inl rfl

/-- A decoded word writes a register, or it is of class 5 and is the branch with its own offset (30_encoding R82). -/
theorem dest_or_branch_of_classify {m : OpMaps} {f : Fields} {i : Instr} (h : classify m f = .ok i) :
    dest? i ≠ none ∨ f.cls = 5 ∧ ∃ c, i = branchInstr c f.mode f.dstReg f.srcReg f.imm f.off := by
  revert h
  unfold classify
  repeat' split
  all_goals (intro h; cases h)
  · simp [dest_alu64Instr]
  · rename_i he; simp [dest_endianInstr he]
  · simp [dest_alu32Instr]
  · rename_i hc _ c _; exact .inr ⟨hc, c, rfl⟩

/-- The unit of a decoded word leaves `ip`, or the word is of class 5 and its own offset is added (44_branch R191). -/
theorem exec_ip_of_classify {m : OpMaps} {f : Fields} {i : Instr} {s u : State} (hf : classify m f = .ok i)
    (he : exec i s = .next u) : u.ip = s.ip ∨ f.cls = 5 ∧ u.ip = s.ip + f.off.signExtend 64 := by
  rcases dest_or_branch_of_classify hf with hd | ⟨hc, c, rfl⟩
  · exact .inl ((unitStep_of_exec he).ip_eq hd)
  · obtain ⟨b, hb⟩ := exec_branchInstr c f.mode f.dstReg f.srcReg f.imm f.off s
    rw [hb] at he
    exact (branchIf_ip he).imp_right fun e => ⟨hc, e⟩

/-! ### Alignment -/

/-- An offset that is a multiple of 8 is one after sign extension: 2^16 and 2^64 are multiples of 8. -/
theorem signExtend_mod_eight {off : BitVec 16} (h : off.toNat % 8 = 0) : (off.signExtend 64).toNat % 8 = 0 := by
  rw [BitVec.toNat_signExtend, BitVec.toNat_setWidth]
  split <;> omega

/-- Addition modulo 2^64 keeps multiples of 8. -/
theorem add_mod_eight {a b : Word} (ha : a.toNat % 8 = 0) (hb : b.toNat % 8 = 0) : (a + b).toNat % 8 = 0 := by
  rw [BitVec.toNat_add]
  omega

/-- The end check keeps `ip` a multiple of 8: it leaves it or rewinds it to 0 (45_execution_engine R218). -/
theorem endCheck_advance_ip_mod_eight {s : State} (h : s.ip.toNat % 8 = 0) :
    (endCheck (advance s)).ip.toNat % 8 = 0 := by
  rw [endCheck_ip]
  split
  · rfl
  · exact add_mod_eight h rfl

/-- In an aligned program of word branches the unit of the fetched word leaves `ip` a multiple of 8. -/
theorem AlignedInv.exec_ip {s u : State} {i : Instr} (hs : AlignedInv s) (hk : FetchOk s) (hf : fetchDecode s = .ok i)
    (he : exec i s = .next u) : u.ip.toNat % 8 = 0 := by
  obtain ⟨-, hbr, hip⟩ := hs
  rw [fetchDecode_eq_classify hk] at hf
  rcases exec_ip_of_classify hf he with e | ⟨hc, e⟩
  · rw [e]; exact hip
  · rw [e]; exact add_mod_eight hip (signExtend_mod_eight (hbr _ hip hk.1 hc))

/-- Every step from an aligned state leaves `ip` a multiple of 8, by the ways it can go. -/
theorem AlignedInv.step_ip {s t : State} (hs : AlignedInv s) (h : step s = .next t) : t.ip.toNat % 8 = 0 := by
  have ⟨_, _, hip⟩ := hs
  cases step_ways h with
  | halted _ ht => subst ht; exact hip
  | fetchFailed _ _ ht => subst ht; exact hip
  | illegalClass _ _ _ ht => subst ht; exact hip
  | aborted _ _ _ ht => subst ht; exact hip
  | illegal _ _ _ ht => subst ht; exact endCheck_advance_ip_mod_eight hip
  | ran _ hk i hf u he _ ht => subst ht; exact endCheck_advance_ip_mod_eight (hs.exec_ip hk hf he)

/-- Settles O55: the program is not written (`step_keeps`), so only `ip` has to be followed through the step. -/
theorem wordBranchesKeepIpAligned : Obligations.WordBranchesKeepIpAligned := by
  intro s t hs h
  have himem : t.imem = s.imem := (step_keeps h).1
  have ⟨hsize, hbr, _⟩ := hs
  refine ⟨himem ▸ hsize, ?_, hs.step_ip h⟩
  rw [BranchesByWords, himem]
  exact hbr

/-! ### What a unit's effect depends on -/

/-- The two machines agree on the registers the instruction reads, on the parameters and on the draw counter. -/
def ReadsAgree (i : Instr) (s t : State) : Prop :=
  (∀ q ∈ readSet i, t.getReg q = s.getReg q) ∧ t.params = s.params ∧ t.draws = s.draws

/-- The instruction's unit does the same to both machines: the kinds of `UnitStep`, each with one value for the two. -/
inductive SameEffect (i : Instr) (s t : State) : Prop where
  /-- it writes the same value to its destination register -/
  | writes (d : Reg) (v : Word) (hd : dest? i = some d) (hs : exec i s = writeResult d v s)
      (ht : exec i t = writeResult d v t)
  /-- it writes the same drawn value to its destination register -/
  | draws (d : Reg) (v : Word) (hd : dest? i = some d) (hs : exec i s = writeResult d v s.countDraw)
      (ht : exec i t = writeResult d v t.countDraw)
  /-- it divides by zero, having read its destination register -/
  | divides (d : Reg) (hd : dest? i = some d) (hr : d ∈ readSet i) (hs : exec i s = .next (s.raiseFault .divideByZero))
      (ht : exec i t = .next (t.raiseFault .divideByZero))
  /-- it branches, on the same condition and by the same offset -/
  | branches (c : Bool) (off : BitVec 16) (hd : dest? i = none) (hs : exec i s = branchIf c off s)
      (ht : exec i t = branchIf c off t)

section SameEffect
variable {i : Instr} {s t : State} {d : Reg} {rhs : State → Word}

theorem sameEffect_write {v : State → Word} (hd : dest? i = some d) (he : ∀ s, exec i s = writeResult d (v s) s)
    (hv : v t = v s) : SameEffect i s t :=
  .writes d (v s) hd (he s) (hv ▸ he t)

theorem sameEffect_shift64 {f : State → Word → Nat → Word} (hd : dest? i = some d)
    (he : ∀ s, exec i s = shift64 (f s) d (rhs s) s) (hf : f t = f s) (hr : rhs t = rhs s)
    (hdst : t.getReg d = s.getReg d) (hp : t.params = s.params) (hdraws : t.draws = s.draws) : SameEffect i s t := by
  have hs := he s
  have ht := he t
  rw [hf, hr] at ht
  cases h : shamt64 s.params.shiftAmountPolicy (rhs s) with
  | some n =>
    rw [shift64_some h] at hs
    rw [shift64_some (hp ▸ h), hdst] at ht
    exact .writes d _ hd hs ht
  | none =>
    rw [shift64_none h] at hs
    rw [shift64_none (hp ▸ h), hdraws] at ht
    exact .draws d _ hd hs ht

theorem sameEffect_shift32 {f : State → Half → Nat → Half} (hd : dest? i = some d)
    (he : ∀ s, exec i s = shift32 (f s) d (rhs s) s) (hf : f t = f s) (hr : rhs t = rhs s)
    (hdst : t.getReg d = s.getReg d) (hp : t.params = s.params) (hdraws : t.draws = s.draws) : SameEffect i s t := by
  have hs := he s
  have ht := he t
  rw [hf, hr] at ht
  cases h : shamt32 s.params.shiftAmountPolicy (low32 (rhs s)) with
  | some n =>
    rw [shift32_some h] at hs
    rw [shift32_some (hp ▸ h), hdst] at ht
    exact .writes d _ hd hs ht
  | none =>
    rw [shift32_none h] at hs
    rw [shift32_none (hp ▸ h), hdraws] at ht
    exact .draws d _ hd hs ht

theorem sameEffect_divide64 {f : Word → Word → Word} (hd : dest? i = some d) (hmem : d ∈ readSet i)
    (he : ∀ s, exec i s = divide64 f d (rhs s) s) (hr : rhs t = rhs s) (hdst : t.getReg d = s.getReg d) :
    SameEffect i s t := by
  have hs := he s
  have ht := he t
  rw [hr] at ht
  by_cases h : rhs s = 0
  · rw [h, divide64_zero] at hs ht
    exact .divides d hd hmem hs ht
  · rw [divide64_ne h] at hs ht
    rw [hdst] at ht
    exact .writes d _ hd hs ht

theorem sameEffect_divide32 {f : Half → Half → Half} (hd : dest? i = some d) (hmem : d ∈ readSet i)
    (he : ∀ s, exec i s = divide32 f d (rhs s) s) (hr : rhs t = rhs s) (hdst : t.getReg d = s.getReg d) :
    SameEffect i s t := by
  have hs := he s
  have ht := he t
  rw [hr] at ht
  by_cases h : low32 (rhs s) = 0
  · rw [divide32_zero h] at hs ht
    exact .divides d hd hmem hs ht
  · rw [divide32_ne h] at hs ht
    rw [hdst] at ht
    exact .writes d _ hd hs ht

theorem sameEffect_branch {c : State → Bool} {off : BitVec 16} (hd : dest? i = none)
    (he : ∀ s, exec i s = branchIf (c s) off s) (hc : c t = c s) : SameEffect i s t :=
  .branches (c s) off hd (he s) (hc ▸ he t)

end SameEffect

/-- An instruction's effect depends on the registers it reads, the parameters and the draw counter only: by the shared
operation each instruction is (10_state R24, 30_encoding R82). -/
theorem sameEffect_of_readsAgree {i : Instr} {s t : State} (h : ReadsAgree i s t) : SameEffect i s t := by
  obtain ⟨hq, hp, hn⟩ := h
  cases i
  case addK | addX | subK | subX | mulK | mulX | orK | orX | andK | andX | xorK | xorX | movK | movX | negK | negX
      | add32K | add32X | sub32K | sub32X | mul32K | mul32X | or32K | or32X | and32K | and32X | xor32K | xor32X
      | mov32K | mov32X | neg32K | neg32X | le16 | le32 | le64 | be16 | be32 | be64 =>
    exact sameEffect_write rfl (fun _ => rfl) (by simp_all [readSet])
  case lshK | lshX | rshK | rshX | arshK | arshX =>
    exact sameEffect_shift64 rfl (fun _ => rfl) (by simp [hp]) (by simp_all [readSet]) (hq _ (.head _)) hp hn
  case lsh32K | lsh32X | rsh32K | rsh32X | arsh32K | arsh32X =>
    exact sameEffect_shift32 rfl (fun _ => rfl) (by simp [hp]) (by simp_all [readSet]) (hq _ (.head _)) hp hn
  case divK | divX | modK | modX =>
    exact sameEffect_divide64 rfl (.head _) (fun _ => rfl) (by simp_all [readSet]) (hq _ (.head _))
  case div32K | div32X | mod32K | mod32X =>
    exact sameEffect_divide32 rfl (.head _) (fun _ => rfl) (by simp_all [readSet]) (hq _ (.head _))
  -- every other instruction is a branch
  all_goals exact sameEffect_branch rfl (fun _ => rfl) (by simp_all [readSet])

/-- Changing a register an instruction does not read leaves what it reads as it was. -/
theorem readsAgree_setReg {i : Instr} {r : Reg} (h : r ∉ readSet i) (s : State) (v : Word) :
    ReadsAgree i s (s.setReg r v) :=
  ⟨fun _ hq => getReg_setReg_ne s v fun e => h (e ▸ hq), rfl, rfl⟩

/-- A write to a register overrules a change of it. -/
theorem writeResult_setReg_same (d : Reg) (v w : Word) (s : State) :
    writeResult d w (s.setReg d v) = writeResult d w s := by
  simp only [writeResult_eq, setReg_setReg_same]

/-- A write to one register and a change of another commute. -/
theorem writeResult_setReg_ne {d r : Reg} (h : d ≠ r) (v w : Word) (s : State) :
    writeResult d w (s.setReg r v) = mapNext (fun t => t.setReg r v) (writeResult d w s) := by
  rw [writeResult_eq, setReg_setReg_comm s v w h]
  rfl

/-- A branch neither reads nor writes a changed register, once its condition is fixed. -/
theorem branchIf_setReg (c : Bool) (off : BitVec 16) (r : Reg) (v : Word) (s : State) :
    branchIf c off (s.setReg r v) = mapNext (fun t => t.setReg r v) (branchIf c off s) := by
  cases c <;> rfl

/-- Settles O43: the changed machine agrees with the first on what the instruction reads, so the unit does the same to
both; what is left is how each effect commutes with the change. -/
theorem unreadRegistersDoNotMatter : Obligations.UnreadRegistersDoNotMatter := by
  intro i s r v hread
  cases sameEffect_of_readsAgree (readsAgree_setReg hread s v) with
  | writes d w hd hs ht =>
    rw [hs, ht, hd]
    constructor
    · rintro ⟨⟩; exact writeResult_setReg_same _ v w s
    · intro hne; exact writeResult_setReg_ne (fun e => hne (congrArg some e)) v w s
  | draws d w hd hs ht =>
    rw [hs, ht, hd]
    constructor
    · rintro ⟨⟩; exact writeResult_setReg_same _ v w s.countDraw
    · intro hne; exact writeResult_setReg_ne (fun e => hne (congrArg some e)) v w s.countDraw
  | divides d hd hr hs ht =>
    rw [hs, ht, hd]
    constructor
    · rintro ⟨⟩; exact absurd hr hread
    · exact fun _ => rfl
  | branches c off hd hs ht =>
    rw [hs, ht, hd]
    exact ⟨nofun, fun _ => branchIf_setReg c off r v s⟩

end Sys2Proof.Machine

/-! Fetch and the decoder (20_memory R51): the decoder answers for every slice of a positive multiple of 8 bytes and looks
at its first eight only, so the eight bytes of a fetch stand for the whole rest of instruction memory. -/
namespace Sys2Proof.Machine

/-- The decoder fails exactly on a slice whose length is not a positive multiple of 8 (30_encoding R73). -/
theorem decodeSlice_of_bad_length {l : List Byte} (h : l.length = 0 ∨ l.length % 8 ≠ 0) : decodeSlice l = none :=
  if_pos h

/-- On a read of a positive multiple of 8 bytes the decoder's verdict is that on the first eight. -/
theorem decodeSlice_readBytes (m : Memory) (a : Nat) {n : Nat} (hpos : 0 < n) (hmul : n % 8 = 0) :
    decodeSlice (m.readBytes a n) = decodeSlice (m.readBytes a 8) := by
  rw [decodeSlice_of_length (readBytes_length m a 8), ← leWord_readBytes m a (by omega : 8 ≤ n)]
  exact if_neg (by rw [readBytes_length]; omega)

/-- A byte that exists is read as it stands, at its place in a read of consecutive bytes. -/
theorem readBytes_getElem? {m : Memory} {a n k : Nat} (hk : k < n) (hm : a + k < m.size) :
    (m.readBytes a n)[k]? = m.readByte (a + k) := by
  have hbyte : m.readByte (a + k) = some (lookupCell (a + k) m.cells) := if_pos hm
  have hget := readBytes_getD m a hk
  rw [hbyte, Option.getD_some, List.getD_eq_getElem _ _ (by simpa using hk)] at hget
  rw [hbyte, List.getElem?_eq_getElem (by simpa using hk), hget]

@[simp] theorem restOfImem_length (s : State) : (restOfImem s).length = s.imem.size - s.ip.toNat :=
  readBytes_length ..

/-- Settles O30: where the fetch succeeds, the rest of instruction memory begins with the eight bytes fetched, all at
existing offsets; where it fails, the rest has a length the decoder refuses too. -/
theorem fetchHandsTheDecoderTheRest : Obligations.FetchHandsTheDecoderTheRest := by
  intro s
  refine ⟨?_, fun hk => ?_, fetchBytes_of_not_fetchOk⟩
  · by_cases hk : FetchOk s
    · obtain ⟨hlt, hmul⟩ := hk
      rw [fetchBytes_of_fetchOk ⟨hlt, hmul⟩, Option.bind_some, restOfImem,
        decodeSlice_readBytes s.imem _ (by omega) hmul]
    · have hbad : (restOfImem s).length = 0 ∨ (restOfImem s).length % 8 ≠ 0 := by
        rw [restOfImem_length]; unfold FetchOk at hk; omega
      rw [fetchBytes_of_not_fetchOk hk, decodeSlice_of_bad_length hbad, Option.bind_none]
  · obtain ⟨hlt, hmul⟩ := hk
    exact ⟨_, fetchBytes_of_fetchOk ⟨hlt, hmul⟩, readBytes_length ..,
      fun k hk8 => readBytes_getElem? hk8 (by omega)⟩

end Sys2Proof.Machine

/-! The encoding (spec 30_encoding): words, fields and bytes as numbers and how they turn into each other (R71, R72, R86),
what the decoder makes of an encoded instruction (R79 to R82), and which words it refuses (R83). -/
namespace Sys2Proof

open Sys2Proof.Machine

/-! ### Words, fields and bytes -/

theorem toNat_append_eq_add {m n : Nat} (a : BitVec m) (b : BitVec n) :
    (a ++ b).toNat = a.toNat * 2 ^ n + b.toNat := by
  rw [BitVec.toNat_append, ← Nat.shiftLeft_add_eq_or_of_lt b.isLt, Nat.shiftLeft_eq]

/-- The word of a slice is the little-endian sum of its first eight bytes (20_memory R54). -/
theorem leWord_toNat (l : List Byte) :
    (leWord l).toNat =
      (l.getD 0 0).toNat + 2 ^ 8 * (l.getD 1 0).toNat + 2 ^ 16 * (l.getD 2 0).toNat + 2 ^ 24 * (l.getD 3 0).toNat +
        2 ^ 32 * (l.getD 4 0).toNat + 2 ^ 40 * (l.getD 5 0).toNat + 2 ^ 48 * (l.getD 6 0).toNat +
        2 ^ 56 * (l.getD 7 0).toNat := by
  simp only [leWord, append_byte_toNat]
  omega

/-- The spec's formula for the word of fields (30_encoding R86). -/
theorem wordOfFields_toNat (f : Fields) :
    (wordOfFields f).toNat =
      f.imm.toNat + f.off.toNat * 2 ^ 32 + f.dst.toNat * 2 ^ 48 + f.src.toNat * 2 ^ 52 + f.op.toNat * 2 ^ 56 := by
  simp only [wordOfFields, toNat_append_eq_add]
  omega

section FieldsOfWord
variable (w : Word)

theorem fieldsOfWord_imm_toNat : (fieldsOfWord w).imm.toNat = w.toNat % 2 ^ 32 := by
  simp [fieldsOfWord]

theorem fieldsOfWord_off_toNat : (fieldsOfWord w).off.toNat = w.toNat / 2 ^ 32 % 2 ^ 16 := by
  simp [fieldsOfWord, Nat.shiftRight_eq_div_pow]

theorem fieldsOfWord_dst_toNat : (fieldsOfWord w).dst.toNat = w.toNat / 2 ^ 48 % 2 ^ 4 := by
  simp [fieldsOfWord, Nat.shiftRight_eq_div_pow]

theorem fieldsOfWord_src_toNat : (fieldsOfWord w).src.toNat = w.toNat / 2 ^ 52 % 2 ^ 4 := by
  simp [fieldsOfWord, Nat.shiftRight_eq_div_pow]

theorem fieldsOfWord_op_toNat : (fieldsOfWord w).op.toNat = w.toNat / 2 ^ 56 % 2 ^ 8 := by
  simp [fieldsOfWord, Nat.shiftRight_eq_div_pow]

end FieldsOfWord

/-- Fields that hold the same numbers are the same fields. -/
theorem Fields.ext_toNat {f g : Fields} (himm : f.imm.toNat = g.imm.toNat) (hoff : f.off.toNat = g.off.toNat)
    (hdst : f.dst.toNat = g.dst.toNat) (hsrc : f.src.toNat = g.src.toNat) (hop : f.op.toNat = g.op.toNat) : f = g := by
  cases f
  cases g
  rw [Fields.mk.injEq]
  exact ⟨BitVec.eq_of_toNat_eq himm, BitVec.eq_of_toNat_eq hoff, BitVec.eq_of_toNat_eq hdst,
    BitVec.eq_of_toNat_eq hsrc, BitVec.eq_of_toNat_eq hop⟩

/-- The fields of the word of fields: each is the digit of the sum of `wordOfFields_toNat` at its own place. -/
@[simp] theorem fieldsOfWord_wordOfFields (f : Fields) : fieldsOfWord (wordOfFields f) = f := by
  have himm := f.imm.isLt
  have hoff := f.off.isLt
  have hdst := f.dst.isLt
  have hsrc := f.src.isLt
  have hop := f.op.isLt
  apply Fields.ext_toNat
  · rw [fieldsOfWord_imm_toNat, wordOfFields_toNat]; omega
  · rw [fieldsOfWord_off_toNat, wordOfFields_toNat]; omega
  · rw [fieldsOfWord_dst_toNat, wordOfFields_toNat]; omega
  · rw [fieldsOfWord_src_toNat, wordOfFields_toNat]; omega
  · rw [fieldsOfWord_op_toNat, wordOfFields_toNat]; omega

@[simp] theorem wordOfFields_fieldsOfWord (w : Word) : wordOfFields (fieldsOfWord w) = w := by
  apply BitVec.eq_of_toNat_eq
  rw [wordOfFields_toNat, fieldsOfWord_imm_toNat, fieldsOfWord_off_toNat, fieldsOfWord_dst_toNat,
    fieldsOfWord_src_toNat, fieldsOfWord_op_toNat]
  omega

@[simp] theorem leWord_leBytes (w : Word) : leWord (leBytes w) = w := by
  apply BitVec.eq_of_toNat_eq
  rw [leWord_toNat]
  simp only [leBytes, List.getD_cons_zero, List.getD_cons_succ, BitVec.extractLsb'_toNat, Nat.shiftRight_eq_div_pow]
  omega

@[simp] theorem decodeSlice_leBytes (w : Word) : decodeSlice (leBytes w) = some (fieldsOfWord w) := by
  rw [decodeSlice_of_length (leBytes_length w), leWord_leBytes]

/-- Settles O48: the spec's formula, and the round trips that follow from it. -/
theorem fieldsAndWordsRoundTrip : Obligations.FieldsAndWordsRoundTrip :=
  ⟨wordOfFields_toNat, fieldsOfWord_wordOfFields, wordOfFields_fieldsOfWord, decodeSlice_leBytes⟩

theorem decodeSlice_eq_none_iff {l : List Byte} : decodeSlice l = none ↔ l.length = 0 ∨ l.length % 8 ≠ 0 := by
  simp only [decodeSlice, ite_eq_left_iff, reduceCtorEq, imp_false, not_not]

theorem eq_fieldsOfWord_of_decodeSlice {l : List Byte} {f : Fields} (h : decodeSlice l = some f) :
    f = fieldsOfWord (leWord l) := by
  unfold decodeSlice at h
  split at h <;> cases h
  rfl

/-- Settles O47: each field is cut out of the little-endian sum of `leWord_toNat`, in which every byte is a digit. -/
theorem decoderExtractsTheFields : Obligations.DecoderExtractsTheFields := by
  intro slice
  refine ⟨decodeSlice_eq_none_iff, fun f hf => ?_⟩
  obtain rfl := eq_fieldsOfWord_of_decodeSlice hf
  have hw := leWord_toNat slice
  have h0 := (slice.getD 0 0).isLt
  have h1 := (slice.getD 1 0).isLt
  have h2 := (slice.getD 2 0).isLt
  have h3 := (slice.getD 3 0).isLt
  have h4 := (slice.getD 4 0).isLt
  have h5 := (slice.getD 5 0).isLt
  have h6 := (slice.getD 6 0).isLt
  have h7 := (slice.getD 7 0).isLt
  refine ⟨?_, ?_, ?_, ?_, BitVec.eq_of_toNat_eq ?_⟩
  · rw [fieldsOfWord_imm_toNat]; omega
  · rw [BitVec.toInt_eq_toNat_cond, fieldsOfWord_off_toNat]; omega
  · rw [fieldsOfWord_dst_toNat]; omega
  · rw [fieldsOfWord_src_toNat]; omega
  · rw [fieldsOfWord_op_toNat]; omega

/-! ### Decoding an encoded instruction -/

section OpcodeByte
variable {m : OpMaps} {f : Fields} {cls : BitVec 3} {mode : Bool} {code : BitVec 4} {i : Instr}

theorem cls_of_opByte (h : f.op = opByte cls mode code) : f.cls = cls := by
  rw [Fields.cls, h, opByte_cls]

theorem mode_of_opByte (h : f.op = opByte cls mode code) : f.mode = mode := by
  rw [Fields.mode, h, opByte_mode]

theorem code_of_opByte (h : f.op = opByte cls mode code) : f.code = code := by
  rw [Fields.code, h, opByte_code]

theorem classify_of_alu64_opByte (hm : m.wf = true) (o : AluOp) (hop : f.op = opByte 7 mode (m.alu.code o))
    (hi : alu64Instr o mode f.dstReg f.srcReg f.imm = i) : classify m f = .ok i := by
  rw [classify_alu64 hm (cls_of_opByte hop) (code_of_opByte hop), mode_of_opByte hop, hi]

theorem classify_of_alu32_opByte (hm : m.wf = true) (o : AluOp) (hop : f.op = opByte 4 mode (m.alu.code o))
    (hi : alu32Instr o mode f.dstReg f.srcReg f.imm = i) : classify m f = .ok i := by
  rw [classify_alu32 hm (cls_of_opByte hop) (code_of_opByte hop), mode_of_opByte hop, hi]

theorem classify_of_end_opByte (hop : f.op = opByte 4 mode 0xd) (hi : endianInstr mode f.imm f.dstReg = some i) :
    classify m f = .ok i :=
  classify_end_some m (cls_of_opByte hop) (code_of_opByte hop) (by rw [mode_of_opByte hop, hi])

theorem classify_of_jmp_opByte (hm : m.wf = true) (c : JmpCond) (hop : f.op = opByte 5 mode (m.jmp.code c))
    (hi : branchInstr c mode f.dstReg f.srcReg f.imm f.off = i) : classify m f = .ok i := by
  rw [classify_jmp hm (cls_of_opByte hop) (code_of_opByte hop), mode_of_opByte hop, hi]

end OpcodeByte

/-- Under admitted maps the fields of an instruction are classified as that instruction: by its family, whose opcode byte
they hold, and its operation in it (30_encoding R81). -/
theorem classify_fields {m : OpMaps} (hm : m.wf = true) (i : Instr) : classify m (i.fields m) = .ok i := by
  cases i
  case addK | addX => exact classify_of_alu64_opByte hm .add rfl rfl
  case subK | subX => exact classify_of_alu64_opByte hm .sub rfl rfl
  case mulK | mulX => exact classify_of_alu64_opByte hm .mul rfl rfl
  case divK | divX => exact classify_of_alu64_opByte hm .div rfl rfl
  case orK | orX => exact classify_of_alu64_opByte hm .or rfl rfl
  case andK | andX => exact classify_of_alu64_opByte hm .and rfl rfl
  case lshK | lshX => exact classify_of_alu64_opByte hm .lsh rfl rfl
  case rshK | rshX => exact classify_of_alu64_opByte hm .rsh rfl rfl
  case negK | negX => exact classify_of_alu64_opByte hm .neg rfl rfl
  case modK | modX => exact classify_of_alu64_opByte hm .mod rfl rfl
  case xorK | xorX => exact classify_of_alu64_opByte hm .xor rfl rfl
  case movK | movX => exact classify_of_alu64_opByte hm .mov rfl rfl
  case arshK | arshX => exact classify_of_alu64_opByte hm .arsh rfl rfl
  case add32K | add32X => exact classify_of_alu32_opByte hm .add rfl rfl
  case sub32K | sub32X => exact classify_of_alu32_opByte hm .sub rfl rfl
  case mul32K | mul32X => exact classify_of_alu32_opByte hm .mul rfl rfl
  case div32K | div32X => exact classify_of_alu32_opByte hm .div rfl rfl
  case or32K | or32X => exact classify_of_alu32_opByte hm .or rfl rfl
  case and32K | and32X => exact classify_of_alu32_opByte hm .and rfl rfl
  case lsh32K | lsh32X => exact classify_of_alu32_opByte hm .lsh rfl rfl
  case rsh32K | rsh32X => exact classify_of_alu32_opByte hm .rsh rfl rfl
  case neg32K | neg32X => exact classify_of_alu32_opByte hm .neg rfl rfl
  case mod32K | mod32X => exact classify_of_alu32_opByte hm .mod rfl rfl
  case xor32K | xor32X => exact classify_of_alu32_opByte hm .xor rfl rfl
  case mov32K | mov32X => exact classify_of_alu32_opByte hm .mov rfl rfl
  case arsh32K | arsh32X => exact classify_of_alu32_opByte hm .arsh rfl rfl
  case le16 | le32 | le64 | be16 | be32 | be64 => exact classify_of_end_opByte rfl rfl
  case jaK | jaX => exact classify_of_jmp_opByte hm .ja rfl rfl
  case jeqK | jeqX => exact classify_of_jmp_opByte hm .jeq rfl rfl
  case jgtK | jgtX => exact classify_of_jmp_opByte hm .jgt rfl rfl
  case jgeK | jgeX => exact classify_of_jmp_opByte hm .jge rfl rfl
  case jsetK | jsetX => exact classify_of_jmp_opByte hm .jset rfl rfl
  case jneK | jneX => exact classify_of_jmp_opByte hm .jne rfl rfl
  case jltK | jltX => exact classify_of_jmp_opByte hm .jlt rfl rfl
  case jleK | jleX => exact classify_of_jmp_opByte hm .jle rfl rfl

/-- The decoder reads the fields an instruction was encoded with, so only their classification is left. -/
theorem decode_encode (m : OpMaps) (i : Instr) : decode m (encode m i) = classify m (i.fields m) := by
  rw [decode, encode, encodeWord, decodeSlice_leBytes, fieldsOfWord_wordOfFields]

/-- Settles O49: the bytes give the fields back, and the fields the instruction. -/
theorem decodeInvertsEncode : Obligations.DecodeInvertsEncode := by
  intro m i hm
  rw [decode_encode, classify_fields hm]

/-- Settles O33: the engine decodes the eight bytes at `ip`, which are an encoding, and `decodeInvertsEncode` undoes it. -/
theorem encodedProgramWordRuns : Obligations.EncodedProgramWordRuns := by
  intro s i hm hr hk hb
  apply step_of_instr hr
  rw [fetchDecode_eq_decode hk, hb, decodeInvertsEncode _ i hm]

/-- Settles O51: nine closed words, each decoded by evaluation. -/
theorem knownWordsDecode : Obligations.KnownWordsDecode :=
  ⟨rfl, rfl, rfl, rfl, rfl, rfl, rfl, rfl, rfl⟩

/-! ### The words that are no instruction -/

theorem aluFind_eq_none_iff_contains {m : AluOpMap} {c : BitVec 4} :
    m.find c = none ↔ (allAluOps.map m.code).contains c = false := by
  simp [AluOpMap.find]

theorem jmpFind_eq_none_iff_contains {m : JmpOpMap} {c : BitVec 4} :
    m.find c = none ↔ (allJmpConds.map m.code).contains c = false := by
  simp [JmpOpMap.find]

theorem endianInstr_eq_none {mode : Bool} {w : BitVec 32} {d : Reg} :
    endianInstr mode w d = none ↔ w ≠ 16 ∧ w ≠ 32 ∧ w ≠ 64 := by
  unfold endianInstr
  repeat' split
  all_goals simp_all

/-- The word is clear of the kind of illegal encoding a rejection names (30_encoding R83). Fields are always clear of
MalformedBuffer, which is a verdict on the slice they come from (R73). -/
def Fields.clearOf (m : OpMaps) (f : Fields) : Reject → Bool
  | .malformedBuffer => true
  | .illegalClass => f.classLegal
  | .undefinedAlu64 => f.alu64Legal m
  | .undefinedAlu32 => f.alu32Legal m
  | .illegalWidth => f.widthLegal
  | .undefinedCondition => f.conditionLegal m

section Illegal
variable {m : OpMaps} {f : Fields}

theorem classLegal_eq_false : f.classLegal = false ↔ f.cls ≠ 4 ∧ f.cls ≠ 5 ∧ f.cls ≠ 7 := by
  simp [Fields.classLegal, and_assoc]

theorem alu64Legal_eq_false : f.alu64Legal m = false ↔ f.cls = 7 ∧ m.alu.find f.code = none := by
  simp [Fields.alu64Legal, aluFind_eq_none_iff_contains]

theorem alu32Legal_eq_false :
    f.alu32Legal m = false ↔ f.cls = 4 ∧ f.code ≠ 0xd ∧ m.alu.find f.code = none := by
  simp [Fields.alu32Legal, aluFind_eq_none_iff_contains, and_assoc]

theorem widthLegal_eq_false :
    f.widthLegal = false ↔ f.cls = 4 ∧ f.code = 0xd ∧ endianInstr f.mode f.imm f.dstReg = none := by
  simp [Fields.widthLegal, endianInstr_eq_none, and_assoc]

theorem conditionLegal_eq_false : f.conditionLegal m = false ↔ f.cls = 5 ∧ m.jmp.find f.code = none := by
  simp [Fields.conditionLegal, jmpFind_eq_none_iff_contains]

/-- A rejection is never wrong: each branch of the classifier that rejects has met the conditions of its kind. -/
theorem clearOf_of_classify_error {e : Reject} (h : classify m f = .error e) : f.clearOf m e = false := by
  revert h
  unfold classify
  repeat' split
  all_goals (intro h; cases h)
  · exact alu64Legal_eq_false.2 ⟨‹_›, ‹_›⟩
  · exact widthLegal_eq_false.2 ⟨‹_›, ‹_›, ‹_›⟩
  · exact alu32Legal_eq_false.2 ⟨‹_›, ‹_›, ‹_›⟩
  · exact conditionLegal_eq_false.2 ⟨‹_›, ‹_›⟩
  · exact classLegal_eq_false.2 ⟨‹_›, ‹_›, ‹_›⟩

/-- No illegal encoding is missed: the conditions of each kind lead to its branch of the classifier. -/
theorem classify_error_of_not_clearOf {e : Reject} (h : f.clearOf m e = false) : classify m f = .error e := by
  cases e with
  | malformedBuffer => cases h
  | illegalClass =>
    obtain ⟨h4, h5, h7⟩ := classLegal_eq_false.1 h
    rw [classify, if_neg h7, if_neg h4, if_neg h5]
  | undefinedAlu64 =>
    obtain ⟨hc, hf⟩ := alu64Legal_eq_false.1 h
    rw [classify, if_pos hc, hf]
  | undefinedAlu32 =>
    obtain ⟨hc, ho, hf⟩ := alu32Legal_eq_false.1 h
    rw [classify, hc, if_neg (by decide), if_pos rfl, if_neg ho, hf]
  | illegalWidth =>
    obtain ⟨hc, ho, hw⟩ := widthLegal_eq_false.1 h
    exact classify_end_none m hc ho hw
  | undefinedCondition =>
    obtain ⟨hc, hf⟩ := conditionLegal_eq_false.1 h
    rw [classify, hc, if_neg (by decide), if_neg (by decide), if_pos rfl, hf]

/-- Under any code maps a word is rejected as a kind of illegal encoding exactly where it is of that kind. -/
theorem classify_eq_error_iff {e : Reject} : classify m f = .error e ↔ f.clearOf m e = false :=
  ⟨clearOf_of_classify_error, classify_error_of_not_clearOf⟩

theorem legal_iff_clearOf : f.legal m = true ↔ ∀ e, f.clearOf m e = true := by
  simp only [Fields.legal, Bool.and_eq_true]
  constructor
  · rintro ⟨⟨⟨⟨hcls, h64⟩, h32⟩, hwidth⟩, hcond⟩ e
    cases e with
    | malformedBuffer => rfl
    | illegalClass => exact hcls
    | undefinedAlu64 => exact h64
    | undefinedAlu32 => exact h32
    | illegalWidth => exact hwidth
    | undefinedCondition => exact hcond
  · exact fun h => ⟨⟨⟨⟨h .illegalClass, h .undefinedAlu64⟩, h .undefinedAlu32⟩, h .illegalWidth⟩, h .undefinedCondition⟩

/-- Under any code maps the instructions are exactly the legal words (30_encoding R83). -/
theorem classify_ok_iff_legal : (∃ i, classify m f = .ok i) ↔ f.legal m = true := by
  rw [legal_iff_clearOf]
  constructor
  · rintro ⟨i, hi⟩ e
    rw [← Bool.not_eq_false, ← classify_eq_error_iff, hi]
    nofun
  · intro h
    cases hc : classify m f with
    | ok i => exact ⟨i, rfl⟩
    | error e => exact absurd (h e) (Bool.not_eq_true _ ▸ clearOf_of_classify_error hc)

end Illegal

/-- The classes that are no unit's (30_encoding R75). -/
theorem cls_illegal_iff {c : BitVec 3} : (c ≠ 4 ∧ c ≠ 5 ∧ c ≠ 7) ↔ c = 0 ∨ c = 1 ∨ c = 2 ∨ c = 3 ∨ c = 6 := by
  revert c; decide

theorem defaultAluFind_eq_none {c : BitVec 4} :
    defaultAluOpMap.find c = none ↔ c = 0xd ∨ c = 0xe ∨ c = 0xf := by
  revert c; decide

/-- In class 4 the code 0xd is the endian swap's, which leaves two undefined codes. -/
theorem ne_end_and_defaultAluFind_eq_none {c : BitVec 4} :
    (c ≠ 0xd ∧ defaultAluOpMap.find c = none) ↔ c = 0xe ∨ c = 0xf := by
  revert c; decide

theorem defaultJmpFind_eq_none {c : BitVec 4} :
    defaultJmpOpMap.find c = none ↔
      c = 6 ∨ c = 7 ∨ c = 8 ∨ c = 9 ∨ c = 0xc ∨ c = 0xd ∨ c = 0xe ∨ c = 0xf := by
  revert c; decide

/-- Settles O50: the kinds of `classify_eq_error_iff`, with the codes the default maps leave undefined. -/
theorem illegalEncodingsAreExactlyThese : Obligations.IllegalEncodingsAreExactlyThese := by
  intro f
  simp only [classify_eq_error_iff]
  refine ⟨?_, ?_, ?_, ?_, ?_, classify_ok_iff_legal⟩
  · exact classLegal_eq_false.trans cls_illegal_iff
  · exact alu64Legal_eq_false.trans (and_congr_right' defaultAluFind_eq_none)
  · exact alu32Legal_eq_false.trans (and_congr_right' ne_end_and_defaultAluFind_eq_none)
  · exact widthLegal_eq_false.trans (and_congr_right' (and_congr_right' endianInstr_eq_none))
  · exact conditionLegal_eq_false.trans (and_congr_right' defaultJmpFind_eq_none)

end Sys2Proof

/-! The claims about a unit, from what it runs: one rule per shared operation for completing, dividing by zero and shifting,
and one for the fault of an illegal encoding, so that an instruction's claim is its equation and its arithmetic (spec
41_alu64 R100, R114 to R116). -/
namespace Sys2Proof.Machine

/-! ### What a unit's next state gives -/

section Effect
variable {i : Instr} {s : State} {dst : Reg}

/-- A write to a register keeps everything else. -/
theorem regFrame_write (s : State) (dst : Reg) (v : Word) : RegFrame dst s ((s.setReg dst v).report .success) :=
  ⟨fun _ hr => getReg_setReg_ne s v hr, rfl, rfl, ⟨rfl, rfl, rfl⟩, .of_eq rfl rfl⟩

theorem completesWith_of_writeResult {v : Word} {n : Nat} (he : exec i s = writeResult dst v s) (hv : v.toNat = n) :
    CompletesWith i s dst n :=
  ⟨_, he, by rw [getReg_report, getReg_setReg_same, hv], rfl, rfl, regFrame_write s dst v⟩

theorem completesWith_of_draw {v : Word} {n : Nat} (he : exec i s = writeResult dst v s.countDraw) (hv : v.toNat = n) :
    CompletesWith i s dst n 1 :=
  ⟨_, he, by rw [getReg_report, getReg_setReg_same, hv], rfl, rfl, regFrame_write s.countDraw dst v⟩

theorem dividesByZero_of_raiseFault (he : exec i s = .next (s.raiseFault .divideByZero)) : DividesByZero i s :=
  ⟨_, he, rfl, rfl, rfl, rfl, rfl, rfl, fun _ => rfl, ⟨rfl, rfl, rfl⟩, .of_eq rfl rfl⟩

theorem dividesByZero_of_divide64 {f : Word → Word → Word} {d : Word} (he : exec i s = divide64 f dst d s)
    (hd : d.toNat = 0) : DividesByZero i s := by
  rw [(word_eq_zero_iff d).2 hd, divide64_zero] at he
  exact dividesByZero_of_raiseFault he

theorem completesWith_of_divide64 {f : Word → Word → Word} {d : Word} {n : Nat} (he : exec i s = divide64 f dst d s)
    (hd : d.toNat ≠ 0) (hv : (f (s.getReg dst) d).toNat = n) : CompletesWith i s dst n := by
  rw [divide64_ne (mt (word_eq_zero_iff d).1 hd)] at he
  exact completesWith_of_writeResult he hv

/-- The amount the claims call determined is the one the unit takes (41_alu64 R115). -/
theorem shamt64_of_shiftsBy64 {v : Word} {n : Nat} (h : ShiftsBy64 s v.toNat n) :
    shamt64 s.params.shiftAmountPolicy v = some n := by
  rcases h with ⟨hp, rfl⟩ | ⟨hp, hlt, rfl⟩
  · rw [hp, shamt64_mask]
  · rw [hp, shamt64_draw_lt hlt]

/-- A shift's claim, from the number the shifted value is. -/
theorem shifts64_of_shift64 {f : Word → Nat → Word} {rhs : Word} {r : Nat} {g : Nat → Nat}
    (he : exec i s = shift64 f dst rhs s) (hr : rhs.toNat = r) (hf : ∀ n, (f (s.getReg dst) n).toNat = g n) :
    Shifts64 i s dst r g := by
  subst hr
  constructor
  · intro n hn
    rw [shift64_some (shamt64_of_shiftsBy64 hn)] at he
    exact completesWith_of_writeResult he (hf n)
  · intro hp hge
    rw [shift64_none (by rw [hp, shamt64_draw_ge hge])] at he
    exact completesWith_of_draw he rfl

/-- A step that takes the fault of a unit and then advances (45_execution_engine R216, 60_exceptions R243). -/
theorem unitIllegal_of_step (h : step s = .next (endCheck (advance (s.raiseFault .illegalInstruction)))) :
    UnitIllegal s := by
  obtain ⟨hip, hhalt, hill, hdiv, hcycle, hmode, hparams, hdraws, hres, hregs, hmem⟩ :=
    advanced_endCheck (s.raiseFault .illegalInstruction)
  exact ⟨_, h, hres, hill, hhalt, hdiv, hregs, hmem, hmode, hparams, hdraws, hcycle, hip⟩

/-- A fetched word that is an illegal encoding has the effect of its kind (30_encoding R83, 60_exceptions R241). -/
theorem step_of_fetches_error {f : Fields} {e : Reject} (hf : Fetches s f) (he : classify s.params.opMaps f = .error e) :
    step s = .next (rejectStep s e) := by
  obtain ⟨hr, hk, rfl⟩ := hf
  exact step_of_reject hr ((fetchDecode_eq_classify hk).trans he)

end Effect

/-- An ALU64 operation's encoding clause, from its two forms (30_encoding R82). -/
theorem encodesAlu64 (o : AluOp) {k x : Fields → Instr}
    (hk : ∀ f, alu64Instr o false f.dstReg f.srcReg f.imm = k f)
    (hx : ∀ f, alu64Instr o true f.dstReg f.srcReg f.imm = x f) : EncodesAlu 7 o k x := by
  intro m f hm hc ho
  rw [classify_alu64 hm hc ho]
  cases f.mode
  · rw [hk]; rfl
  · rw [hx]; rfl

/-! ### Differences, negation and the arithmetic shift as numbers -/

theorem word_sub_toNat (a b : Word) : (a - b).toNat = (a.toNat + 2 ^ 64 - b.toNat) % 2 ^ 64 := by
  rw [BitVec.toNat_sub]
  have := b.isLt
  omega

theorem negate64_toNat (m : NegMode) (v : Word) : (negate64 m v).toNat = negated m 64 v.toNat := by
  cases m with
  | complement => exact BitVec.toNat_not
  | twosComplement => simp [negate64, negated, BitVec.toNat_neg]

/-- The top bit of a number of k + 1 bits says whether it has reached 2^k. -/
theorem and_two_pow_of_lt {v k : Nat} (h : v < 2 ^ (k + 1)) : v &&& 2 ^ k = if 2 ^ k ≤ v then 2 ^ k else 0 := by
  rw [Nat.and_two_pow]
  split
  · rw [Nat.testBit_of_two_pow_le_and_two_pow_add_one_gt ‹_› h, Bool.toNat_true, Nat.one_mul]
  · rw [Nat.testBit_lt_two_pow (Nat.lt_of_not_le ‹_›), Bool.toNat_false, Nat.zero_mul]

/-- SIGN_BIT_ONLY at any width: the mask is the sign bit (41_alu64 R113, 42_alu32 R153). -/
theorem arithShift_signBitOnly {k : Nat} (v mask : BitVec (k + 1)) (n : Nat) (hmask : mask.toNat = 2 ^ k) :
    (v >>> n ||| v &&& mask).toNat = arithShift .signBitOnly (k + 1) v.toNat n := by
  rw [BitVec.toNat_or, BitVec.toNat_and, BitVec.toNat_ushiftRight, hmask, and_two_pow_of_lt v.isLt,
    Nat.shiftRight_eq_div_pow]
  rfl

/-- SIGN_EXTEND at any width is the sign-filled shift (41_alu64 R113, 42_alu32 R153). -/
theorem arithShift_signExtend {w : Nat} (v : BitVec w) (n : Nat) :
    (v.sshiftRight n).toNat = arithShift .signExtend w v.toNat n := by
  simp only [BitVec.toNat_sshiftRight, BitVec.msb_eq_decide, decide_eq_true_eq, Nat.shiftRight_eq_div_pow, arithShift]

theorem arith64_toNat (m : ArshMode) (v : Word) (n : Nat) : (arith64 m v n).toNat = arithShift m 64 v.toNat n := by
  cases m with
  | signBitOnly => exact arithShift_signBitOnly v _ n rfl
  | signExtend => exact arithShift_signExtend v n

/-! ### The 64-bit ALU -/

/-- Settles O4: each form is `divide64` by its right-hand value. -/
theorem div64WritesTheQuotientOrFaults : Obligations.Div64WritesTheQuotientOrFaults := by
  refine ⟨encodesAlu64 .div (fun _ => rfl) (fun _ => rfl), fun s dst src imm => ?_⟩
  have hK : exec (.divK dst imm) s = divide64 (· / ·) dst (rhsImm imm) s := rfl
  have hX : exec (.divX dst src) s = divide64 (· / ·) dst (s.getReg src) s := rfl
  rw [← rhsImm_toNat imm]
  exact ⟨dividesByZero_of_divide64 hK, dividesByZero_of_divide64 hX,
    fun h => completesWith_of_divide64 hK h BitVec.toNat_udiv, fun h => completesWith_of_divide64 hX h BitVec.toNat_udiv⟩

/-- Settles O8: each form is `divide64` by its right-hand value. -/
theorem mod64WritesTheRemainderOrFaults : Obligations.Mod64WritesTheRemainderOrFaults := by
  refine ⟨encodesAlu64 .mod (fun _ => rfl) (fun _ => rfl), fun s dst src imm => ?_⟩
  have hK : exec (.modK dst imm) s = divide64 (· % ·) dst (rhsImm imm) s := rfl
  have hX : exec (.modX dst src) s = divide64 (· % ·) dst (s.getReg src) s := rfl
  rw [← rhsImm_toNat imm]
  exact ⟨dividesByZero_of_divide64 hK, dividesByZero_of_divide64 hX,
    fun h => completesWith_of_divide64 hK h BitVec.toNat_umod, fun h => completesWith_of_divide64 hX h BitVec.toNat_umod⟩

/-- Settles O6: a left shift multiplies by 2^n and a right shift divides, by whatever amount `shift64` takes. -/
theorem shift64MovesBitsUnderBothPolicies : Obligations.Shift64MovesBitsUnderBothPolicies := by
  refine ⟨encodesAlu64 .lsh (fun _ => rfl) (fun _ => rfl), encodesAlu64 .rsh (fun _ => rfl) (fun _ => rfl),
    fun s dst src imm => ?_⟩
  have left (n : Nat) : (s.getReg dst <<< n).toNat = (s.getReg dst).toNat * 2 ^ n % 2 ^ 64 := by
    rw [BitVec.toNat_shiftLeft, Nat.shiftLeft_eq]
  have right (n : Nat) : (s.getReg dst >>> n).toNat = (s.getReg dst).toNat / 2 ^ n := by
    rw [BitVec.toNat_ushiftRight, Nat.shiftRight_eq_div_pow]
  exact ⟨shifts64_of_shift64 rfl (rhsImm_toNat imm) left, shifts64_of_shift64 rfl rfl left,
    shifts64_of_shift64 rfl (rhsImm_toNat imm) right, shifts64_of_shift64 rfl rfl right⟩

/-- Settles O7: both forms write `negate64`. -/
theorem neg64NegatesUnderBothModes : Obligations.Neg64NegatesUnderBothModes :=
  ⟨encodesAlu64 .neg (fun _ => rfl) (fun _ => rfl), fun _ _ =>
    ⟨completesWith_of_writeResult rfl (negate64_toNat _ _), completesWith_of_writeResult rfl (negate64_toNat _ _)⟩⟩

/-- Settles O10: both forms are `shift64` with `arith64`. -/
theorem arsh64KeepsTheSignUnderBothModes : Obligations.Arsh64KeepsTheSignUnderBothModes :=
  ⟨encodesAlu64 .arsh (fun _ => rfl) (fun _ => rfl), fun _ _ _ imm =>
    ⟨shifts64_of_shift64 rfl (rhsImm_toNat imm) (arith64_toNat _ _), shifts64_of_shift64 rfl rfl (arith64_toNat _ _)⟩⟩

/-- Settles O35: the word is rejected as an undefined ALU64 operation, and the policy says what the unit makes of it. -/
theorem undefinedAlu64FaultsOrAborts : Obligations.UndefinedAlu64FaultsOrAborts := by
  intro s f hf hc hcode
  have hstep := step_of_fetches_error hf
    (classify_error_of_not_clearOf (e := .undefinedAlu64) (alu64Legal_eq_false.2 ⟨hc, aluFind_eq_none.2 hcode⟩))
  change step s = .next (finishUnit (undefinedAlu64 s)) at hstep
  rcases undefinedAlu64_cases s with ⟨hp, hu⟩ | ⟨hp, hu⟩
  · rw [hu, finishUnit_of_ne (by simp)] at hstep
    exact ⟨fun _ => unitIllegal_of_step hstep, by simp [hp]⟩
  · rw [hu, finishUnit_of_aborted rfl] at hstep
    exact ⟨by simp [hp], fun _ => ⟨_, hstep, rfl, rfl, rfl, rfl, rfl, rfl, fun _ => rfl, ⟨rfl, rfl, rfl⟩, .of_eq rfl rfl,
      step_of_aborted rfl⟩⟩

/-- Settles O1: both forms write the machine's sum. -/
theorem add64WritesTheSum : Obligations.Add64WritesTheSum := by
  refine ⟨encodesAlu64 .add (fun _ => rfl) (fun _ => rfl), fun s dst src imm => ⟨?_, ?_⟩⟩
  · exact completesWith_of_writeResult rfl (by rw [BitVec.toNat_add, rhsImm_toNat])
  · exact completesWith_of_writeResult rfl (BitVec.toNat_add _ _)

/-- Settles O2: both forms write the machine's difference. -/
theorem sub64WritesTheDifference : Obligations.Sub64WritesTheDifference := by
  refine ⟨encodesAlu64 .sub (fun _ => rfl) (fun _ => rfl), fun s dst src imm => ⟨?_, ?_⟩⟩
  · exact completesWith_of_writeResult rfl (by rw [word_sub_toNat, rhsImm_toNat])
  · exact completesWith_of_writeResult rfl (word_sub_toNat _ _)

/-- Settles O3: both forms write the machine's product. -/
theorem mul64WritesTheLowProduct : Obligations.Mul64WritesTheLowProduct := by
  refine ⟨encodesAlu64 .mul (fun _ => rfl) (fun _ => rfl), fun s dst src imm => ⟨?_, ?_⟩⟩
  · exact completesWith_of_writeResult rfl (by rw [BitVec.toNat_mul, rhsImm_toNat])
  · exact completesWith_of_writeResult rfl (BitVec.toNat_mul _ _)

/-- Settles O5: the machine's bitwise operations on words are those on their numbers. -/
theorem bitwise64WritesBitByBit : Obligations.Bitwise64WritesBitByBit := by
  refine ⟨encodesAlu64 .or (fun _ => rfl) (fun _ => rfl), encodesAlu64 .and (fun _ => rfl) (fun _ => rfl),
    encodesAlu64 .xor (fun _ => rfl) (fun _ => rfl), fun s dst src imm => ⟨?_, ?_, ?_, ?_, ?_, ?_⟩⟩
  · exact completesWith_of_writeResult rfl (by rw [BitVec.toNat_or, rhsImm_toNat])
  · exact completesWith_of_writeResult rfl (BitVec.toNat_or ..)
  · exact completesWith_of_writeResult rfl (by rw [BitVec.toNat_and, rhsImm_toNat])
  · exact completesWith_of_writeResult rfl (BitVec.toNat_and ..)
  · exact completesWith_of_writeResult rfl (by rw [BitVec.toNat_xor, rhsImm_toNat])
  · exact completesWith_of_writeResult rfl (BitVec.toNat_xor ..)

/-- Settles O9: both forms write the right-hand value itself. -/
theorem mov64AssignsTheOperand : Obligations.Mov64AssignsTheOperand :=
  ⟨encodesAlu64 .mov (fun _ => rfl) (fun _ => rfl), fun _ _ _ imm =>
    ⟨completesWith_of_writeResult rfl (rhsImm_toNat imm), completesWith_of_writeResult rfl rfl⟩⟩

end Sys2Proof.Machine

/-! The 32-bit ALU's claims (spec 42_alu32), from the same rules: a 32-bit operation works on the low halves of its operands
and writes its result zero-extended (R140), so a claim is about the numbers of two halves. -/
namespace Sys2Proof.Machine

/-! ### What the shared 32-bit operations give -/

/-- The low half of the K form's right-hand value is the immediate (42_alu32 R140). -/
theorem low32_rhsImm_toNat (imm : BitVec 32) : (low32 (rhsImm imm)).toNat = imm.toNat := by
  rw [low32_rhsImm]

section Effect32
variable {i : Instr} {s : State} {dst : Reg} {rhs : Word}

theorem completesWith_of_writeResult32 {r : Half} {n : Nat} (he : exec i s = writeResult32 dst r s) (hv : r.toNat = n) :
    CompletesWith i s dst n :=
  completesWith_of_writeResult he ((widen_toNat r).trans hv)

theorem completesWith_of_apply32 {f : Half → Half → Half} {n : Nat} (he : exec i s = apply32 f dst rhs s)
    (hv : (f (low32 (s.getReg dst)) (low32 rhs)).toNat = n) : CompletesWith i s dst n :=
  completesWith_of_writeResult32 he hv

/-- The divisor tested is the truncated one (42_alu32 R144, 92 D10). -/
theorem dividesByZero_of_divide32 {f : Half → Half → Half} (he : exec i s = divide32 f dst rhs s)
    (hd : (low32 rhs).toNat = 0) : DividesByZero i s := by
  rw [divide32_zero ((half_eq_zero_iff _).2 hd)] at he
  exact dividesByZero_of_raiseFault he

theorem completesWith_of_divide32 {f : Half → Half → Half} {n : Nat} (he : exec i s = divide32 f dst rhs s)
    (hd : (low32 rhs).toNat ≠ 0) (hv : (f (low32 (s.getReg dst)) (low32 rhs)).toNat = n) : CompletesWith i s dst n := by
  rw [divide32_ne (mt (half_eq_zero_iff _).1 hd)] at he
  exact completesWith_of_writeResult32 he hv

/-- The amount the claims call determined is the one the unit takes (42_alu32 R155). -/
theorem shamt32_of_shiftsBy32 {v : Half} {n : Nat} (h : ShiftsBy32 s v.toNat n) :
    shamt32 s.params.shiftAmountPolicy v = some n := by
  rcases h with ⟨hp, rfl⟩ | ⟨hp, hlt, rfl⟩
  · rw [hp, shamt32_mask]
  · rw [hp, shamt32_draw_lt hlt]

/-- A 32-bit shift's claim, from the number the shifted half is; a drawn half is zero-extended too (42_alu32 R155). -/
theorem shifts32_of_shift32 {f : Half → Nat → Half} {r : Nat} {g : Nat → Nat} (he : exec i s = shift32 f dst rhs s)
    (hr : (low32 rhs).toNat = r) (hf : ∀ n, (f (low32 (s.getReg dst)) n).toNat = g n) : Shifts32 i s dst r g := by
  subst hr
  constructor
  · intro n hn
    rw [shift32_some (shamt32_of_shiftsBy32 hn)] at he
    exact completesWith_of_writeResult32 he (hf n)
  · intro hp hge
    rw [shift32_none (by rw [hp, shamt32_draw_ge hge])] at he
    exact completesWith_of_draw he (widen_toNat _)

/-- A fetched word whose kind of illegal encoding has a unit take the fault (60_exceptions R241). -/
theorem unitIllegal_of_fetches_error {f : Fields} {e : Reject} (hf : Fetches s f)
    (he : classify s.params.opMaps f = .error e)
    (hu : rejectStep s e = finishUnit (s.raiseFault .illegalInstruction)) : UnitIllegal s := by
  have hstep := step_of_fetches_error hf he
  rw [hu, finishUnit_of_ne (by simp)] at hstep
  exact unitIllegal_of_step hstep

end Effect32

/-- An ALU32 operation's encoding clause, from its two forms (30_encoding R82). -/
theorem encodesAlu32 (o : AluOp) {k x : Fields → Instr}
    (hk : ∀ f, alu32Instr o false f.dstReg f.srcReg f.imm = k f)
    (hx : ∀ f, alu32Instr o true f.dstReg f.srcReg f.imm = x f) : EncodesAlu 4 o k x := by
  intro m f hm hc ho
  rw [classify_alu32 hm hc ho]
  cases f.mode
  · rw [hk]; rfl
  · rw [hx]; rfl

/-! ### Differences, negation and the arithmetic shift of halves as numbers -/

theorem half_sub_toNat (a b : Half) : (a - b).toNat = (a.toNat + 2 ^ 32 - b.toNat) % 2 ^ 32 := by
  rw [BitVec.toNat_sub', ← Nat.add_sub_assoc b.isLt.le]

theorem negate32_toNat (m : NegMode) (v : Half) : (negate32 m v).toNat = negated m 32 v.toNat := by
  cases m with
  | complement => exact BitVec.toNat_not
  | twosComplement => simp [negate32, negated, BitVec.toNat_neg]

theorem arith32_toNat (m : ArshMode) (v : Half) (n : Nat) : (arith32 m v n).toNat = arithShift m 32 v.toNat n := by
  cases m with
  | signBitOnly => exact arithShift_signBitOnly v _ n rfl
  | signExtend => exact arithShift_signExtend v n

/-! ### The 32-bit ALU -/

/-- Settles O14: each form is `divide32` by its right-hand value, whose low half is the divisor. -/
theorem div32WritesTheQuotientOrFaults : Obligations.Div32WritesTheQuotientOrFaults := by
  refine ⟨encodesAlu32 .div (fun _ => rfl) (fun _ => rfl), fun s dst src imm => ?_⟩
  have hK : exec (.div32K dst imm) s = divide32 (· / ·) dst (rhsImm imm) s := rfl
  have hX : exec (.div32X dst src) s = divide32 (· / ·) dst (s.getReg src) s := rfl
  rw [← low32_rhsImm_toNat imm, ← low32_toNat (s.getReg dst), ← low32_toNat (s.getReg src)]
  exact ⟨dividesByZero_of_divide32 hK, dividesByZero_of_divide32 hX,
    fun h => completesWith_of_divide32 hK h BitVec.toNat_udiv, fun h => completesWith_of_divide32 hX h BitVec.toNat_udiv⟩

/-- Settles O18: each form is `divide32` by its right-hand value, whose low half is the divisor. -/
theorem mod32WritesTheRemainderOrFaults : Obligations.Mod32WritesTheRemainderOrFaults := by
  refine ⟨encodesAlu32 .mod (fun _ => rfl) (fun _ => rfl), fun s dst src imm => ?_⟩
  have hK : exec (.mod32K dst imm) s = divide32 (· % ·) dst (rhsImm imm) s := rfl
  have hX : exec (.mod32X dst src) s = divide32 (· % ·) dst (s.getReg src) s := rfl
  rw [← low32_rhsImm_toNat imm, ← low32_toNat (s.getReg dst), ← low32_toNat (s.getReg src)]
  exact ⟨dividesByZero_of_divide32 hK, dividesByZero_of_divide32 hX,
    fun h => completesWith_of_divide32 hK h BitVec.toNat_umod, fun h => completesWith_of_divide32 hX h BitVec.toNat_umod⟩

/-- Settles O16: a left shift multiplies the low half by 2^n and a right shift divides it, by whatever amount `shift32`
takes. -/
theorem shift32MovesBitsUnderBothPolicies : Obligations.Shift32MovesBitsUnderBothPolicies := by
  refine ⟨encodesAlu32 .lsh (fun _ => rfl) (fun _ => rfl), encodesAlu32 .rsh (fun _ => rfl) (fun _ => rfl),
    fun s dst src imm => ?_⟩
  have left (n : Nat) : (low32 (s.getReg dst) <<< n).toNat = (s.getReg dst).toNat % 2 ^ 32 * 2 ^ n % 2 ^ 32 := by
    rw [BitVec.toNat_shiftLeft, low32_toNat, Nat.shiftLeft_eq]
  have right (n : Nat) : (low32 (s.getReg dst) >>> n).toNat = (s.getReg dst).toNat % 2 ^ 32 / 2 ^ n := by
    rw [BitVec.toNat_ushiftRight, low32_toNat, Nat.shiftRight_eq_div_pow]
  exact ⟨shifts32_of_shift32 rfl (low32_rhsImm_toNat imm) left, shifts32_of_shift32 rfl (low32_toNat _) left,
    shifts32_of_shift32 rfl (low32_rhsImm_toNat imm) right, shifts32_of_shift32 rfl (low32_toNat _) right⟩

/-- Settles O17: both forms write `negate32` of the low half. -/
theorem neg32NegatesUnderBothModes : Obligations.Neg32NegatesUnderBothModes := by
  refine ⟨encodesAlu32 .neg (fun _ => rfl) (fun _ => rfl), fun s dst => ?_⟩
  rw [← low32_toNat]
  exact ⟨completesWith_of_writeResult32 rfl (negate32_toNat _ _),
    completesWith_of_writeResult32 rfl (negate32_toNat _ _)⟩

/-- Settles O20: both forms are `shift32` with `arith32`. -/
theorem arsh32KeepsTheSignUnderBothModes : Obligations.Arsh32KeepsTheSignUnderBothModes := by
  refine ⟨encodesAlu32 .arsh (fun _ => rfl) (fun _ => rfl), fun s dst src imm => ?_⟩
  rw [← low32_toNat (s.getReg dst), ← low32_toNat (s.getReg src)]
  exact ⟨shifts32_of_shift32 rfl (low32_rhsImm_toNat imm) (arith32_toNat _ _),
    shifts32_of_shift32 rfl rfl (arith32_toNat _ _)⟩

/-- Settles O36: the word is rejected as an undefined ALU32 operation, for which the unit takes the fault. -/
theorem undefinedAlu32Faults : Obligations.UndefinedAlu32Faults := by
  intro s f hf hc hend hcode
  have hrej : classify s.params.opMaps f = .error .undefinedAlu32 :=
    classify_error_of_not_clearOf (alu32Legal_eq_false.2 ⟨hc, hend, aluFind_eq_none.2 hcode⟩)
  exact unitIllegal_of_fetches_error hf hrej rfl

/-- Settles O11: both forms write the machine's sum of the low halves. -/
theorem add32WritesTheSum : Obligations.Add32WritesTheSum := by
  refine ⟨encodesAlu32 .add (fun _ => rfl) (fun _ => rfl), fun s dst src imm => ?_⟩
  rw [← low32_rhsImm_toNat imm, ← low32_toNat (s.getReg dst), ← low32_toNat (s.getReg src)]
  exact ⟨completesWith_of_apply32 rfl (BitVec.toNat_add _ _), completesWith_of_apply32 rfl (BitVec.toNat_add _ _)⟩

/-- Settles O12: both forms write the machine's difference of the low halves. -/
theorem sub32WritesTheDifference : Obligations.Sub32WritesTheDifference := by
  refine ⟨encodesAlu32 .sub (fun _ => rfl) (fun _ => rfl), fun s dst src imm => ?_⟩
  rw [← low32_rhsImm_toNat imm, ← low32_toNat (s.getReg dst), ← low32_toNat (s.getReg src)]
  exact ⟨completesWith_of_apply32 rfl (half_sub_toNat _ _), completesWith_of_apply32 rfl (half_sub_toNat _ _)⟩

/-- Settles O13: both forms write the machine's product of the low halves. -/
theorem mul32WritesTheLowProduct : Obligations.Mul32WritesTheLowProduct := by
  refine ⟨encodesAlu32 .mul (fun _ => rfl) (fun _ => rfl), fun s dst src imm => ?_⟩
  rw [← low32_rhsImm_toNat imm, ← low32_toNat (s.getReg dst), ← low32_toNat (s.getReg src)]
  exact ⟨completesWith_of_apply32 rfl (BitVec.toNat_mul _ _), completesWith_of_apply32 rfl (BitVec.toNat_mul _ _)⟩

/-- Settles O15: the machine's bitwise operations on halves are those on their numbers. -/
theorem bitwise32WritesBitByBit : Obligations.Bitwise32WritesBitByBit := by
  refine ⟨encodesAlu32 .or (fun _ => rfl) (fun _ => rfl), encodesAlu32 .and (fun _ => rfl) (fun _ => rfl),
    encodesAlu32 .xor (fun _ => rfl) (fun _ => rfl), fun s dst src imm => ?_⟩
  rw [← low32_rhsImm_toNat imm, ← low32_toNat (s.getReg dst), ← low32_toNat (s.getReg src)]
  exact ⟨completesWith_of_apply32 rfl (BitVec.toNat_or ..), completesWith_of_apply32 rfl (BitVec.toNat_or ..),
    completesWith_of_apply32 rfl (BitVec.toNat_and ..), completesWith_of_apply32 rfl (BitVec.toNat_and ..),
    completesWith_of_apply32 rfl (BitVec.toNat_xor ..), completesWith_of_apply32 rfl (BitVec.toNat_xor ..)⟩

/-- Settles O19: both forms write the low half of the right-hand value. -/
theorem mov32AssignsTheLowHalf : Obligations.Mov32AssignsTheLowHalf :=
  ⟨encodesAlu32 .mov (fun _ => rfl) (fun _ => rfl), fun _ _ _ imm =>
    ⟨completesWith_of_writeResult32 rfl (low32_rhsImm_toNat imm), completesWith_of_writeResult32 rfl (low32_toNat _)⟩⟩

end Sys2Proof.Machine

/-! The endian-swap unit's claims (spec 43_endian_swap): a swap's bytes are read off the appended bytes it is made of,
one rule for `writeConverted` gives the claim of each of the six instructions, and the involution follows from those
claims. -/
namespace Sys2Proof

/-- The other host byte order. -/
def HostOrder.other : HostOrder → HostOrder
  | .little => .big
  | .big => .little

theorem HostOrder.eq_or_eq_other (native h : HostOrder) : h = native ∨ h = native.other := by
  cases native <;> cases h <;> decide

end Sys2Proof

namespace Sys2Proof.Machine

/-! ### The bytes of a number -/

/-- Numbers with the same n low bytes agree modulo 256^n. -/
theorem mod_eq_of_natByte_eq {a b n : Nat} (h : ∀ k < n, natByte a k = natByte b k) : a % 256 ^ n = b % 256 ^ n := by
  induction n with
  | zero => simp [Nat.mod_one]
  | succ n ih =>
    have htop : a / 256 ^ n % 256 = b / 256 ^ n % 256 := h n n.lt_succ_self
    rw [Nat.mod_pow_succ, Nat.mod_pow_succ, ih fun k hk => h k (Nat.lt_succ_of_lt hk), htop]

theorem byteAt_toNat_eq_natByte (v : Word) (k : Nat) : (byteAt v k).toNat = natByte v.toNat k := by
  rw [byteAt_toNat, Nat.pow_mul]
  rfl

theorem natByte_natByte_zero (v k : Nat) : natByte (natByte v k) 0 = natByte v k := by
  simp only [natByte]
  omega

theorem natByte_append_zero {n : Nat} (a : BitVec n) (b : Byte) : natByte (a ++ b).toNat 0 = b.toNat := by
  have := b.isLt
  simp only [natByte, append_byte_toNat]
  omega

theorem natByte_append_succ {n : Nat} (a : BitVec n) (b : Byte) (k : Nat) :
    natByte (a ++ b).toNat (k + 1) = natByte a.toNat k := by
  have hdiv : (a ++ b).toNat / 256 = a.toNat := by
    have := b.isLt
    rw [append_byte_toNat]
    omega
  rw [natByte, Nat.pow_succ', ← Nat.div_div_eq_div_mul, hdiv, natByte]

section Swap
variable {k : Nat} (v : Word)

theorem natByte_bswap16 (h : k < 2) : natByte (bswap16 v).toNat k = natByte v.toNat (1 - k) := by
  interval_cases k <;>
    simp only [bswap16, natByte_append_zero, natByte_append_succ, byteAt_toNat_eq_natByte, natByte_natByte_zero]

theorem natByte_bswap32 (h : k < 4) : natByte (bswap32 v).toNat k = natByte v.toNat (3 - k) := by
  interval_cases k <;>
    simp only [bswap32, natByte_append_zero, natByte_append_succ, byteAt_toNat_eq_natByte, natByte_natByte_zero]

theorem natByte_bswap64 (h : k < 8) : natByte (bswap64 v).toNat k = natByte v.toNat (7 - k) := by
  interval_cases k <;>
    simp only [bswap64, natByte_append_zero, natByte_append_succ, byteAt_toNat_eq_natByte, natByte_natByte_zero]

end Swap

/-! ### What a conversion gives -/

section Effect
variable {i : Instr} {s t u : State} {dst : Reg} {w : Nat}

/-- A converted value of at most 64 bits is written whole: zero-extending it keeps its number (43_endian_swap R185). -/
theorem completesWith_of_writeConverted {v : BitVec w} {n : Nat} (hw : w ≤ 64) (he : exec i s = writeConverted dst v s)
    (hv : v.toNat = n) : CompletesWith i s dst n :=
  completesWith_of_writeResult he ((BitVec.toNat_setWidth_of_le hw).trans hv)

/-- The value a completed instruction writes is the one its next state holds. -/
theorem CompletesWith.getReg_toNat {n drawn : Nat} (h : CompletesWith i s dst n drawn) (he : exec i s = .next t) :
    (t.getReg dst).toNat = n := by
  obtain ⟨t', ht, hv, -⟩ := h
  rw [he] at ht
  cases ht
  exact hv

theorem keepsLow_twice (hs : KeepsLow i s dst w) (ht : KeepsLow i t dst w) (hst : exec i s = .next t)
    (htu : exec i t = .next u) : (u.getReg dst).toNat = (s.getReg dst).toNat % 2 ^ w := by
  rw [ht.getReg_toNat htu, hs.getReg_toNat hst, Nat.mod_mod]

/-- Of n bytes, byte n - 1 - (n - 1 - k) is byte k, so that two reversals leave the n low bytes as they were. -/
theorem reversesLow_twice (h8 : 8 ∣ w) (hs : ReversesLow i s dst w) (ht : ReversesLow i t dst w)
    (hst : exec i s = .next t) (htu : exec i t = .next u) :
    (u.getReg dst).toNat = (s.getReg dst).toNat % 2 ^ w := by
  obtain ⟨v, hv, -, hvs⟩ := hs
  obtain ⟨v', hv', hlt, hvt⟩ := ht
  rw [hv.getReg_toNat hst] at hvt
  have hbytes : ∀ k < w / 8, natByte v' k = natByte (s.getReg dst).toNat k := by
    intro k hk
    rw [hvt k hk, hvs _ (by omega)]
    congr 1
    omega
  have hpow : 256 ^ (w / 8) = 2 ^ w := by
    rw [show 256 = 2 ^ 8 from rfl, ← Nat.pow_mul, Nat.mul_div_cancel' h8]
  calc (u.getReg dst).toNat
    _ = v' % 2 ^ w := by rw [hv'.getReg_toNat htu, Nat.mod_eq_of_lt hlt]
    _ = (s.getReg dst).toNat % 2 ^ w := by rw [← hpow, mod_eq_of_natByte_eq hbytes]

end Effect

/-- The instructions `i` convert the low w bits to the byte order `native`: they keep them on a host of that order and
reverse their bytes on one of the other (43_endian_swap R181, R182, R184). -/
def ConvertsLow (native : HostOrder) (i : Reg → Instr) (w : Nat) : Prop :=
  ∀ (s : State) (dst : Reg),
    (s.params.hostOrder = native → KeepsLow (i dst) s dst w) ∧
    (s.params.hostOrder = native.other → ReversesLow (i dst) s dst w)

section ConvertsLow
variable {native : HostOrder} {i : Reg → Instr} {w : Nat}

/-- A conversion to `native`, from what the unit runs: `conv` takes the plain value on a host of that order and the
swapped one on the other, and `swap` reverses the bytes (43_endian_swap R184, R185). -/
theorem convertsLow_of_writeConverted {conv : HostOrder → BitVec w → BitVec w → BitVec w} {swap : Word → BitVec w}
    (hw : w ≤ 64)
    (he : ∀ s dst, exec (i dst) s =
      writeConverted dst (conv s.params.hostOrder ((s.getReg dst).setWidth w) (swap (s.getReg dst))) s)
    (hplain : ∀ plain swapped, conv native plain swapped = plain)
    (hswapped : ∀ plain swapped, conv native.other plain swapped = swapped)
    (hswap : ∀ v k, k < w / 8 → natByte (swap v).toNat k = natByte v.toNat (w / 8 - 1 - k)) :
    ConvertsLow native i w := by
  intro s dst
  have he := he s dst
  refine ⟨fun ho => ?_, fun ho => ?_⟩
  · rw [ho, hplain] at he
    exact completesWith_of_writeConverted hw he (BitVec.toNat_setWidth ..)
  · rw [ho, hswapped] at he
    exact ⟨_, completesWith_of_writeConverted hw he rfl, (swap _).isLt, hswap _⟩

/-- Converting twice keeps the low w bits and clears the others, on either host: HOST_ORDER is as before after the first
conversion, so that both keep the bytes or both reverse them. -/
theorem ConvertsLow.twice (h : ConvertsLow native i w) (h8 : 8 ∣ w) {s t u : State} {dst : Reg}
    (hst : exec (i dst) s = .next t) (htu : exec (i dst) t = .next u) :
    (u.getReg dst).toNat = (s.getReg dst).toNat % 2 ^ w := by
  obtain ⟨-, -, -, -, hparams⟩ := (unitStep_of_exec hst).keeps
  obtain ⟨keepS, reverseS⟩ := h s dst
  obtain ⟨keepT, reverseT⟩ := h t dst
  rw [hparams] at keepT reverseT
  rcases native.eq_or_eq_other s.params.hostOrder with ho | ho
  · exact keepsLow_twice (keepS ho) (keepT ho) hst htu
  · exact reversesLow_twice h8 (reverseS ho) (reverseT ho) hst htu

/-- At the full width nothing is cleared. -/
theorem ConvertsLow.twice_word (h : ConvertsLow native i 64) {s t u : State} {dst : Reg}
    (hst : exec (i dst) s = .next t) (htu : exec (i dst) t = .next u) : u.getReg dst = s.getReg dst :=
  BitVec.eq_of_toNat_eq ((h.twice (by decide) hst htu).trans (Nat.mod_eq_of_lt (s.getReg dst).isLt))

end ConvertsLow

theorem le16_convertsLow : ConvertsLow .little .le16 16 :=
  convertsLow_of_writeConverted (conv := toLittle) (by decide) (fun _ _ => rfl) (fun _ _ => rfl) (fun _ _ => rfl)
    fun v _ => natByte_bswap16 v

theorem le32_convertsLow : ConvertsLow .little .le32 32 :=
  convertsLow_of_writeConverted (conv := toLittle) (by decide) (fun _ _ => rfl) (fun _ _ => rfl) (fun _ _ => rfl)
    fun v _ => natByte_bswap32 v

theorem le64_convertsLow : ConvertsLow .little .le64 64 :=
  convertsLow_of_writeConverted (conv := toLittle) (by decide) (fun _ _ => rfl) (fun _ _ => rfl) (fun _ _ => rfl)
    fun v _ => natByte_bswap64 v

theorem be16_convertsLow : ConvertsLow .big .be16 16 :=
  convertsLow_of_writeConverted (conv := toBig) (by decide) (fun _ _ => rfl) (fun _ _ => rfl) (fun _ _ => rfl)
    fun v _ => natByte_bswap16 v

theorem be32_convertsLow : ConvertsLow .big .be32 32 :=
  convertsLow_of_writeConverted (conv := toBig) (by decide) (fun _ _ => rfl) (fun _ _ => rfl) (fun _ _ => rfl)
    fun v _ => natByte_bswap32 v

theorem be64_convertsLow : ConvertsLow .big .be64 64 :=
  convertsLow_of_writeConverted (conv := toBig) (by decide) (fun _ _ => rfl) (fun _ _ => rfl) (fun _ _ => rfl)
    fun v _ => natByte_bswap64 v

/-- An endian swap's encoding clause, from the instruction its mode and width select (43_endian_swap R180). -/
theorem encodesEnd {mode : Bool} {width : BitVec 32} {i : Reg → Instr}
    (hi : ∀ d, endianInstr mode width d = some (i d)) : EncodesEnd mode width i := by
  rintro m f hc ho rfl rfl
  exact classify_end_some m hc ho (hi f.dstReg)

/-! ### The endian-swap unit -/

/-- Settles O21: the three conversions to little-endian. -/
theorem toLittleEndianConvertsLowBits : Obligations.ToLittleEndianConvertsLowBits := by
  refine ⟨encodesEnd fun _ => rfl, encodesEnd fun _ => rfl, encodesEnd fun _ => rfl, fun s dst => ?_⟩
  obtain ⟨keep16, reverse16⟩ := le16_convertsLow s dst
  obtain ⟨keep32, reverse32⟩ := le32_convertsLow s dst
  obtain ⟨keep64, reverse64⟩ := le64_convertsLow s dst
  exact ⟨keep16, reverse16, keep32, reverse32, keep64, reverse64⟩

/-- Settles O22: the three conversions to big-endian. -/
theorem toBigEndianConvertsLowBits : Obligations.ToBigEndianConvertsLowBits := by
  refine ⟨encodesEnd fun _ => rfl, encodesEnd fun _ => rfl, encodesEnd fun _ => rfl, fun s dst => ?_⟩
  obtain ⟨keep16, reverse16⟩ := be16_convertsLow s dst
  obtain ⟨keep32, reverse32⟩ := be32_convertsLow s dst
  obtain ⟨keep64, reverse64⟩ := be64_convertsLow s dst
  exact ⟨keep16, reverse16, keep32, reverse32, keep64, reverse64⟩

/-- Settles O37: the width selects no instruction, so the word is rejected by its width and the unit takes the fault. -/
theorem illegalEndianWidthFaults : Obligations.IllegalEndianWidthFaults := by
  intro s f hf hc ho h16 h32 h64
  have hnone : endianInstr f.mode f.imm f.dstReg = none :=
    endianInstr_eq_none.2 ⟨ne_of_apply_ne _ h16, ne_of_apply_ne _ h32, ne_of_apply_ne _ h64⟩
  exact unitIllegal_of_fetches_error hf (classify_end_none _ hc ho hnone) rfl

/-- Settles O59, by `ConvertsLow.twice` at each width and order. -/
theorem swappingTwiceRestores : Obligations.SwappingTwiceRestores := fun _ _ _ _ =>
  ⟨be64_convertsLow.twice_word, be32_convertsLow.twice (by decide), be16_convertsLow.twice (by decide),
    le64_convertsLow.twice_word, le32_convertsLow.twice (by decide), le16_convertsLow.twice (by decide)⟩

end Sys2Proof.Machine

/-! The branch unit's claims (spec 44_branch): every branch is `branchIf` on a Boolean condition, so a branch's claim is
what its condition says of the numbers its operands are (R190, R191). -/
namespace Sys2Proof.Machine

/-! ### What a taken and an untaken branch give -/

/-- A byte offset is added with its sign, modulo the width of `ip` (44_branch R191, 92 D11). -/
theorem add_signExtend_toNat (v : Word) (off : BitVec 16) :
    ((v + off.signExtend 64).toNat : Int) = ((v.toNat : Int) + off.toInt) % 2 ^ 64 := by
  rw [BitVec.toNat_add, BitVec.signExtend, BitVec.toNat_ofInt]
  omega

section Effect
variable {i : Instr} {s : State} {off : BitVec 16}

/-- A unit that completes having written only `ip`. -/
theorem movesIpBy_of_succeed {target : Word} {disp : Int} (he : exec i s = succeed { s with ip := target })
    (hip : (target.toNat : Int) = ((s.ip.toNat : Int) + disp) % 2 ^ 64) : MovesIpBy i s disp :=
  ⟨_, he, hip, rfl, rfl, rfl, fun _ => rfl, ⟨rfl, rfl, rfl⟩, .of_eq rfl rfl⟩

theorem movesIpBy_of_branchIf_true (he : exec i s = branchIf true off s) : MovesIpBy i s off.toInt :=
  movesIpBy_of_succeed he (add_signExtend_toNat s.ip off)

theorem movesIpBy_zero_of_branchIf_false (he : exec i s = branchIf false off s) : MovesIpBy i s 0 :=
  movesIpBy_of_succeed he (by omega)

/-- A branch's claim, from what its condition says. -/
theorem branchesOn_of_branchIf {c : Bool} {p : Prop} (he : exec i s = branchIf c off s) (hc : c = true ↔ p) :
    BranchesOn i s off p := by
  constructor
  · intro hp
    rw [hc.2 hp] at he
    exact movesIpBy_of_branchIf_true he
  · intro hp
    rw [Bool.eq_false_of_not_eq_true (mt hc.1 hp)] at he
    exact movesIpBy_zero_of_branchIf_false he

end Effect

/-- A condition's encoding clause, from its two forms (30_encoding R82). -/
theorem encodesJmp (c : JmpCond) {k x : Fields → Instr}
    (hk : ∀ f, branchInstr c false f.dstReg f.srcReg f.imm f.off = k f)
    (hx : ∀ f, branchInstr c true f.dstReg f.srcReg f.imm f.off = x f) : EncodesJmp c k x := by
  intro m f hm hc ho
  rw [classify_jmp hm hc ho]
  cases f.mode
  · rw [hk]; rfl
  · rw [hx]; rfl

/-! ### What a condition on words says of their numbers -/

theorem word_beq_iff_toNat_eq (a b : Word) : (a == b) = true ↔ a.toNat = b.toNat :=
  beq_iff_eq.trans BitVec.toNat_inj.symm

theorem word_bne_iff_toNat_ne (a b : Word) : (a != b) = true ↔ a.toNat ≠ b.toNat :=
  bne_iff_ne.trans BitVec.toNat_ne_iff_ne.symm

/-- Two words have a nonzero conjunction exactly where they have a common bit (44_branch R198). -/
theorem word_and_bne_zero_iff_common_bit (a b : Word) :
    ((a &&& b) != 0) = true ↔ ∃ k, a.toNat.testBit k = true ∧ b.toNat.testBit k = true := by
  rw [bne_iff_ne, Ne, word_eq_zero_iff, BitVec.toNat_and]
  constructor
  · intro h
    obtain ⟨k, hk⟩ := Nat.exists_testBit_of_ne_zero h
    rw [Nat.testBit_and, Bool.and_eq_true] at hk
    exact ⟨k, hk⟩
  · rintro ⟨k, ha, hb⟩ h
    have hk : (a.toNat &&& b.toNat).testBit k = true := by rw [Nat.testBit_and, ha, hb, Bool.and_self]
    rw [h, Nat.zero_testBit] at hk
    cases hk

/-! ### The branch unit -/

/-- Settles O24: both forms of either condition compare the two words for equality. -/
theorem equalityBranchesCompareAllBits : Obligations.EqualityBranchesCompareAllBits := by
  refine ⟨encodesJmp .jeq (fun _ => rfl) (fun _ => rfl), encodesJmp .jne (fun _ => rfl) (fun _ => rfl),
    fun s dst src imm off => ?_⟩
  rw [← rhsImm_toNat imm]
  exact ⟨branchesOn_of_branchIf rfl (word_beq_iff_toNat_eq _ _), branchesOn_of_branchIf rfl (word_beq_iff_toNat_eq _ _),
    branchesOn_of_branchIf rfl (word_bne_iff_toNat_ne _ _), branchesOn_of_branchIf rfl (word_bne_iff_toNat_ne _ _)⟩

/-- Settles O25: both forms of either condition ask for the right-hand value to be below, or at most, the left one. -/
theorem greaterBranchesCompareUnsigned : Obligations.GreaterBranchesCompareUnsigned := by
  refine ⟨encodesJmp .jgt (fun _ => rfl) (fun _ => rfl), encodesJmp .jge (fun _ => rfl) (fun _ => rfl),
    fun s dst src imm off => ?_⟩
  rw [← rhsImm_toNat imm]
  exact ⟨branchesOn_of_branchIf rfl BitVec.ult_iff_toNat_lt, branchesOn_of_branchIf rfl BitVec.ult_iff_toNat_lt,
    branchesOn_of_branchIf rfl BitVec.ule_iff_toNat_le, branchesOn_of_branchIf rfl BitVec.ule_iff_toNat_le⟩

/-- Settles O26: both forms of either condition ask for the left-hand value to be below, or at most, the right one. -/
theorem lessBranchesCompareUnsigned : Obligations.LessBranchesCompareUnsigned := by
  refine ⟨encodesJmp .jlt (fun _ => rfl) (fun _ => rfl), encodesJmp .jle (fun _ => rfl) (fun _ => rfl),
    fun s dst src imm off => ?_⟩
  rw [← rhsImm_toNat imm]
  exact ⟨branchesOn_of_branchIf rfl BitVec.ult_iff_toNat_lt, branchesOn_of_branchIf rfl BitVec.ult_iff_toNat_lt,
    branchesOn_of_branchIf rfl BitVec.ule_iff_toNat_le, branchesOn_of_branchIf rfl BitVec.ule_iff_toNat_le⟩

/-- Settles O27: both forms test the conjunction of the two words. -/
theorem jsetTestsForACommonBit : Obligations.JsetTestsForACommonBit := by
  refine ⟨encodesJmp .jset (fun _ => rfl) (fun _ => rfl), fun s dst src imm off => ?_⟩
  rw [← rhsImm_toNat imm]
  exact ⟨branchesOn_of_branchIf rfl (word_and_bne_zero_iff_common_bit _ _),
    branchesOn_of_branchIf rfl (word_and_bne_zero_iff_common_bit _ _)⟩

/-- Settles O38: the word is rejected as an undefined condition, for which the unit takes the fault without branching. -/
theorem undefinedConditionFaults : Obligations.UndefinedConditionFaults := by
  intro s f hf hc hcode
  have hrej : classify s.params.opMaps f = .error .undefinedCondition :=
    classify_error_of_not_clearOf (conditionLegal_eq_false.2 ⟨hc, jmpFind_eq_none.2 hcode⟩)
  exact unitIllegal_of_fetches_error hf hrej rfl

/-- Settles O23: both forms are `branchIf` on the condition that always holds. -/
theorem jaAlwaysBranches : Obligations.JaAlwaysBranches :=
  ⟨encodesJmp .ja (fun _ => rfl) (fun _ => rfl), fun _ _ =>
    ⟨movesIpBy_of_branchIf_true rfl, movesIpBy_of_branchIf_true rfl⟩⟩

end Sys2Proof.Machine

/-! The execution engine's claims (spec 45_execution_engine): what one step answers comes from the ways it can go, and what
a whole run does from the states it rests in, ended or stuck at a failing fetch. -/
namespace Sys2Proof.Machine

/-! ### What a step answers -/

/-- Settles O28: this is the halted check alone. -/
theorem haltedMachineRefusesToStep : Obligations.HaltedMachineRefusesToStep :=
  fun _ hh ha => step_of_halted ha hh

/-- Settles O31: the engine decodes the eight bytes at `ip`. -/
theorem stepRunsTheDecodedInstruction : Obligations.StepRunsTheDecodedInstruction :=
  fun _ _ hr hk hd => step_of_instr hr ((fetchDecode_eq_decode hk).trans hd)

/-- Settles O32: no unit aborts, so the step of a decoded instruction is the unit's work and then sub-steps 4 and 5. -/
theorem stepAdvancesAndChecksTheEnd : Obligations.StepAdvancesAndChecksTheEnd := by
  intro s i hr hk hd
  obtain ⟨u, he, hu⟩ := exec_unitStep i s
  refine ⟨u, endCheck (advance u), he, ?_, advanced_endCheck u⟩
  rw [stepRunsTheDecodedInstruction s i hr hk hd, he, finishStep_next, finishUnit_of_ne hu.result_ne_aborted]

/-- Only the stuck state Aborted has no next state (45_execution_engine R220). -/
theorem exists_step_of_not_aborted {s : State} (ha : s.result ≠ some .aborted) : ∃ t, step s = .next t := by
  cases hh : s.status.halted with
  | true => exact ⟨_, step_of_halted ha hh⟩
  | false =>
    cases hf : fetchDecode s with
    | error e => exact ⟨_, step_of_reject ⟨hh, ha⟩ hf⟩
    | ok i =>
      obtain ⟨u, he, -⟩ := exec_unitStep i s
      exact ⟨finishUnit u, by rw [step_of_instr ⟨hh, ha⟩ hf, he, finishStep_next]⟩

/-- Every way a step can go sets a result code (45_execution_engine R222). -/
theorem exists_result_of_step {s t : State} (h : step s = .next t) : ∃ c, t.result = some c := by
  cases step_ways h with
  | ran _ _ i _ u _ hu ht =>
    subst ht
    rcases hu.result_cases with ⟨hres, -⟩ | ⟨hres, -⟩ <;> simp [hres]
  | _ => simp [*]

/-- Settles O58: outside Aborted a step has a next state, and every next state carries a code. -/
theorem everyStepReportsAResult : Obligations.EveryStepReportsAResult := by
  refine fun s => ⟨fun ha => ?_, step_of_aborted⟩
  obtain ⟨t, h⟩ := exists_step_of_not_aborted ha
  obtain ⟨c, hc⟩ := exists_result_of_step h
  exact ⟨t, c, h, hc⟩

/-- Settles O29: the step of a running machine answers FetchFailed only where the fetch fails, by `fetchStuck_iff`. -/
theorem fetchFailsExactlyOffTheWords : Obligations.FetchFailsExactlyOffTheWords := by
  refine fun s hr => ⟨fun hk => step_of_reject hr (fetchDecode_of_not_fetchOk hk), fun hk => ?_⟩
  obtain ⟨t, h⟩ := exists_step_of_not_aborted hr.2
  exact ⟨t, h, fun hres => ((fetchStuck_iff s).1 ⟨t, h, hres⟩).2 hk⟩

/-- Settles O34: the word is rejected for its class, and the engine takes the fault without advancing. -/
theorem illegalClassDoesNotAdvance : Obligations.IllegalClassDoesNotAdvance := by
  intro s f hf h4 h5 h7
  have hrej : classify s.params.opMaps f = .error .illegalClass :=
    classify_error_of_not_clearOf (classLegal_eq_false.2 ⟨h4, h5, h7⟩)
  exact ⟨_, step_of_fetches_error hf hrej, rfl, rfl, rfl, rfl, rfl, rfl, fun _ => rfl, ⟨rfl, rfl, rfl⟩, .of_eq rfl rfl⟩

/-! ### What sets HALTED -/

/-- What can have set HALTED in the step from `s` to `t`, with the code the step reports for it. -/
inductive HaltCause (s t : State) : Prop where
  /-- the end of memory outside continuous mode (45_execution_engine R218) -/
  | endOfMemory (hres : t.result = some .success) (hip : t.ip.toNat = t.imem.size) (hmode : t.continuousMode = false)
      (hill : t.status.illegalInstruction = s.status.illegalInstruction)
      (hdiv : t.status.divideByZero = s.status.divideByZero)
  /-- a division by zero -/
  | divided (hres : t.result = some .divideByZero) (hdiv : t.status.divideByZero = true)
  /-- an illegal encoding -/
  | illegal (hres : t.result = some .illegalInstruction) (hill : t.status.illegalInstruction = true)
  /-- an undefined ALU64 operation under FATAL -/
  | aborted (hres : t.result = some .aborted)

/-- Where the advance and the end check set HALTED, `ip` stands at IMEM_LEN and the machine is not continuous. -/
theorem endCheck_advance_halted {u : State} (hu : u.status.halted = false)
    (hh : (endCheck (advance u)).status.halted = true) :
    (endCheck (advance u)).ip.toNat = u.imem.size ∧ u.continuousMode = false := by
  rw [endCheck_halted, advance_status, hu, Bool.false_or, Bool.and_eq_true, decide_eq_true_eq, Bool.not_eq_true',
    advance_continuousMode] at hh
  obtain ⟨hend, hmode⟩ := hh
  rw [endCheck_ip, if_neg (by simp [hmode])]
  exact ⟨hend, hmode⟩

/-- A running machine is halted by a step only at the end of memory or by a fault. -/
theorem haltCause_of_step {s t : State} (hr : Running s) (h : step s = .next t) (hh : t.status.halted = true) :
    HaltCause s t := by
  have hrun : ¬ s.status.halted = true := by simp [hr.1]
  cases step_ways h with
  | halted hs _ => exact absurd hs hrun
  | fetchFailed _ _ ht => subst ht; exact absurd hh hrun
  | illegalClass _ _ _ ht => subst ht; exact .illegal rfl rfl
  | aborted _ _ _ ht => subst ht; exact .aborted rfl
  | illegal _ _ _ ht => subst ht; exact .illegal (by simp) (by simp)
  | ran _ _ i _ u _ hu ht =>
    subst ht
    rcases hu.result_cases with ⟨hres, hst⟩ | ⟨hres, hst, -, -⟩
    · obtain ⟨hip, hmode⟩ := endCheck_advance_halted (hst ▸ hr.1) hh
      exact .endOfMemory (by simp [hres]) (by simp [hip]) (by simp [hmode]) (by simp [hst]) (by simp [hst])
    · exact .divided (by simp [hres]) (by simp [hst])

/-- A step that reports a fault leaves HALTED set (60_exceptions R241). -/
theorem halted_of_faulting_step {s t : State} (h : step s = .next t)
    (hres : t.result = some .divideByZero ∨ t.result = some .illegalInstruction) : t.status.halted = true := by
  cases step_ways h with
  | halted hs ht => subst ht; exact hs
  | fetchFailed _ _ ht => subst ht; simp at hres
  | illegalClass _ _ _ ht => subst ht; rfl
  | aborted _ _ _ ht => subst ht; rfl
  | illegal _ _ _ ht => subst ht; simp [endCheck_halted]
  | ran _ _ i _ u _ hu ht =>
    subst ht
    rcases hu.result_cases with ⟨he, -⟩ | ⟨-, hst, -, -⟩
    · simp [he] at hres
    · simp [endCheck_halted, hst]

/-- Settles O39: the fault has set HALTED, so the halted check meets the next step, and the cycle is counted as
`cycleCountCountsCompletedSteps` says. -/
theorem faultTakesEffectAtTheNextStep : Obligations.FaultTakesEffectAtTheNextStep := by
  refine fun s t h => ⟨fun hres => ?_, fun hres => (cycleCountCountsCompletedSteps s t h).1 (.inr hres)⟩
  exact step_of_halted (by rcases hres with e | e <;> simp [e]) (halted_of_faulting_step h hres)

/-! ### How a step ends a run -/

/-- A step that ends a run cleanly has reached the end of memory outside continuous mode. -/
theorem endedClean_step {s t : State} (hr : Running s) (h : step s = .next t) (hc : EndedClean t) :
    t.ip.toNat = t.imem.size ∧ t.continuousMode = false ∧ t.result = some .success := by
  obtain ⟨⟨hh, ha⟩, hill, hdiv⟩ := hc
  cases haltCause_of_step hr h hh with
  | endOfMemory hres hip hmode => exact ⟨hip, hmode, hres⟩
  | divided _ hset => rw [hset] at hdiv; cases hdiv
  | illegal _ hset => rw [hset] at hill; cases hill
  | aborted hres => exact absurd hres ha

/-- A step that ends a run faulted reports the fault: a running machine with the invariant had neither fault flag set. -/
theorem endedFaulted_step {s t : State} (hs : MachineInv s) (hr : Running s) (h : step s = .next t)
    (hf : EndedFaulted t) : t.result = some .divideByZero ∨ t.result = some .illegalInstruction := by
  obtain ⟨⟨hh, ha⟩, hflag⟩ := hf
  cases haltCause_of_step hr h hh with
  | endOfMemory _ _ _ hill hdiv =>
    obtain ⟨-, -, haltIll, haltDiv, -, -⟩ := hs
    rw [hill, hdiv] at hflag
    have hset : s.status.halted = true := hflag.elim haltIll haltDiv
    rw [hr.1] at hset
    cases hset
  | divided hres => exact .inl hres
  | illegal hres => exact .inr hres
  | aborted hres => exact absurd hres ha

/-- In continuous mode a successful step does not halt. -/
theorem not_halted_of_continuous_step {s t : State} (hr : Running s) (h : step s = .next t)
    (hc : s.continuousMode = true) (hres : t.result = some .success) : t.status.halted = false := by
  obtain ⟨-, -, hkept, -⟩ := step_keeps h
  by_contra hh
  cases haltCause_of_step hr h (by simpa using hh) with
  | endOfMemory _ _ hmode => rw [hkept, hc] at hmode; cases hmode
  | divided he => rw [hres] at he; cases he
  | illegal he => rw [hres] at he; cases he
  | aborted he => rw [hres] at he; cases he

/-! ### The states a run rests in -/

/-- From a state of the kind `P` every step of a run answers the code `c`, changes nothing else, and stays in `P`. -/
def Rests (P : State → Prop) (c : StepResult) : Prop :=
  ∀ s b, P s → runStep b s = some ((hostWrite b s).report c) ∧ P ((hostWrite b s).report c)

theorem rests_ended : Rests Ended .machineHalted :=
  fun _ b h => ⟨runStep_of_ended h b, ended_report_machineHalted h b⟩

theorem rests_fetchStuck : Rests FetchStuck .fetchFailed :=
  fun _ b h => ⟨runStep_of_fetchStuck h b, fetchStuck_report_fetchFailed h b⟩

section Run
variable {w : Nat → Option Bool} {s t : State} {n : Nat}

/-- A run that rests at step n is the same machine at every later step, by induction on how much later. -/
theorem Rests.runAt_later {P : State → Prop} {c : StepResult} (hP : Rests P c) (ht : runAt w s n = some t) (hp : P t)
    (k : Nat) : ∃ u, runAt w s (n + 1 + k) = some u ∧ P u ∧ SameMachine t u ∧ u.result = some c := by
  induction k with
  | zero =>
    obtain ⟨hstep, hp'⟩ := hP t (w n) hp
    exact ⟨_, (runAt_succ_of_eq ht).trans hstep, hp', sameMachine_report_hostWrite _ _ _, rfl⟩
  | succ k ih =>
    obtain ⟨u, hu, hpu, hsame, -⟩ := ih
    obtain ⟨hstep, hp'⟩ := hP u (w (n + 1 + k)) hpu
    exact ⟨_, (runAt_succ_of_eq hu).trans hstep, hp', hsame.trans (sameMachine_report_hostWrite _ _ _), rfl⟩

/-- After an Aborted state a run has no state (45_execution_engine R220). -/
theorem runAt_later_of_aborted (ht : runAt w s n = some t) (ha : Aborted t) (k : Nat) :
    runAt w s (n + 1 + k) = none := by
  induction k with
  | zero => exact (runAt_succ_of_eq ht).trans (runStep_of_aborted ha _)
  | succ k ih => rw [← Nat.add_assoc, runAt_succ, ih, Option.bind_none]

/-- A run that is not ended at step n nor at any later step never ends: had it ended before, it would have rested
there. -/
theorem runNeverEnds_of_later (ht : runAt w s n = some t) (hn : ¬ Ended t)
    (hlater : ∀ k u, runAt w s (n + 1 + k) = some u → ¬ Ended u) : RunNeverEnds w s := by
  intro m u hu he
  rcases lt_trichotomy m n with hlt | rfl | hgt
  · obtain ⟨k, rfl⟩ := Nat.exists_eq_add_of_le (Nat.succ_le_of_lt hlt)
    obtain ⟨v, hv, hev, -⟩ := rests_ended.runAt_later hu he k
    cases ht.symm.trans hv
    exact hn hev
  · cases ht.symm.trans hu
    exact hn he
  · obtain ⟨k, rfl⟩ := Nat.exists_eq_add_of_le (Nat.succ_le_of_lt hgt)
    exact hlater k u hu he

/-- A run that meets a failing fetch never ends (45_execution_engine R223). -/
theorem runNeverEnds_of_fetchStuck (ht : runAt w s n = some t) (hf : FetchStuck t) : RunNeverEnds w s := by
  refine runNeverEnds_of_later ht (Stuck.not_ended (.inl hf)) fun k u hu => ?_
  obtain ⟨v, hv, hfv, -⟩ := rests_fetchStuck.runAt_later ht hf k
  cases hu.symm.trans hv
  exact Stuck.not_ended (.inl hfv)

/-- A run that meets an Aborted state never ends (45_execution_engine R220, R223). -/
theorem runNeverEnds_of_aborted (ht : runAt w s n = some t) (ha : Aborted t) : RunNeverEnds w s := by
  refine runNeverEnds_of_later ht (Stuck.not_ended (.inr ha)) fun k u hu => ?_
  rw [runAt_later_of_aborted ht ha k] at hu
  cases hu

end Run

/-- A run never ends or has a first ended state (45_execution_engine R223). -/
theorem runNeverEnds_or_runEndsAt (w : Nat → Option Bool) (s : State) :
    RunNeverEnds w s ∨ ∃ n t, RunEndsAt w s n t := by
  classical
  by_cases hex : ∃ n t, runAt w s n = some t ∧ Ended t
  · obtain ⟨t, ht, he⟩ := Nat.find_spec hex
    exact .inr ⟨_, t, ht, he, fun m u hm hu heu => Nat.find_min hex hm ⟨u, hu, heu⟩⟩
  · exact .inl fun n t ht he => hex ⟨n, t, ht, he⟩

/-- Settles O56: a step ends a run by one of the causes of HALTED, and a run rests in its first ended state or at its
failing fetch and has no state after Aborted. -/
theorem cleanEndOnlyAtTheEndOfMemory : Obligations.CleanEndOnlyAtTheEndOfMemory := by
  refine ⟨fun s t hs hr h =>
    ⟨endedClean_step hr h, endedFaulted_step hs hr h, not_halted_of_continuous_step hr h⟩, fun w s => ⟨?_, ?_⟩⟩
  · refine (runNeverEnds_or_runEndsAt w s).imp_right ?_
    rintro ⟨n, t, hend⟩
    have ⟨ht, he, _⟩ := hend
    refine ⟨n, t, hend, fun k => ?_⟩
    obtain ⟨u, hu, -, hsame, hres⟩ := rests_ended.runAt_later ht he k
    exact ⟨u, hu, hsame, hres⟩
  · intro n t ht
    refine ⟨fun hf => ⟨runNeverEnds_of_fetchStuck ht hf, fun k => ?_⟩, fun ha =>
      ⟨runNeverEnds_of_aborted ht ha, runAt_later_of_aborted ht ha⟩⟩
    obtain ⟨u, hu, -, hsame, hres⟩ := rests_fetchStuck.runAt_later ht hf k
    exact ⟨u, hu, hsame, hres⟩

end Sys2Proof.Machine

/-! The claim about faults (spec 60_exceptions): where a fault leaves the address of the faulting word. -/
namespace Sys2Proof.Machine

/-- A fetched word whose next address modulo 2^64 is IMEM_LEN is the last of the memory: `ip` has not wrapped. -/
theorem ip_add_eight_eq_size_of_mod {s : State} (hk : FetchOk s) (h : (s.ip.toNat + 8) % 2 ^ 64 = s.imem.size) :
    s.ip.toNat + 8 = s.imem.size := by
  have hlt : s.ip.toNat < s.imem.size := hk.1
  have hip : s.ip.toNat < 2 ^ 64 := s.ip.isLt
  omega

/-- Where a unit has left `ip`, the memory and the mode as fetched, the advance and the end check make `ip` the next
address, or 0 where the word was the last of a continuous program (45_execution_engine R217, R218). -/
theorem endCheck_advance_ip_next_or_rewound {s u : State} (hk : FetchOk s) (hip : u.ip = s.ip) (himem : u.imem = s.imem)
    (hmode : u.continuousMode = s.continuousMode) :
    if (s.ip.toNat + 8) % 2 ^ 64 = s.imem.size ∧ s.continuousMode = true then
      (endCheck (advance u)).ip = 0 ∧ s.ip.toNat + 8 = s.imem.size
    else (endCheck (advance u)).ip.toNat = (s.ip.toNat + 8) % 2 ^ 64 := by
  obtain ⟨hadv, -⟩ := advanced_endCheck u
  rw [hip, himem, hmode] at hadv
  split
  case isTrue hrewind =>
    rw [if_pos hrewind] at hadv
    exact ⟨BitVec.eq_of_toNat_eq hadv, ip_add_eight_eq_size_of_mod hk hrewind.1⟩
  case isFalse hnext => rwa [if_neg hnext] at hadv

/-- The two ways a step can report a fault, with the state the unit leaves to the engine's advance. -/
inductive FaultWay (s t : State) : Prop where
  /-- the class is illegal, and the engine does not advance (45_execution_engine R215) -/
  | ofClass (hc : (fetchedFields s).classLegal = false) (ht : t = s.raiseFault .illegalInstruction)
  /-- a unit faulted, and the engine advances (60_exceptions R243) -/
  | ofUnit (hk : FetchOk s) (hc : (fetchedFields s).classLegal = true) (u : State) (hx : u.x = s.x) (hip : u.ip = s.ip)
      (himem : u.imem = s.imem) (hmode : u.continuousMode = s.continuousMode) (ht : t = endCheck (advance u))

/-- The inversion of a step that reports a fault (60_exceptions R241). -/
theorem faultWay_of_step {s t : State} (h : step s = .next t)
    (hres : t.result = some .divideByZero ∨ t.result = some .illegalInstruction) : FaultWay s t := by
  cases step_ways h with
  | halted _ ht => subst ht; simp at hres
  | fetchFailed _ _ ht => subst ht; simp at hres
  | illegalClass _ _ hc ht => exact .ofClass hc ht
  | aborted _ _ _ ht => subst ht; simp at hres
  | illegal _ hk hc ht => exact .ofUnit hk hc (s.raiseFault .illegalInstruction) rfl rfl rfl rfl ht
  | ran _ hk i hf u _ hu ht =>
    rcases hu.result_cases with ⟨he, -⟩ | ⟨-, -, hx, hip⟩
    · subst ht; simp [he] at hres
    · obtain ⟨himem, -, -, hmode, -⟩ := hu.keeps
      have hc := classLegal_of_classify ((fetchDecode_eq_classify hk).symm.trans hf)
      exact .ofUnit hk hc u hx hip himem hmode ht

/-- Settles O57: a class fault leaves `ip` where the word is, and after a unit's fault the engine's advance alone has
moved it. -/
theorem faultAddressIsRecoverable : Obligations.FaultAddressIsRecoverable := by
  intro s t h hres
  cases faultWay_of_step h hres with
  | ofClass hc ht =>
    subst ht
    rw [if_pos hc]
    exact ⟨getReg_of_x_eq rfl, rfl, rfl⟩
  | ofUnit hk hc u hx hip himem hmode ht =>
    subst ht
    rw [if_neg (by simp [hc])]
    exact ⟨getReg_of_x_eq (by simp [hx]), endCheck_advance_ip_next_or_rewound hk hip himem hmode⟩

end Sys2Proof.Machine

/-! The host's moves (spec 70_reset_and_hazards): what reset and load leave in each component, and that every move keeps
the invariant. -/
namespace Sys2Proof.Machine

/-! ### What reset and load leave -/

section HostMoves
variable (s : State) (imemLen dmemLen : Nat) (bytes : List Byte)

@[simp] theorem hostReset_imem : (hostReset imemLen dmemLen s).imem = .zeroed imemLen := rfl
@[simp] theorem hostReset_dmem : (hostReset imemLen dmemLen s).dmem = .zeroed dmemLen := rfl

@[simp] theorem hostReset_getReg (r : Reg) : (hostReset imemLen dmemLen s).getReg r = 0 :=
  Vector.getElem_replicate r.isLt

@[simp] theorem hostLoad_imem : (hostLoad bytes dmemLen s).imem = (Memory.zeroed bytes.length).writeBytes 0 bytes := rfl

/-- Load differs from reset in instruction memory alone (70_reset_and_hazards R272). -/
theorem hostLoad_with_reset_imem :
    { hostLoad bytes dmemLen s with imem := (hostReset bytes.length dmemLen s).imem } =
      hostReset bytes.length dmemLen s := rfl

end HostMoves

/-- A zero-filled memory of a list's length, written from offset 0 with the list, reads as the list. -/
theorem readByte_writeBytes_zeroed (bytes : List Byte) (a : Nat) :
    ((Memory.zeroed bytes.length).writeBytes 0 bytes).readByte a = bytes[a]? := by
  rcases Nat.lt_or_ge a bytes.length with hlt | hge
  · have hin : a < (Memory.zeroed bytes.length).size ∧ 0 ≤ a ∧ a < 0 + bytes.length :=
      ⟨hlt, Nat.zero_le a, by omega⟩
    rw [readByte_writeBytes (zeroed_wf _), if_pos hin, Nat.sub_zero]
  · rw [readByte_of_size_le (by rw [writeBytes_size]; exact hge), List.getElem?_eq_none hge]

/-- Settles O46: the copy reads as the program, and load differs from reset in instruction memory alone. -/
theorem loadCopiesTheProgram : Obligations.LoadCopiesTheProgram := by
  intro bytes dmemLen s t h
  obtain rfl : hostLoad bytes dmemLen s = t := Host.Outcome.next.inj h
  rw [hostLoad_imem]
  exact ⟨writeBytes_size .., readByte_writeBytes_zeroed bytes, hostLoad_with_reset_imem s dmemLen bytes⟩

/-- Settles O45: reset leaves zeroed memories, and every other component is its literal value in reset's definition. -/
theorem resetClearsEverything : Obligations.ResetClearsEverything := by
  intro imemLen dmemLen s t h
  obtain rfl : hostReset imemLen dmemLen s = t := Host.Outcome.next.inj h
  exact ⟨hostReset_getReg s imemLen dmemLen, rfl, rfl, rfl, rfl, rfl, rfl,
    fun a ha => by rw [hostReset_imem, readByte_zeroed ha], fun a ha => by rw [hostReset_dmem, readByte_zeroed ha]⟩

/-! ### The invariants and the host -/

/-- An initialized machine has zero-filled memories, no flag and no result, so it has the invariant. -/
theorem machineInv_initialized (p : Params) (imemLen dmemLen : Nat) :
    MachineInv (State.initialized p imemLen dmemLen) :=
  ⟨zeroed_wf imemLen, zeroed_wf dmemLen, nofun, nofun, nofun, nofun⟩

/-- The invariant asks of instruction memory only that it is canonical. -/
theorem MachineInv.withImem {s : State} (h : MachineInv s) {m : Memory} (hm : m.wf = true) :
    MachineInv { s with imem := m } := by
  obtain ⟨-, hd, hflags⟩ := h
  exact ⟨hm, hd, hflags⟩

/-- Reset establishes the invariant: it initializes the machine, keeping only the draw counter. -/
theorem machineInv_hostReset (imemLen dmemLen : Nat) (s : State) : MachineInv (hostReset imemLen dmemLen s) :=
  (machineInv_initialized s.params imemLen dmemLen).of_frame rfl rfl id rfl rfl rfl

/-- Load establishes the invariant: copying the program into the reset machine keeps the memory canonical. -/
theorem machineInv_hostLoad (bytes : List Byte) (dmemLen : Nat) (s : State) : MachineInv (hostLoad bytes dmemLen s) :=
  (machineInv_hostReset bytes.length dmemLen s).withImem (writeBytes_wf (zeroed_wf _) 0 bytes)

/-- Writing `continuous_mode` keeps the invariant, which does not speak of it. -/
theorem MachineInv.hostSetContinuous {s : State} (h : MachineInv s) (b : Bool) : MachineInv (hostSetContinuous b s) :=
  h.of_frame rfl rfl id rfl rfl rfl

/-- Settles O54, by the move: reset and load establish the invariant, the other moves keep it. -/
theorem hostMovesKeepInv : Obligations.HostMovesKeepInv := by
  refine ⟨fun m s t hs h => ?_, machineInv_hostReset, machineInv_hostLoad⟩
  cases m with
  | reset imemLen dmemLen => cases h; exact machineInv_hostReset imemLen dmemLen s
  | load bytes dmemLen => cases h; exact machineInv_hostLoad bytes dmemLen s
  | setContinuous b => cases h; exact hs.hostSetContinuous b
  | step => exact everyStepKeepsInv s t hs h
  | read => cases h; exact hs

/-- A machine without instruction memory has no branch word, so it is aligned where `ip` is. -/
theorem alignedInv_of_imem_size_eq_zero {s : State} (hsize : s.imem.size = 0) (hip : s.ip.toNat % 8 = 0) :
    AlignedInv s :=
  ⟨by rw [hsize], fun a _ ha => absurd (hsize ▸ ha) (Nat.not_lt_zero a), hip⟩

/-- Settles O52: `State.reset` is an initialized machine with IMEM_LEN 0 and `ip` 0. -/
theorem invHoldsAtReset : Obligations.InvHoldsAtReset :=
  ⟨machineInv_initialized .., alignedInv_of_imem_size_eq_zero rfl rfl⟩

end Sys2Proof.Machine
